-- ==== Sys2Proof/Word.lean ====
section
/-! DEFINITION. The words of HUFFCORE: the widths the spec fixes (rule R6) and nothing else. -/

namespace Sys2Proof

/-- A symbol, or one byte of a data buffer (R6: SW = 8). -/
abbrev Byte := BitVec 8

/-- One register of address space REG, one entry of FREQ, one command word (R6, R22, R100). -/
abbrev Word := BitVec 32

/-- The frequency of a tree node (R6: NFW = 40). -/
abbrev NodeFreq := BitVec 40

/-- The widest word the host port moves (R53: h_wdata, h_rdata; R74). -/
abbrev PortWord := BitVec 256

/-- An arena index, 0 to 510 (R40: "indexed 0 to 510 by a 9-bit node index"). -/
abbrev NodeIx := Fin 511

/-- "An ordered sequence of binary digits" (R10), first digit first: `false` is 0 and `true` is 1. -/
abbrev BitString := List Bool

/-- The 9-bit numeral of an arena index (R6: NIW = 9). -/
def NodeIx.toBits (i : NodeIx) : BitVec 9 := BitVec.ofNat 9 i.val

/-- The arena index numbered `n`; the rules number none above 510 (R148 a). -/
def NodeIx.ofNumber (n : Nat) : NodeIx := Fin.ofNat 511 n

end Sys2Proof
end

