-- ==== Sys2Proof/Config.lean ====
section
/-! DEFINITION. What an instance of HUFFCORE fixes: its three capacities (R6), its constants (R23), and the
one value the spec leaves open, the contents of a buffer byte that nothing has written since reset (R52, R85). -/

namespace Sys2Proof

/-- The three capacities, in bytes (R6: "A model takes the three capacity parameters as arguments"). -/
structure Caps where
  /-- SYM_CAP: bytes in SYMBUF. -/
  symCap : Nat
  /-- BIT_CAP: bytes in BITBUF. -/
  bitCap : Nat
  /-- OUT_CAP: bytes in OUTBUF. -/
  outCap : Nat
  deriving DecidableEq, Repr

/-- The reference value of each capacity, 4096 (R6). -/
def Caps.reference : Caps := { symCap := 4096, bitCap := 4096, outCap := 4096 }

/-- BIT_CAP in payload bits: the bound of BITLEN (R29). -/
def Caps.payloadBits (c : Caps) : Nat := 8 * c.bitCap

/-- The three byte buffers (R46, R47, R48). -/
inductive Buffer where
  | symbuf
  | bitbuf
  | outbuf
  deriving DecidableEq, Repr

/-- The value the identity register reads (R23). -/
def Config.idValue : Word := 0x48554646#32

/-- FREE VALUE. The byte a buffer location holds that nothing has written since the last reset, by the number of
resets taken, the buffer and the index: unspecified (R52, R85, U3 of 93_implementation_defined.md), stable until it is
written or the next reset comes (R71). It has no body, so no proof can see its value. Assumption log 1. -/
opaque Config.unwrittenByte : Nat → Buffer → Nat → Byte

end Sys2Proof
end

