-- ==== Sys2Proof/Syntax.lean ====
section
/-! DEFINITION. The commands of HUFFCORE (R101) and the transactions of its host port (R8, R53). -/

namespace Sys2Proof

/-- The seven commands of the opcode map (R101). No command has an operand field (R102). -/
inductive Instr where
  /-- NOP, word 0x00000000 (R121). -/
  | nop
  /-- CLEAR, word 0x00000001 (R122). -/
  | clear
  /-- COUNT, word 0x00000002: the Frequency Counter (R130). -/
  | count
  /-- BUILD, word 0x00000003: the Tree Builder (R140). -/
  | build
  /-- GENCODE, word 0x00000004: the Code Table Generator (R160). -/
  | gencode
  /-- ENCODE, word 0x00000005: the Encoder (R170). -/
  | encode
  /-- DECODE, word 0x00000006: the Decoder (R185). -/
  | decode
  deriving DecidableEq, Repr

/-- One step's input: a host transaction, or the reset event (R8). Widths are those of the port (R53). -/
inductive Txn where
  /-- `HostRead(space, index)` (R71). -/
  | read (space : BitVec 4) (index : BitVec 28)
  /-- `HostWrite(space, index, value)` (R72). -/
  | write (space : BitVec 4) (index : BitVec 28) (value : PortWord)
  /-- The assertion of `rst_n` (R230). -/
  | reset
  deriving DecidableEq, Repr

/-- What the port answers to a transaction (R71, R72, R73). -/
inductive Response where
  /-- `Ok(v)` of a read: `h_rdata`, zero-extended above the width of the space (R53). -/
  | data (v : PortWord)
  /-- `Ok` of a write. -/
  | ok
  /-- `AccessError`: `h_err` is 1 (R73). -/
  | accessError
  deriving DecidableEq, Repr

/-- The eight address spaces (R70). -/
inductive Space where
  | reg
  | symbuf
  | bitbuf
  | outbuf
  | freq
  | node
  | codelen
  | codebits
  deriving DecidableEq, Repr

/-- The fifteen registers of address space REG (R22). -/
inductive Reg where
  | id
  | cmd
  | status
  | esticky
  | errinfo
  | symlen
  | bitlen
  | outlen
  | nsym
  | nodecnt
  | root
  | cursor
  | symcap
  | bitcap
  | outcap
  deriving DecidableEq, Repr

end Sys2Proof
end

