-- ==== Sys2Proof/WellFormed.lean ====
section
/-! DEFINITION. Well-formedness checks: of a command (it has no field to check), of a command word of format C (R100,
R101) and of the capacities of an instance (R6). -/

namespace Sys2Proof

/-- Every command is well-formed: none has a field that a value could overflow (R100: "There is no register field, no
immediate field, no mode or qualifier field and no prefix"). -/
def Instr.wf (i : Instr) : Bool :=
  match i with
  | .nop => true
  | .clear => true
  | .count => true
  | .build => true
  | .gencode => true
  | .encode => true
  | .decode => true

/-- A word of format C: bits 31:8 are 0 (R100). -/
def zeroFieldWf (w : Word) : Bool := w.extractLsb 31 8 == 0#24

/-- The opcode field holds one of the seven opcodes (R101). -/
def opFieldWf (w : Word) : Bool := decide ((w.extractLsb 7 0).toNat ≤ 6)

/-- A word that is one of the seven commands (R103). -/
def wordWf (w : Word) : Bool := zeroFieldWf w && opFieldWf w

/-- The constraint on SYM_CAP (R6). -/
def Caps.symWf (c : Caps) : Bool := decide (1 ≤ c.symCap) && decide (c.symCap ≤ 2 ^ 24)

/-- The constraint on BIT_CAP (R6). -/
def Caps.bitWf (c : Caps) : Bool := decide (1 ≤ c.bitCap) && decide (c.bitCap ≤ 2 ^ 28)

/-- The constraint on OUT_CAP (R6). -/
def Caps.outWf (c : Caps) : Bool := decide (c.symCap ≤ c.outCap) && decide (c.outCap ≤ 2 ^ 24)

/-- The constraints of R6 on the three capacities. -/
def Caps.wf (c : Caps) : Bool := c.symWf && c.bitWf && c.outWf

end Sys2Proof
end

