-- ==== Sys2Proof/Decode.lean ====
section
/-! DEFINITION. Decoding a command word, total on all 32-bit words (R110), then the encoder and the word the host lays
out for a row of the opcode table. -/

namespace Sys2Proof

/-- The reason the decoder rejects a word: it is not one of the seven (R103). -/
inductive DecodeError where
  | illegalCommand (w : Word)
  deriving DecidableEq, Repr

/-- One row of the opcode map: the word selects the command exactly when `word and mask = value` (R101). -/
structure OpcodeRow where
  value : Word
  mask  : Word
  instr : Instr
  deriving DecidableEq, Repr

/-- The opcode map (R101): "all 32 bits are compared". -/
def opcodeTable : List OpcodeRow :=
  [ { value := 0x00000000#32, mask := 0xFFFFFFFF#32, instr := .nop },
    { value := 0x00000001#32, mask := 0xFFFFFFFF#32, instr := .clear },
    { value := 0x00000002#32, mask := 0xFFFFFFFF#32, instr := .count },
    { value := 0x00000003#32, mask := 0xFFFFFFFF#32, instr := .build },
    { value := 0x00000004#32, mask := 0xFFFFFFFF#32, instr := .gencode },
    { value := 0x00000005#32, mask := 0xFFFFFFFF#32, instr := .encode },
    { value := 0x00000006#32, mask := 0xFFFFFFFF#32, instr := .decode } ]

/-- The row of the opcode map that a word selects. -/
def OpcodeRow.selects (r : OpcodeRow) (w : Word) : Bool := w &&& r.mask == r.value

/-- Decoding a command word: the opcode map and a default arm (R110). -/
def decodeCommand (w : Word) : Except DecodeError Instr :=
  match opcodeTable.find? (fun r => r.selects w) with
  | some r => .ok r.instr
  | none => .error (.illegalCommand w)

/-- The word of a command, from format C (R100): the opcode in bits 7:0, zero in bits 31:8. -/
def formatC (op : Byte) : Word := 0#24 ++ op

/-- The opcode of a command (R101). -/
def opcodeOf (i : Instr) : Byte :=
  match i with
  | .nop => 0x00#8
  | .clear => 0x01#8
  | .count => 0x02#8
  | .build => 0x03#8
  | .gencode => 0x04#8
  | .encode => 0x05#8
  | .decode => 0x06#8

/-- The command word of a command. -/
def encode (i : Instr) : Word := formatC (opcodeOf i)

/-- The command word that a table row's bits stand for: every bit above `nbits` is 0. -/
def tableWord (nbits w : Nat) : Word := BitVec.ofNat 32 (w % 2 ^ nbits)

/-- The command the decoder reads from an instruction whose bits are `w`, numbered as spec/opcode_table.json numbers
them; `none` where it refuses. A command word is one 32-bit word, never a sequence of bytes (R76). -/
def decodeTableWord (nbits w : Nat) : Option Instr :=
  match decodeCommand (tableWord nbits w) with
  | .ok i => some i
  | .error _ => none

end Sys2Proof
end

