-- ==== Sys2Proof/Machine/State.lean ====
section
/-! DEFINITION. The state of HUFFCORE as plain data: the registers, tables, buffers and the priority queue of
10_state.md (R20, R49), the capacities of the instance (R6), and three fields of the model's own: the number of resets
taken (it indexes the free bytes), the transactions the host has yet to present, and the port's last response. -/

namespace Sys2Proof.Machine

/-- The six errors of R201, in the order of their codes 1 to 6. -/
inductive ErrorKind where
  /-- Code 1, raised by BUILD (R202). -/
  | emptyInput
  /-- Code 2, raised by ENCODE (R203). -/
  | missingCode
  /-- Code 3, raised by DECODE (R204). -/
  | malformedStream
  /-- Code 4, raised by the decoding of any CMD write (R205). -/
  | illegalCommand
  /-- Code 5, raised by COUNT, ENCODE and DECODE (R206). -/
  | capacity
  /-- Code 6, raised by DECODE (R207). -/
  | noTree
  deriving DecidableEq, Repr

/-- A record of the node arena: the "tagged variant" of R40. -/
inductive Node where
  /-- A leaf: its symbol and its frequency. -/
  | leaf (sym : Byte) (freq : NodeFreq)
  /-- An internal node: its frequency, the child on edge 0 and the child on edge 1. -/
  | internal (freq : NodeFreq) (left right : NodeIx)
  deriving DecidableEq, Repr

/-- FREQ: 256 counts, indexed by symbol (R39). -/
abbrev FreqTable := Vector Word 256

/-- NODE: 511 records, indexed by arena index (R40). -/
abbrev Arena := Vector Node 511

/-- CODE: 256 entries, indexed by symbol; `none` is valid = 0, `some p` is valid = 1 with bits = p and len = the length
of p (R43). -/
abbrev CodeTable := Vector (Option BitString) 256

/-- The written bytes of a buffer: (index, byte) pairs. An index that is not listed holds no byte that anything has
written since reset. -/
abbrev Memory := List Host.Cell

/-- The canonical form: indices strictly rising. (An unlisted index reads as no written byte, so no entry can equal what
an unlisted index reads as.) -/
abbrev Memory.wf (m : Memory) : Prop := (m.map Prod.fst).Pairwise (· < ·)

/-- The state of the machine. -/
structure State where
  /-- The capacities of the instance; no step changes them (R6, R21). -/
  caps : Caps
  /-- RESULT of the last completed command: `none` is code 0, OK (R25, R201). -/
  result : Option ErrorKind
  /-- TV, tree valid (R25). -/
  tv : Bool
  /-- ESTICKY (R26). -/
  esticky : BitVec 8
  /-- ERRINFO (R27). -/
  errinfo : Word
  /-- SYMLEN (R28). -/
  symlen : Word
  /-- BITLEN (R29). -/
  bitlen : Word
  /-- OUTLEN (R30). -/
  outlen : Word
  /-- NSYM (R31). -/
  nsym : BitVec 9
  /-- NODECNT (R32). -/
  nodecnt : BitVec 10
  /-- ROOT (R33). -/
  root : NodeIx
  /-- CURSOR (R34). -/
  cursor : NodeIx
  /-- FREQ, the frequency table (R39). -/
  freq : FreqTable
  /-- NODE, the tree's arena (R40). -/
  node : Arena
  /-- CODE, the code table (R43). -/
  code : CodeTable
  /-- SYMBUF, the bytes written (R46). -/
  symbuf : Memory
  /-- BITBUF, the bytes written (R47). -/
  bitbuf : Memory
  /-- OUTBUF, the bytes written (R48). -/
  outbuf : Memory
  /-- INQ, the priority queue: a set of arena indices, listed in the order of insertion (R49). -/
  inq : List NodeIx
  /-- The model's own: how many resets the machine has taken since State.reset; it indexes the free bytes of the three
  buffers (assumption log 1). -/
  resets : Nat
  /-- The model's own: the transactions the host has yet to present, in the order the port accepts them (R80). -/
  host : List Txn
  /-- The model's own: what the port answered to the last transaction; `none` right after reset (R53, R71 to R73). -/
  port : Option Response
  deriving DecidableEq, Repr

/-- The faults of HUFFCORE: none ("Nothing in HUFFCORE is `fault` (there is no trap), `stuck`", 93_implementation_defined.md;
R221). A command's error is an ordinary next state. The type is empty, so no step can answer one. -/
inductive Fault where
  deriving DecidableEq, Repr

/-- The refusals of the model. -/
inductive Refusal where
  /-- An instruction without a meaning in this model. Raised by an arm of exec that is rejected by name; no arm is. Safe:
  the machine stops where the hardware goes on. -/
  | notModelled (mnemonic : String)
  deriving DecidableEq, Repr

/-- How the work of a command stands: going on with the work `s` (a state, or a state and the loop's own variables), or
ended by `raise e(info)` in the state reached (R11, R120). -/
inductive Run (σ : Type) where
  | ok (s : σ)
  | raised (s : State) (e : ErrorKind) (info : Word)
  deriving DecidableEq, Repr

/-- The empty frequency table (R52). -/
def FreqTable.empty : FreqTable := Vector.replicate 256 0#32

/-- The empty code table (R52). -/
def CodeTable.empty : CodeTable := Vector.replicate 256 none

/-- The arena after reset. No host read and no command can reach it (R52: "nothing observable"). Assumption log 2. -/
def Arena.blank : Arena := Vector.replicate 511 (.leaf 0#8 0#40)

/-- The state after the reset event, by R52, of an instance with capacities `caps` that has taken `resets` resets and whose
host has the transactions `host` yet to present. -/
def State.resetWith (caps : Caps) (resets : Nat) (host : List Txn) : State :=
  { caps := caps
    result := none
    tv := false
    esticky := 0#8
    errinfo := 0#32
    symlen := 0#32
    bitlen := 0#32
    outlen := 0#32
    nsym := 0#9
    nodecnt := 0#10
    root := 0
    cursor := 0
    freq := FreqTable.empty
    node := Arena.blank
    code := CodeTable.empty
    symbuf := []
    bitbuf := []
    outbuf := []
    inq := []
    resets := resets
    host := host
    port := none }

/-- The machine right after reset (R52), with the reference capacities (R6) and no transaction presented yet. -/
def State.reset : State := State.resetWith Caps.reference 0 []

end Sys2Proof.Machine
end

