-- ==== Sys2Proof/Machine/Flags.lean ====
section
/-! DEFINITION. The flags of R38: RESULT, TV and LEAFROOT in STATUS (R25), the bits of ESTICKY (R26) and the output err_o
(R209). There are no arithmetic condition codes. -/

namespace Sys2Proof.Machine

/-- The code of an error (R201). -/
def ErrorKind.code (e : ErrorKind) : BitVec 4 :=
  match e with
  | .emptyInput => 1#4
  | .missingCode => 2#4
  | .malformedStream => 3#4
  | .illegalCommand => 4#4
  | .capacity => 5#4
  | .noTree => 6#4

/-- The 4-bit RESULT code (R201). -/
def resultCode (r : Option ErrorKind) : BitVec 4 :=
  match r with
  | none => 0#4
  | some e => e.code

/-- ESTICKY with bit `code(e)` alone (R26). -/
def ErrorKind.stickyBit (e : ErrorKind) : BitVec 8 := 1#8 <<< e.code.toNat

/-- LEAFROOT: TV = 1 and NODECNT = 1, computed, not stored (R25). -/
def State.leafRoot (s : State) : Bool := s.tv && s.nodecnt == 1#10

/-- STATUS: RESULT in bits 3:0, TV in bit 4, LEAFROOT in bit 5, bits 31:6 zero (R25). -/
def State.status (s : State) : Word :=
  0#26 ++ BitVec.ofBool s.leafRoot ++ BitVec.ofBool s.tv ++ resultCode s.result

/-- `ESTICKY <- ESTICKY and not w[7:0]` (R26). -/
def stickyCleared (esticky : BitVec 8) (w : Word) : BitVec 8 := esticky &&& ~~~ (w.setWidth 8)

/-- The output err_o: 1 exactly when ESTICKY is not 0 (R209). -/
def State.errO (s : State) : Bool := s.esticky != 0#8

/-- The output h_err: 1 when the last transaction ended in an access error (R53, R73). -/
def State.hErr (s : State) : Bool := s.port == some .accessError

end Sys2Proof.Machine
end

