-- ==== Sys2Proof/Machine/Ops.lean ====
section
/-! DEFINITION. The operations the commands share: the byte buffers, the tables, the loop over a finite range, and the two
ways a command ends: completion without error (R120) and `raise E(info)` (R11, R211). -/

namespace Sys2Proof.Machine

/-! ### The byte buffers -/

/-- The byte listed at index `i`, if any. -/
def Memory.find? (m : Memory) (i : Nat) : Option Byte :=
  match m with
  | [] => none
  | (a, b) :: m => if a = i then some b else if i < a then none else Memory.find? m i

/-- `MemWrite`: the byte `b` at index `i`, keeping the indices strictly rising. -/
def Memory.put (m : Memory) (i : Nat) (b : Byte) : Memory :=
  match m with
  | [] => [(i, b)]
  | (a, c) :: m =>
    if a = i then (i, b) :: m
    else if i < a then (i, b) :: (a, c) :: m
    else (a, c) :: Memory.put m i b

/-- `MemRead`: the byte at index `i`, the free byte of R85 where nothing has been written. -/
def Memory.byteAt (m : Memory) (resets : Nat) (buf : Buffer) (i : Nat) : Byte :=
  (Memory.find? m i).getD (Config.unwrittenByte resets buf i)

/-- `SYMBUF[i]` (R46). -/
def State.symByte (s : State) (i : Nat) : Byte := Memory.byteAt s.symbuf s.resets .symbuf i

/-- `BITBUF[i]` (R47). -/
def State.bitByte (s : State) (i : Nat) : Byte := Memory.byteAt s.bitbuf s.resets .bitbuf i

/-- `OUTBUF[i]` (R48). -/
def State.outByte (s : State) (i : Nat) : Byte := Memory.byteAt s.outbuf s.resets .outbuf i

/-! ### The tables -/

/-- `FREQ[c]` (R39). -/
def FreqTable.at (f : FreqTable) (c : Byte) : Word := f[c.toNat]'c.isLt

/-- `FREQ[c] <- v`. -/
def FreqTable.put (f : FreqTable) (c : Byte) (v : Word) : FreqTable := f.set c.toNat v c.isLt

/-- `CODE[c]` (R43). -/
def CodeTable.at (t : CodeTable) (c : Byte) : Option BitString := t[c.toNat]'c.isLt

/-- `CODE[c] <- (valid 1, len len(p), bits p)`. -/
def CodeTable.put (t : CodeTable) (c : Byte) (p : BitString) : CodeTable := t.set c.toNat (some p) c.isLt

/-- `NODE[i]` (R40). -/
def Arena.at (a : Arena) (i : NodeIx) : Node := a[i.val]'i.isLt

/-- `NODE[i] <- n`. -/
def Arena.put (a : Arena) (i : NodeIx) (n : Node) : Arena := a.set i.val n i.isLt

/-! ### The end of a command -/

/-- Completion without error: `RESULT <- 0 ; ERRINFO <- 0` (R120 step 4). -/
def State.succeed (s : State) : State := { s with result := none, errinfo := 0#32 }

/-- Error entry, `raise E(info)`: `RESULT <- code(E) ; ESTICKY[code(E)] <- 1 ; ERRINFO <- info` (R211). -/
def State.raise (s : State) (e : ErrorKind) (info : Word) : State :=
  { s with result := some e, esticky := s.esticky ||| e.stickyBit, errinfo := info }

/-- The end of a command: completion, or the error entry of the error raised (R120, R211). Either is a next state; nothing
is saved and nothing has to be returned from (R212). -/
def Run.settle (r : Run State) : Host.Outcome State Fault Refusal :=
  match r with
  | .ok s => .next s.succeed
  | .raised s e info => .next (s.raise e info)

/-- Going on after a piece of a command's work; a raise ends the command at that point (R120 step 3). -/
def Run.andThen {σ τ : Type} (r : Run σ) (f : σ → Run τ) : Run τ :=
  match r with
  | .ok s => f s
  | .raised s e info => .raised s e info

/-- `for i in 0 .. n-1: body(i)`, in ascending order, ended by the first raise (R11). -/
def forRange {σ : Type} (body : Nat → σ → Run σ) (n : Nat) (s : σ) : Run σ :=
  match n with
  | 0 => .ok s
  | n + 1 => (forRange body n s).andThen (body n)

end Sys2Proof.Machine
end

