-- ==== Sys2Proof/Machine/Operands.lean ====
section
/-! DEFINITION. The operands of the commands, all implicit (R102): the checks of a length register against a capacity, the
place of a payload bit (R75), and the words the host port reads (R41, R44, R45, R22). -/

namespace Sys2Proof.Machine

/-! ### Length registers against capacities -/

/-- `SYMLEN > SYM_CAP` (R130, R170). -/
def State.symTooLong (s : State) : Bool := decide (s.caps.symCap < s.symlen.toNat)

/-- `BITLEN > 8 × BIT_CAP` (R185). -/
def State.bitTooLong (s : State) : Bool := decide (s.caps.payloadBits < s.bitlen.toNat)

/-! ### The place of a payload bit -/

/-- The BITBUF index of payload bit `n`: `n div 8` (R75). -/
def payloadByte (n : Nat) : Nat := n / 8

/-- The bit of that byte: `7 - (n mod 8)`, most significant bit first (R75). -/
def payloadBit (n : Nat) : Nat := 7 - n % 8

/-- `get_bit(b)` (R186). -/
def State.getBit (s : State) (b : Nat) : Bool := (s.bitByte (payloadByte b)).getLsbD (payloadBit b)

/-! ### Packed words -/

/-- The frequency of a node record (R40). -/
def Node.freq (n : Node) : NodeFreq :=
  match n with
  | .leaf _ f => f
  | .internal f _ _ => f

/-- The packed form of a node record (R41): kind 63, right 57:49, left 48:40 or sym 47:40, freq 39:0. -/
def Node.word (n : Node) : BitVec 64 :=
  match n with
  | .leaf sym f => 0#16 ++ sym ++ f
  | .internal f l r => 1#1 ++ 0#5 ++ NodeIx.toBits r ++ NodeIx.toBits l ++ f

/-- A word of CODELEN (R44): valid in bit 15, len in bits 8:0. -/
def codelenWord (e : Option BitString) : BitVec 16 :=
  match e with
  | none => 0#16
  | some p => 1#1 ++ 0#6 ++ BitVec.ofNat 9 p.length

/-- The 256-bit word that holds `p` left-aligned from bit `255 - k` down (R45). -/
def alignedBits (k : Nat) (p : BitString) : BitVec 256 :=
  match p with
  | [] => 0#256
  | b :: p => (if b then BitVec.twoPow 256 (255 - k) else 0#256) ||| alignedBits (k + 1) p

/-- A word of CODEBITS (R45): bit `255 - j` is bit j of the code. -/
def codebitsWord (e : Option BitString) : BitVec 256 :=
  match e with
  | none => 0#256
  | some p => alignedBits 0 p

/-! ### Spaces and registers by number -/

/-- The address space of a space number; numbers 8 to 15 do not exist (R70). -/
def Space.ofNumber (n : BitVec 4) : Option Space :=
  match n.toNat with
  | 0 => some .reg
  | 1 => some .symbuf
  | 2 => some .bitbuf
  | 3 => some .outbuf
  | 4 => some .freq
  | 5 => some .node
  | 6 => some .codelen
  | 7 => some .codebits
  | _ => none

/-- The register of an index of REG; index 15 and above do not exist (R22). -/
def Reg.ofIndex (i : BitVec 28) : Option Reg :=
  match i.toNat with
  | 0 => some .id
  | 1 => some .cmd
  | 2 => some .status
  | 3 => some .esticky
  | 4 => some .errinfo
  | 5 => some .symlen
  | 6 => some .bitlen
  | 7 => some .outlen
  | 8 => some .nsym
  | 9 => some .nodecnt
  | 10 => some .root
  | 11 => some .cursor
  | 12 => some .symcap
  | 13 => some .bitcap
  | 14 => some .outcap
  | _ => none

/-- The 32-bit word a host read of a register returns (R22 to R35, R71): CMD reads 0, a narrower register reads
zero-extended. -/
def State.readReg (s : State) (r : Reg) : Word :=
  match r with
  | .id => Config.idValue
  | .cmd => 0#32
  | .status => s.status
  | .esticky => s.esticky.setWidth 32
  | .errinfo => s.errinfo
  | .symlen => s.symlen
  | .bitlen => s.bitlen
  | .outlen => s.outlen
  | .nsym => s.nsym.setWidth 32
  | .nodecnt => s.nodecnt.setWidth 32
  | .root => (NodeIx.toBits s.root).setWidth 32
  | .cursor => (NodeIx.toBits s.cursor).setWidth 32
  | .symcap => BitVec.ofNat 32 s.caps.symCap
  | .bitcap => BitVec.ofNat 32 s.caps.bitCap
  | .outcap => BitVec.ofNat 32 s.caps.outCap

/-- The symbol value an index of FREQ, CODELEN or CODEBITS names (R70: 256 words). -/
def symbolOfIndex (i : BitVec 28) : Option Byte :=
  if i.toNat < 256 then some (i.setWidth 8) else none

end Sys2Proof.Machine
end

