-- ==== Sys2Proof/Machine/Builder.lean ====
section
/-! DEFINITION. The Tree Builder, the priority-queue merge engine: BUILD (R140 to R150). -/

namespace Sys2Proof.Machine

/-- The work of a BUILD: the arena, the queue and the next free arena index (R140). -/
structure Forest where
  node : Arena
  inq  : List NodeIx
  next : Nat
  deriving DecidableEq, Repr

/-- A node record written at the next free index and inserted into the queue (R141, R144). -/
def Forest.insert (f : Forest) (n : Node) : Forest :=
  { node := f.node.put (NodeIx.ofNumber f.next) n
    inq := f.inq ++ [NodeIx.ofNumber f.next]
    next := f.next + 1 }

/-- One round of the loop of leaf_init: a leaf for the symbol `c` if its count is not 0 (R141). -/
def leafStep (freq : FreqTable) (f : Forest) (c : Byte) : Forest :=
  if freq.at c = 0#32 then f else f.insert (.leaf c ((freq.at c).setWidth 40))

/-- The 256 symbol values in ascending order. -/
def allSymbols : List Byte := (List.range 256).map (BitVec.ofNat 8)

/-- leaf_init: a leaf for every symbol in the table, in ascending symbol value; the field `next` is the leaf count k (R141). -/
def leafInit (freq : FreqTable) (node : Arena) : Forest :=
  allSymbols.foldl (leafStep freq) { node := node, inq := [], next := 0 }

/-- The key order: node i precedes node j (R142). -/
def precedes (a : Arena) (i j : NodeIx) : Bool :=
  decide ((a.at i).freq < (a.at j).freq) || ((a.at i).freq == (a.at j).freq && decide (i < j))

/-- The element of `m :: q` that precedes every other (R143). -/
def minOf (a : Arena) (m : NodeIx) (q : List NodeIx) : NodeIx :=
  match q with
  | [] => m
  | x :: q => minOf a (if precedes a x m then x else m) q

/-- `extract_min()`: the minimum of the queue and the queue without it; `none` for an empty queue (R143). -/
def extractMin (a : Arena) (q : List NodeIx) : Option (NodeIx × List NodeIx) :=
  match q with
  | [] => none
  | x :: q => some (minOf a x q, (x :: q).erase (minOf a x q))

/-- `merge_step(n)`: the two lowest nodes under a new internal node, the first extracted on the left (R144). A queue of fewer
than two elements, on which it is never called, stays as it is. -/
def mergeStep (f : Forest) : Forest :=
  match extractMin f.node f.inq with
  | none => f
  | some (a, q) =>
    match extractMin f.node q with
    | none => f
    | some (b, q) =>
      Forest.insert { f with inq := q } (.internal ((f.node.at a).freq + (f.node.at b).freq) a b)

/-- `while |INQ| > 1: n <- merge_step(n)` (R140), for at most `fuel` rounds; each lowers |INQ| by one (R144), so the leaf
count is fuel enough (R145). -/
def mergeLoop (fuel : Nat) (f : Forest) : Forest :=
  match fuel with
  | 0 => f
  | fuel + 1 => if 1 < f.inq.length then mergeLoop fuel (mergeStep f) else f

/-- The first two lines of the body of BUILD: "the old tree is gone from here on" (R140). -/
def State.withoutTree (s : State) : State :=
  { s with tv := false, nsym := 0#9, nodecnt := 0#10, root := 0, inq := [] }

/-- The tree that the work of a BUILD leaves, with k leaves: the last lines of the body (R140, R145). -/
def State.withTree (s : State) (k : Nat) (f : Forest) : State :=
  { s with
    node := f.node
    inq := f.inq
    root := f.inq.headD 0
    nsym := BitVec.ofNat 9 k
    nodecnt := BitVec.ofNat 10 f.next
    tv := true }

/-- The forest at the end of the loop of BUILD (R140). -/
def buildForest (freq : FreqTable) (node : Arena) : Forest :=
  mergeLoop (leafInit freq node).next (leafInit freq node)

/-- BUILD (R140): no precheck; EmptyInputError after the old tree is gone (R146). -/
def execBuild (s : State) : Host.Outcome State Fault Refusal :=
  Run.settle
    (if (leafInit s.freq s.node).next = 0 then .raised s.withoutTree .emptyInput 0#32
     else .ok (s.withoutTree.withTree (leafInit s.freq s.node).next (buildForest s.freq s.node)))

end Sys2Proof.Machine
end

