-- ==== Sys2Proof/Machine/Control.lean ====
section
/-! DEFINITION. The commands that belong to no unit: NOP (R121) and CLEAR (R122). -/

namespace Sys2Proof.Machine

/-- NOP: an empty body (R121). -/
def execNop (s : State) : Host.Outcome State Fault Refusal := Run.settle (.ok s)

/-- The body of CLEAR (R122). The contents of SYMBUF, BITBUF, OUTBUF and NODE stay (R79, R233). -/
def State.cleared (s : State) : State :=
  { s with
    tv := false
    nsym := 0#9
    nodecnt := 0#10
    root := 0
    cursor := 0
    symlen := 0#32
    bitlen := 0#32
    outlen := 0#32
    esticky := 0#8
    freq := FreqTable.empty
    code := CodeTable.empty
    inq := [] }

/-- CLEAR (R122). -/
def execClear (s : State) : Host.Outcome State Fault Refusal := Run.settle (.ok s.cleared)

end Sys2Proof.Machine
end

