-- ==== Sys2Proof/Machine/Counter.lean ====
section
/-! DEFINITION. The Frequency Counter: COUNT (R130 to R132). -/

namespace Sys2Proof.Machine

/-- `count_step` on the symbol `c`: `FREQ[c] <- FREQ[c] + 1` (R131). -/
def countStep (f : FreqTable) (c : Byte) : FreqTable := f.put c (f.at c + 1#32)

/-- The table after the loop of R130 over the symbols `cs`, from the cleared table. -/
def countAll (cs : List Byte) : FreqTable := cs.foldl countStep FreqTable.empty

/-- The input byte sequence: `SYMBUF[0], ..., SYMBUF[SYMLEN-1]` (R28). -/
def State.input (s : State) : List Byte := (List.range s.symlen.toNat).map s.symByte

/-- COUNT: the precheck, then the body (R130). -/
def execCount (s : State) : Host.Outcome State Fault Refusal :=
  Run.settle
    (if s.symTooLong then .raised s .capacity s.symlen
     else .ok { s with freq := countAll s.input })

end Sys2Proof.Machine
end

