-- ==== Sys2Proof/Machine/Decoder.lean ====
section
/-! DEFINITION. The Decoder, a tree-walk accumulator with a leaf detector: DECODE (R185 to R194). -/

namespace Sys2Proof.Machine

/-- The work of a DECODE: the cursor cur and the state (R185). -/
structure Walker where
  cur : NodeIx
  st  : State
  deriving DecidableEq, Repr

/-- `stop(E, info)`: CURSOR records the cursor, then the error is raised (R185). -/
def Walker.stop (w : Walker) (e : ErrorKind) (info : Word) : Run Walker :=
  .raised { w.st with cursor := w.cur } e info

/-- `emit(t, b)` (R189). -/
def Walker.emit (w : Walker) (t : Byte) (b : Nat) : Run Walker :=
  if w.st.outlen.toNat = w.st.caps.outCap then w.stop .capacity (BitVec.ofNat 32 b)
  else
    .ok { w with
      st := { w.st with
        outbuf := Memory.put w.st.outbuf w.st.outlen.toNat t
        outlen := w.st.outlen + 1#32 } }

/-- The cursor back at the root after a symbol was emitted (R187). -/
def Walker.toRoot (w : Walker) : Walker := { w with cur := w.st.root }

/-- `dec_bit_step(b)`: the cursor on an internal node (R187), or on a leaf (R188). -/
def decBitStep (b : Nat) (w : Walker) : Run Walker :=
  match w.st.node.at w.cur with
  | .internal _ l r =>
    let next := if w.st.getBit b then r else l
    match w.st.node.at next with
    | .leaf t _ => (Walker.emit { w with cur := next } t b).andThen (fun w => .ok w.toRoot)
    | .internal _ _ _ => .ok { w with cur := next }
  | .leaf t _ =>
    if w.st.getBit b then w.stop .malformedStream (BitVec.ofNat 32 b) else w.emit t b

/-- The last two lines of the body: CURSOR records the cursor, and a cursor away from the root is an error (R185, R190). -/
def Walker.finish (w : Walker) : Run State :=
  if w.cur = w.st.root then .ok { w.st with cursor := w.cur }
  else .raised { w.st with cursor := w.cur } .malformedStream w.st.bitlen

/-- The body of DECODE (R185). -/
def decodeBody (s : State) : Run State :=
  (forRange decBitStep s.bitlen.toNat { cur := s.root, st := { s with outlen := 0#32 } }).andThen Walker.finish

/-- DECODE: the two prechecks in their order, then the body (R185). -/
def execDecode (s : State) : Host.Outcome State Fault Refusal :=
  Run.settle
    (if s.tv then
      if s.bitTooLong then .raised s .capacity s.bitlen else decodeBody s
     else .raised s .noTree 0#32)

end Sys2Proof.Machine
end

