-- ==== Sys2Proof/Machine/Encoder.lean ====
section
/-! DEFINITION. The Encoder, a code lookup and a bit packer: ENCODE (R170 to R176). -/

namespace Sys2Proof.Machine

/-- The byte `v << (7 - r)` of one payload bit (R172). -/
def bitInByte (v : Bool) (n : Nat) : Byte := (if v then 1#8 else 0#8) <<< payloadBit n

/-- `pack_bit(v)` (R172): a fresh byte starts as zero, most significant bit first. -/
def packBit (s : State) (v : Bool) : State :=
  let n := s.bitlen.toNat
  let old := if n % 8 = 0 then 0#8 else s.bitByte (payloadByte n)
  { s with
    bitbuf := Memory.put s.bitbuf (payloadByte n) (old ||| bitInByte v n)
    bitlen := s.bitlen + 1#32 }

/-- `enc_sym_step(i)` (R171): the two checks, in that order and before any bit is packed, then the code. -/
def encSymStep (i : Nat) (s : State) : Run State :=
  match s.code.at (s.symByte i) with
  | none => .raised s .missingCode (BitVec.ofNat 32 i)
  | some p =>
    if s.caps.payloadBits < s.bitlen.toNat + p.length then .raised s .capacity (BitVec.ofNat 32 i)
    else .ok (p.foldl packBit s)

/-- ENCODE: the precheck, then the body (R170). -/
def execEncode (s : State) : Host.Outcome State Fault Refusal :=
  Run.settle
    (if s.symTooLong then .raised s .capacity s.symlen
     else forRange encSymStep s.symlen.toNat { s with bitlen := 0#32 })

end Sys2Proof.Machine
end

