-- ==== Sys2Proof/Machine/Generator.lean ====
section
/-! DEFINITION. The Code Table Generator, a tree traversal with path encoding: GENCODE (R160 to R166). -/

namespace Sys2Proof.Machine

/-- `walk(i, p)` (R161), to at most `fuel` levels below the node `i`: both children of an internal node have smaller indices
than the node (R42 c), so 511 levels are enough for every tree. -/
def walk (fuel : Nat) (a : Arena) (i : NodeIx) (p : BitString) (t : CodeTable) : CodeTable :=
  match fuel with
  | 0 => t
  | fuel + 1 =>
    match a.at i with
    | .leaf c _ => t.put c p
    | .internal _ l r => walk fuel a r (p ++ [true]) (walk fuel a l (p ++ [false]) t)

/-- The code table of the tree with root `root` in the arena `a` (R160): a lone leaf gets the code "0" (R162). -/
def codesOf (a : Arena) (root : NodeIx) : CodeTable :=
  match a.at root with
  | .leaf c _ => CodeTable.empty.put c [false]
  | .internal _ _ _ => walk 511 a root [] CodeTable.empty

/-- GENCODE (R160): the old table is discarded; with no tree the table stays empty (R163). -/
def execGencode (s : State) : Host.Outcome State Fault Refusal :=
  Run.settle (.ok { s with code := if s.tv then codesOf s.node s.root else CodeTable.empty })

end Sys2Proof.Machine
end

