-- ==== Sys2Proof/Machine/HostPort.lean ====
section
/-! DEFINITION. The host port: HostRead (R71), HostWrite (R72), access errors (R73) and the reset event (R230). -/

namespace Sys2Proof.Machine

/-- The word a `HostRead` returns, zero-extended to the port; `none` is AccessError (R71, R73). -/
def hostRead (s : State) (space : BitVec 4) (index : BitVec 28) : Option PortWord :=
  match Space.ofNumber space with
  | none => none
  | some .reg => (Reg.ofIndex index).map (fun r => (s.readReg r).setWidth 256)
  | some .symbuf => if index.toNat < s.caps.symCap then some ((s.symByte index.toNat).setWidth 256) else none
  | some .bitbuf => if index.toNat < s.caps.bitCap then some ((s.bitByte index.toNat).setWidth 256) else none
  | some .outbuf =>
    if index.toNat < s.caps.outCap ∧ index.toNat < s.outlen.toNat
    then some ((s.outByte index.toNat).setWidth 256) else none
  | some .freq => (symbolOfIndex index).map (fun c => (s.freq.at c).setWidth 256)
  | some .node =>
    if index.toNat < 511 ∧ index.toNat < s.nodecnt.toNat
    then some ((s.node.at (NodeIx.ofNumber index.toNat)).word.setWidth 256) else none
  | some .codelen => (symbolOfIndex index).map (fun c => (codelenWord (s.code.at c)).setWidth 256)
  | some .codebits => (symbolOfIndex index).map (fun c => codebitsWord (s.code.at c))

/-- The state in which the port has answered `r` (R71 to R73). -/
def State.answer (s : State) (r : Response) : State := { s with port := some r }

/-- The command envelope (R120): the word of a CMD write is decoded; an illegal word raises IllegalCommandError(word); a
legal one runs its command. -/
def runCommand (w : Word) (s : State) : Host.Outcome State Fault Refusal :=
  match decodeCommand w with
  | .ok i => exec i s
  | .error (.illegalCommand w) => Run.settle (.raised s .illegalCommand w)

/-- A write to a register that accepts writes (R72, R22); `none` is AccessError: the register is read-only (R73 c). -/
def writeReg (r : Reg) (v : Word) (s : State) : Option (Host.Outcome State Fault Refusal) :=
  match r with
  | .cmd => some (runCommand v s)
  | .esticky => some (.next { s with esticky := stickyCleared s.esticky v })
  | .symlen => some (.next { s with symlen := v })
  | .bitlen => some (.next { s with bitlen := v })
  | .id => none
  | .status => none
  | .errinfo => none
  | .outlen => none
  | .nsym => none
  | .nodecnt => none
  | .root => none
  | .cursor => none
  | .symcap => none
  | .bitcap => none
  | .outcap => none

/-- The effect of a `HostWrite`, the value truncated to the word of the space; `none` is AccessError (R72, R73). -/
def hostWrite (s : State) (space : BitVec 4) (index : BitVec 28) (v : PortWord) :
    Option (Host.Outcome State Fault Refusal) :=
  match Space.ofNumber space with
  | none => none
  | some .reg => (Reg.ofIndex index).bind (fun r => writeReg r (v.setWidth 32) s)
  | some .symbuf =>
    if index.toNat < s.caps.symCap
    then some (.next { s with symbuf := Memory.put s.symbuf index.toNat (v.setWidth 8) }) else none
  | some .bitbuf =>
    if index.toNat < s.caps.bitCap
    then some (.next { s with bitbuf := Memory.put s.bitbuf index.toNat (v.setWidth 8) }) else none
  | some .outbuf => none
  | some .freq =>
    (symbolOfIndex index).map (fun c => .next { s with freq := s.freq.put c (v.setWidth 32) })
  | some .node => none
  | some .codelen => none
  | some .codebits => none

/-- The port's answer to a read: the data, or AccessError; nothing else changes (R71). -/
def serveRead (s : State) (space : BitVec 4) (index : BitVec 28) : Host.Outcome State Fault Refusal :=
  match hostRead s space index with
  | some v => .next (s.answer (.data v))
  | none => .next (s.answer .accessError)

/-- The port's answer to a write: `Ok` and the effect, whatever the result of a command; or AccessError and no effect (R72,
R73). -/
def serveWrite (s : State) (space : BitVec 4) (index : BitVec 28) (v : PortWord) :
    Host.Outcome State Fault Refusal :=
  match hostWrite (s.answer .ok) space index v with
  | some o => o
  | none => .next (s.answer .accessError)

/-- One transaction, or the reset event, run to its end (R8, R80, R230). -/
def serve (t : Txn) (s : State) : Host.Outcome State Fault Refusal :=
  match t with
  | .read space index => serveRead s space index
  | .write space index v => serveWrite s space index v
  | .reset => .next (State.resetWith s.caps (s.resets + 1) s.host)

/-- The next transaction the host presents is accepted (R80); with none the block is idle and holds all its state (R220,
R246). -/
def serveNext (s : State) : Host.Outcome State Fault Refusal :=
  match s.host with
  | [] => .next s
  | t :: rest => serve t { s with host := rest }

/-- The write of a command word to the CMD register (R24, R101). -/
def cmdWrite (w : Word) : Txn := .write 0#4 1#28 (w.setWidth 256)

/-- The host presents one more transaction, before those it has yet to present. -/
def State.presented (s : State) (t : Txn) : State := { s with host := t :: s.host }

end Sys2Proof.Machine
end

