-- ==== Sys2Proof/Machine/Step.lean ====
section
/-! DEFINITION. One step of the machine: one host transaction or reset (R8), and the placing of a command word where the
next step takes it. -/

namespace Sys2Proof.Machine

/-- One step (R8). -/
def step (s : State) : Host.Outcome State Fault Refusal := serveNext s

/-- The state whose next step runs the command word `w`: the host's next transaction is the write of it to CMD. HUFFCORE
fetches nothing (R37, R82): "each command is the data of a host write to CMD". -/
def State.withFetchWord (s : State) (nbits w : Nat) : State := s.presented (cmdWrite (tableWord nbits w))

end Sys2Proof.Machine
end

