-- ==== Sys2Proof/Safety.lean ====
section
/-! DEFINITION. The terms in which claims about HUFFCORE are stated: the tree of R42, the paths and codewords of a tree,
the payload (R75) and the decoded sequence (R48), the invariants of the state, and a safe run (R221). -/

namespace Sys2Proof.Machine

/-! ### The tree -/

/-- `NODE[i]` by number (R40). -/
def Arena.nth (a : Arena) (i : Nat) : Node := a.at (NodeIx.ofNumber i)

/-- `i` is a child of the record `n`. -/
def Node.hasChild (n : Node) (i : NodeIx) : Bool :=
  match n with
  | .leaf _ _ => false
  | .internal _ l r => l == i || r == i

/-- The sum of the counts of the leaf descendants of a node, a leaf counting as its own (R42 f), to `fuel` levels. -/
def leafSum (fuel : Nat) (a : Arena) (i : NodeIx) : Nat :=
  match fuel with
  | 0 => 0
  | fuel + 1 =>
    match a.at i with
    | .leaf _ f => f.toNat
    | .internal _ l r => leafSum fuel a l + leafSum fuel a r

/-- The tree invariants of R42 for an arena whose first `2k - 1` entries hold a tree of `k` leaves. -/
structure TreeShape (a : Arena) (k : Nat) : Prop where
  /-- A tree has 1 to 256 leaves (R31). -/
  size : 1 ≤ k ∧ k ≤ 256
  /-- Entries 0 to k-1 are leaves (R42 b), each with a count between 1 and 2^32 - 1 (R42 g). -/
  leaves : ∀ i, i < k → ∃ c f, a.nth i = .leaf c f ∧ 1 ≤ f.toNat ∧ f.toNat ≤ 2 ^ 32 - 1
  /-- Their symbols are strictly ascending with the index (R42 b). -/
  ascending : ∀ i j c d f g, i < j → j < k → a.nth i = .leaf c f → a.nth j = .leaf d g → c < d
  /-- Entries k to 2k-2 are internal nodes with two different children of smaller index (R42 c, e). -/
  internals : ∀ i, k ≤ i → i < 2 * k - 1 →
    ∃ f l r, a.nth i = .internal f l r ∧ l.val < i ∧ r.val < i ∧ l ≠ r
  /-- Every entry except the root is the child of exactly one internal node (R42 d). -/
  oneParent : ∀ j : NodeIx, j.val < 2 * k - 2 →
    ∃ i, k ≤ i ∧ i < 2 * k - 1 ∧ (a.nth i).hasChild j = true ∧
      ∀ m, k ≤ m → m < 2 * k - 1 → (a.nth m).hasChild j = true → m = i
  /-- The root is the child of none (R42 d). -/
  rootFree : ∀ i j, k ≤ i → i < 2 * k - 1 → (a.nth i).hasChild j = true → j.val < 2 * k - 2
  /-- A node's frequency is the sum of its leaf descendants' frequencies (R42 f). -/
  sums : ∀ i, i < 2 * k - 1 → (a.nth i).freq.toNat = leafSum 511 a (NodeIx.ofNumber i)

/-- Node `j` is in the queue when the internal node `i` is made, in an arena with `k` leaves: it is there already, and no
internal node made before `i` has taken it as a child (R141, R144). -/
def Arena.queued (a : Arena) (k i : Nat) (j : NodeIx) : Prop :=
  j.val < i ∧ ∀ m, k ≤ m → m < i → (a.nth m).hasChild j = false

/-! ### Paths and codewords -/

/-- The node the path `p` leads to from node `i`, left on 0 and right on 1; `none` if it would move past a leaf (R105, R187). -/
def descend (a : Arena) (i : NodeIx) (p : BitString) : Option NodeIx :=
  match p with
  | [] => some i
  | b :: p =>
    match a.at i with
    | .leaf _ _ => none
    | .internal _ l r => descend a (if b then r else l) p

/-- The path `p` leads from node `i` to the leaf of symbol `c`. -/
def leadsToLeaf (a : Arena) (i : NodeIx) (p : BitString) (c : Byte) : Prop :=
  ∃ j f, descend a i p = some j ∧ a.at j = .leaf c f

/-- `p` is the code of the symbol `c` in the tree with root `root`: the path from an internal root to the leaf of `c`
(R161), or "0" for a lone leaf (R162). -/
def codeword (a : Arena) (root : NodeIx) (c : Byte) (p : BitString) : Prop :=
  match a.at root with
  | .leaf d _ => d = c ∧ p = [false]
  | .internal _ _ _ => leadsToLeaf a root p c

/-- The bits `q` are the codes of the symbols `cs`, one after the other, in the tree with root `root`. -/
def spells (a : Arena) (root : NodeIx) (cs : List Byte) (q : BitString) : Prop :=
  match cs with
  | [] => q = []
  | c :: cs => ∃ p r, q = p ++ r ∧ codeword a root c p ∧ spells a root cs r

/-- The root is an internal node: the tree is not a lone leaf (R147). -/
def internalRoot (a : Arena) (root : NodeIx) : Prop := ∃ f l r, a.at root = .internal f l r

/-! ### Tables, payload and decoded sequence -/

/-- The symbols in the frequency table, in ascending symbol value: those with a count that is not 0 (R39). -/
def State.present (s : State) : List Byte := allSymbols.filter (fun c => s.freq.at c != 0#32)

/-- The sum of all 256 FREQ entries (R132 b, R148 d). -/
def State.freqTotal (s : State) : Nat := (allSymbols.map (fun c => (s.freq.at c).toNat)).sum

/-- The compressed payload: the first BITLEN bits of BITBUF in the order of R75. -/
def State.payload (s : State) : BitString := (List.range s.bitlen.toNat).map s.getBit

/-- The decoded byte sequence: OUTBUF[0], ..., OUTBUF[OUTLEN-1] (R30). -/
def State.output (s : State) : List Byte := (List.range s.outlen.toNat).map s.outByte

/-- The code of a symbol, "" where it has none (R43). -/
def State.codeBits (s : State) (c : Byte) : BitString := (s.code.at c).getD []

/-- The codes of the symbols `cs` in their order, one after the other. -/
def State.codesOf (s : State) (cs : List Byte) : BitString := cs.flatMap s.codeBits

/-- The number of bytes that hold `n` payload bits: `ceil(n / 8)` (R75). -/
def bytesFor (n : Nat) : Nat := (n + 7) / 8

/-! ### Access errors -/

/-- The number of words of the space with number `n` (R70); a space that does not exist has none. -/
def State.spaceWords (s : State) (n : BitVec 4) : Nat :=
  match n.toNat with
  | 0 => 15
  | 1 => s.caps.symCap
  | 2 => s.caps.bitCap
  | 3 => s.caps.outCap
  | 4 => 256
  | 5 => 511
  | 6 => 256
  | 7 => 256
  | _ => 0

/-- The cases of R73 in which a read is an access error: (a) no such space, (b) no such index, (d) NODE at or above NODECNT,
(e) OUTBUF at or above OUTLEN. -/
def State.readRefused (s : State) (space : BitVec 4) (index : BitVec 28) : Prop :=
  8 ≤ space.toNat ∨ s.spaceWords space ≤ index.toNat ∨
    (space = 5#4 ∧ s.nodecnt.toNat ≤ index.toNat) ∨ (space = 3#4 ∧ s.outlen.toNat ≤ index.toNat)

/-- The cases of R73 in which a write is an access error: (a) no such space, (b) no such index, (c) a read-only target: a
register other than CMD, ESTICKY, SYMLEN and BITLEN, or any index of OUTBUF, NODE, CODELEN, CODEBITS. -/
def State.writeRefused (s : State) (space : BitVec 4) (index : BitVec 28) : Prop :=
  8 ≤ space.toNat ∨ s.spaceWords space ≤ index.toNat ∨
    (space = 0#4 ∧ index.toNat ≠ 1 ∧ index.toNat ≠ 3 ∧ index.toNat ≠ 5 ∧ index.toNat ≠ 6) ∨
    space = 3#4 ∨ space = 5#4 ∨ space = 6#4 ∨ space = 7#4

/-! ### Invariants -/

/-- The capacities meet the constraints of R6. -/
def State.capsOk (s : State) : Prop := s.caps.wf = true

/-- A buffer is in canonical form and lists no index at or above its capacity (R46, R47, R48). -/
def Memory.within (m : Memory) (cap : Nat) : Prop := Memory.wf m ∧ ∀ x ∈ m, x.1 < cap

/-- The three buffers. -/
def State.buffersOk (s : State) : Prop :=
  Memory.within s.symbuf s.caps.symCap ∧ Memory.within s.bitbuf s.caps.bitCap ∧
    Memory.within s.outbuf s.caps.outCap

/-- ESTICKY bits 0 and 7 are 0 (R26), OUTLEN is at most OUT_CAP (R30), and every byte of OUTBUF that a host can read has
been written (R73 e). -/
def State.registersOk (s : State) : Prop :=
  s.esticky.getLsbD 0 = false ∧ s.esticky.getLsbD 7 = false ∧ s.outlen.toNat ≤ s.caps.outCap ∧
    ∀ i, i < s.outlen.toNat → (Memory.find? s.outbuf i).isSome

/-- While TV = 1 the registers and the arena hold a tree (R31 to R33, R42, R145); while TV = 0 they hold none. -/
def State.treeOk (s : State) : Prop :=
  if s.tv then
    s.nodecnt.toNat = 2 * s.nsym.toNat - 1 ∧ s.root.val = 2 * s.nsym.toNat - 2 ∧
      TreeShape s.node s.nsym.toNat ∧ s.inq = [s.root]
  else s.nsym = 0#9 ∧ s.nodecnt = 0#10 ∧ s.root = 0 ∧ s.inq = []

/-- Every code has 1 to 255 bits (R43, R164 b), and no code is a prefix of the code of another symbol (R164 c). -/
def State.codesOk (s : State) : Prop :=
  (∀ c p, s.code.at c = some p → 1 ≤ p.length ∧ p.length ≤ 255) ∧
    ∀ c d p q, c ≠ d → s.code.at c = some p → s.code.at d = some q → ¬ p <+: q

/-- "No error occurred", the safety property of R221: ESTICKY = 0. -/
def State.noError (s : State) : Prop := s.esticky = 0#8

/-- The transaction that the next step takes is a write to CMD of the command `i` (R24). -/
def State.commandNext (s : State) (i : Instr) : Prop :=
  ∃ v rest, s.host = .write 0#4 1#28 v :: rest ∧ decodeCommand (v.setWidth 32) = .ok i

/-- The next step is the reset event (R230). -/
def State.resetNext (s : State) : Prop := ∃ rest, s.host = .reset :: rest

end Sys2Proof.Machine
end

