-- ==== Sys2Proof/Certificates/Slice0/Obligations.lean ====
section
/-! DEFINITION. The statements about HUFFCORE that are to be proved. -/

open Sys2Proof Sys2Proof.Machine

/-! ### Command words -/

/-- The seven command words of R101, written out, decode to their commands; three words that R103 calls illegal are rejected
by name. -/
def Obligations.CommandWordsDecode : Prop :=
  decodeCommand 0x00000000#32 = .ok .nop ∧ decodeCommand 0x00000001#32 = .ok .clear ∧
  decodeCommand 0x00000002#32 = .ok .count ∧ decodeCommand 0x00000003#32 = .ok .build ∧
  decodeCommand 0x00000004#32 = .ok .gencode ∧ decodeCommand 0x00000005#32 = .ok .encode ∧
  decodeCommand 0x00000006#32 = .ok .decode ∧
  decodeCommand 0x00000007#32 = .error (.illegalCommand 0x00000007#32) ∧
  decodeCommand 0x00000100#32 = .error (.illegalCommand 0x00000100#32) ∧
  decodeCommand 0xFFFFFFFF#32 = .error (.illegalCommand 0xFFFFFFFF#32)

/-- A word selects a command exactly when all its 32 bits equal the match value (R101). -/
def Obligations.WordSelectsCommandExactly : Prop :=
  ∀ w : Word,
    (decodeCommand w = .ok .nop ↔ w = 0x00000000#32) ∧ (decodeCommand w = .ok .clear ↔ w = 0x00000001#32) ∧
    (decodeCommand w = .ok .count ↔ w = 0x00000002#32) ∧ (decodeCommand w = .ok .build ↔ w = 0x00000003#32) ∧
    (decodeCommand w = .ok .gencode ↔ w = 0x00000004#32) ∧ (decodeCommand w = .ok .encode ↔ w = 0x00000005#32) ∧
    (decodeCommand w = .ok .decode ↔ w = 0x00000006#32)

/-- Decoding is total: a word of format C with an opcode 0 to 6 (R100, R101) is a command, and every other word is illegal
(R103, R110). -/
def Obligations.DecodingIsTotal : Prop :=
  ∀ w : Word,
    (w.extractLsb 31 8 = 0#24 ∧ (w.extractLsb 7 0).toNat ≤ 6 ∧ ∃ i, decodeCommand w = .ok i) ∨
    (¬(w.extractLsb 31 8 = 0#24 ∧ (w.extractLsb 7 0).toNat ≤ 6) ∧ decodeCommand w = .error (.illegalCommand w))

/-- Decoding an encoded command gives it back, and a word that decodes to a command is that command's encoding. -/
def Obligations.DecodeEncodeAgree : Prop :=
  ∀ (i : Instr), i.wf = true → ∀ w : Word, decodeCommand w = .ok i ↔ w = encode i

/-! ### The step -/

/-- A step that takes a write of a command word to CMD runs the command it decodes to, on the state in which the port has
answered Ok and the transaction is consumed (R24, R72, R120). The list of transactions and the last answer are fields of the
model's own (assumption logs 4 and 5). -/
def Obligations.StepRunsDecodedCommand : Prop :=
  ∀ (s : State) (v : PortWord) (rest : List Txn) (i : Instr), decodeCommand (v.setWidth 32) = .ok i →
    step { s with host := .write 0#4 1#28 v :: rest } = exec i { s with host := rest, port := some .ok }

/-- Every transaction is accepted and completes: a step always answers a next state (R54, R221, R245), in which the
capacities are as before (R21, R35; their place in the state is the model's own, assumption log 3) and one transaction, if
there was one, has been consumed. The list of transactions, and the step of a state that has none, are the model's own
(assumption log 4). -/
def Obligations.StepAlwaysCompletes : Prop :=
  ∀ s : State, ∃ t, step s = .next t ∧ t.caps = s.caps ∧ t.host = s.host.tail

/-- A write of an illegal word to CMD changes the error registers and nothing else: RESULT = 4, ESTICKY bit 4, ERRINFO = the
word (R205). -/
def Obligations.IllegalCommandRecordsWord : Prop :=
  ∀ (s : State) (v : PortWord) (rest : List Txn), wordWf (v.setWidth 32) = false →
    step { s with host := .write 0#4 1#28 v :: rest } =
      .next { s with host := rest, port := some .ok, result := some .illegalCommand,
                     esticky := s.esticky ||| 0x10#8, errinfo := v.setWidth 32 }

/-- The command envelope (R120, R211): every command completes; it ends with RESULT = 0, ERRINFO = 0 and ESTICKY as it was
(CLEAR: zero), or with an error's RESULT and that error's bit added to ESTICKY and to no other. -/
def Obligations.EnvelopeWritesResult : Prop :=
  ∀ (i : Instr) (s : State), ∃ t, exec i s = .next t ∧
    ((t.result = none ∧ t.errinfo = 0#32 ∧ t.esticky = if i = .clear then 0#8 else s.esticky) ∨
     ∃ e, t.result = some e ∧
       ∀ n, n < 8 → t.esticky.getLsbD n = (s.esticky.getLsbD n || decide (n = (resultCode t.result).toNat)))

/-- Which command raises which error (R201 to R207). -/
def Obligations.ErrorsBelongToCommands : Prop :=
  ∀ (i : Instr) (s t : State), exec i s = .next t →
    (t.result = some .emptyInput → i = .build) ∧ (t.result = some .missingCode → i = .encode) ∧
    (t.result = some .malformedStream → i = .decode) ∧ t.result ≠ some .illegalCommand ∧
    (t.result = some .capacity → i = .count ∨ i = .encode ∨ i = .decode) ∧
    (t.result = some .noTree → i = .decode)

/-- Which state each command may change (R79): everything that its row does not list is as before, but for RESULT, ERRINFO
and ESTICKY; ENCODE leaves the bytes of BITBUF at and above ceil(BITLEN / 8), DECODE the bytes of OUTBUF at and above
OUTLEN. That CLEAR keeps the records of NODE is the model's own reading (assumption log 9). -/
def Obligations.CommandsTouchOnlyTheirRow : Prop :=
  ∀ (i : Instr) (s t : State), s.capsOk → exec i s = .next t →
    (i = .nop → t = { s with result := none, errinfo := 0#32 }) ∧
    (i = .clear →
      t.caps = s.caps ∧ t.symbuf = s.symbuf ∧ t.bitbuf = s.bitbuf ∧ t.outbuf = s.outbuf ∧ t.node = s.node ∧
        t.resets = s.resets ∧ t.host = s.host ∧ t.port = s.port) ∧
    (i = .count →
      t = { s with freq := t.freq, result := t.result, errinfo := t.errinfo, esticky := t.esticky }) ∧
    (i = .build →
      t = { s with node := t.node, nsym := t.nsym, nodecnt := t.nodecnt, root := t.root, tv := t.tv, inq := t.inq,
                   result := t.result, errinfo := t.errinfo, esticky := t.esticky }) ∧
    (i = .gencode →
      t = { s with code := t.code, result := t.result, errinfo := t.errinfo, esticky := t.esticky }) ∧
    (i = .encode →
      t = { s with bitlen := t.bitlen, bitbuf := t.bitbuf, result := t.result, errinfo := t.errinfo,
                   esticky := t.esticky } ∧
      ∀ a, bytesFor t.bitlen.toNat ≤ a → t.bitByte a = s.bitByte a) ∧
    (i = .decode →
      t = { s with outlen := t.outlen, outbuf := t.outbuf, cursor := t.cursor, result := t.result,
                   errinfo := t.errinfo, esticky := t.esticky } ∧
      ∀ a, t.outlen.toNat ≤ a → t.outByte a = s.outByte a)

/-! ### NOP and CLEAR -/

/-- NOP: word 0x00000000; writes RESULT and ERRINFO and nothing else (R121). -/
def Obligations.NopWritesOnlyResult : Prop :=
  decodeCommand 0x00000000#32 = .ok .nop ∧
  ∀ s : State, exec .nop s = .next { s with result := none, errinfo := 0#32 }

/-- CLEAR: word 0x00000001; every register, FREQ and CODE at its reset value, the three buffers as they were (R79), no entry
of NODE or OUTBUF readable; CLEAR is the only command that clears a bit of ESTICKY (R122). That the records of NODE also stay
as they were is the model's own reading (assumption log 9). -/
def Obligations.ClearResetsTables : Prop :=
  decodeCommand 0x00000001#32 = .ok .clear ∧
  (∀ s : State, ∃ t, exec .clear s = .next t ∧
    t = { s with tv := false, nsym := 0#9, nodecnt := 0#10, root := 0, cursor := 0, symlen := 0#32, bitlen := 0#32,
                 outlen := 0#32, esticky := 0#8, freq := t.freq, code := t.code, inq := [], result := none,
                 errinfo := 0#32 } ∧
    (∀ c, t.freq.at c = 0#32 ∧ t.code.at c = none) ∧
    ∀ ix, hostRead t 5#4 ix = none ∧ hostRead t 3#4 ix = none) ∧
  ∀ (i : Instr) (s t : State) (n : Nat), i ≠ .clear → exec i s = .next t → s.esticky.getLsbD n = true →
    t.esticky.getLsbD n = true

/-! ### COUNT -/

/-- COUNT with SYMLEN ≤ SYM_CAP completes; each entry of FREQ is the number of indices i < SYMLEN with SYMBUF[i] = that
symbol, and nothing else but RESULT and ERRINFO is written (R130, R131, R132 a). -/
def Obligations.CountTalliesSymbols : Prop :=
  ∀ s : State, s.capsOk → s.symlen.toNat ≤ s.caps.symCap →
    ∃ t, exec .count s = .next t ∧
      (∀ c, (t.freq.at c).toNat = ((List.range s.symlen.toNat).filter (fun i => s.symByte i == c)).length) ∧
      t = { s with freq := t.freq, result := none, errinfo := 0#32 }

/-- The table COUNT leaves sums to SYMLEN, has no entry above SYMLEN, and is empty exactly when SYMLEN = 0 (R132 b, c, d). -/
def Obligations.CountTotalIsSymlen : Prop :=
  ∀ s : State, s.capsOk → s.symlen.toNat ≤ s.caps.symCap →
    ∃ t, exec .count s = .next t ∧ t.result = none ∧ t.freqTotal = s.symlen.toNat ∧
      (∀ c, (t.freq.at c).toNat ≤ s.symlen.toNat) ∧ ((∀ c, t.freq.at c = 0#32) ↔ s.symlen = 0#32)

/-- COUNT and ENCODE with SYMLEN > SYM_CAP fail their precheck: RESULT = 5, ESTICKY bit 5, ERRINFO = SYMLEN, and nothing
else changes (R130, R170, R206). -/
def Obligations.SymlenAboveCapacityFails : Prop :=
  ∀ (i : Instr) (s : State), i = .count ∨ i = .encode → s.caps.symCap < s.symlen.toNat →
    exec i s = .next { s with result := some .capacity, esticky := s.esticky ||| 0x20#8, errinfo := s.symlen }

/-! ### BUILD -/

/-- BUILD on the empty table: EmptyInputError with ERRINFO = 0, and no tree is left (R146). -/
def Obligations.BuildOnEmptyTableFails : Prop :=
  ∀ s : State, (∀ c, s.freq.at c = 0#32) →
    exec .build s =
      .next { s with tv := false, nsym := 0#9, nodecnt := 0#10, root := 0, inq := [],
                     result := some .emptyInput, esticky := s.esticky ||| 0x02#8, errinfo := 0#32 }

/-- BUILD on a table that is not empty completes: TV = 1, NSYM = k, NODECNT = 2k - 1, ROOT = 2k - 2, INQ = {ROOT}, the first
2k - 1 entries of the arena are a tree of k leaves in the sense of R42, and FREQ and everything else but RESULT and ERRINFO
is as before (R140, R145, R148 a, b, c). -/
def Obligations.BuildMakesTree : Prop :=
  ∀ s : State, s.present ≠ [] →
    ∃ t, exec .build s = .next t ∧ t.tv = true ∧ t.nsym.toNat = s.present.length ∧
      t.nodecnt.toNat = 2 * s.present.length - 1 ∧ t.root.val = 2 * s.present.length - 2 ∧ t.inq = [t.root] ∧
      TreeShape t.node s.present.length ∧
      t = { s with node := t.node, nsym := t.nsym, nodecnt := t.nodecnt, root := t.root, tv := true, inq := t.inq,
                   result := none, errinfo := 0#32 }

/-- The leaves of the tree are arena entries 0 to k - 1: the symbols with a count that is not 0, in ascending symbol value,
each with its count zero-extended to 40 bits (R141). -/
def Obligations.BuildLeavesInSymbolOrder : Prop :=
  ∀ s : State, s.present ≠ [] →
    ∃ t, exec .build s = .next t ∧
      ∀ i (h : i < s.present.length),
        t.node.nth i = .leaf (s.present[i]) ((s.freq.at (s.present[i])).setWidth 40)

/-- Every internal node is the merge of the two nodes that come first, in the key order, among those in the queue when it is
made, the first on the left and the second on the right, with the sum of their frequencies (R142, R143, R144). -/
def Obligations.BuildMergesTheTwoLowest : Prop :=
  ∀ s : State, s.present ≠ [] →
    ∃ t, exec .build s = .next t ∧
      ∀ i, s.present.length ≤ i → i < 2 * s.present.length - 1 →
        ∃ l r, t.node.nth i = .internal ((t.node.at l).freq + (t.node.at r).freq) l r ∧ l ≠ r ∧
          t.node.queued s.present.length i l ∧ t.node.queued s.present.length i r ∧
          ∀ j, t.node.queued s.present.length i j → j ≠ l →
            precedes t.node l j = true ∧ (j ≠ r → precedes t.node r j = true)

/-- BUILD on a table with exactly one symbol returns that leaf as the root, and STATUS.LEAFROOT reads 1 (R147). -/
def Obligations.BuildOneSymbolIsLoneLeaf : Prop :=
  ∀ (s : State) (c : Byte), s.freq.at c ≠ 0#32 → (∀ d, d ≠ c → s.freq.at d = 0#32) →
    ∃ t, exec .build s = .next t ∧ t.result = none ∧ t.nsym = 1#9 ∧ t.nodecnt = 1#10 ∧ t.root = 0 ∧ t.tv = true ∧
      t.node.at 0 = .leaf c ((s.freq.at c).setWidth 40) ∧ t.leafRoot = true

/-- The root's frequency is the sum of all FREQ entries: no 40-bit addition wraps (R148 d, e). -/
def Obligations.RootFrequencyIsTotal : Prop :=
  ∀ s : State, s.present ≠ [] →
    ∃ t, exec .build s = .next t ∧ (t.node.at t.root).freq.toNat = s.freqTotal

/-- The frequencies of the internal nodes are non-decreasing in index order (R148 f). -/
def Obligations.InternalFrequenciesNondecreasing : Prop :=
  ∀ s : State, s.present ≠ [] →
    ∃ t, exec .build s = .next t ∧
      ∀ i j, s.present.length ≤ i → i ≤ j → j < 2 * s.present.length - 1 →
        (t.node.nth i).freq ≤ (t.node.nth j).freq

/-- What BUILD leaves is a function of the 256 FREQ entries alone: two states that agree on FREQ, and on nothing else, get
the same registers and the same NODE[0 .. NODECNT-1] (R150). -/
def Obligations.BuildDependsOnFreqAlone : Prop :=
  ∀ s u : State, s.freq = u.freq →
    ∃ t v, exec .build s = .next t ∧ exec .build u = .next v ∧ t.result = v.result ∧ t.tv = v.tv ∧ t.nsym = v.nsym ∧
      t.nodecnt = v.nodecnt ∧ t.root = v.root ∧ t.inq = v.inq ∧
      ∀ i, i < t.nodecnt.toNat → t.node.nth i = v.node.nth i

/-! ### GENCODE -/

/-- GENCODE with no tree clears the table and succeeds: every CODELEN word reads 0x0000 (R163). -/
def Obligations.GencodeWithoutTreeIsEmpty : Prop :=
  ∀ s : State, s.tv = false →
    ∃ t, exec .gencode s = .next t ∧ t = { s with code := t.code, result := none, errinfo := 0#32 } ∧
      (∀ c, t.code.at c = none) ∧ ∀ ix, ix.toNat < 256 → hostRead t 6#4 ix = some 0#256

/-- GENCODE on a lone leaf gives its symbol the one-bit code "0", and no other symbol a code (R162). -/
def Obligations.GencodeLoneLeafIsZero : Prop :=
  ∀ (s : State) (c : Byte) (f : NodeFreq), s.tv = true → s.node.at s.root = .leaf c f →
    ∃ t, exec .gencode s = .next t ∧ t = { s with code := t.code, result := none, errinfo := 0#32 } ∧
      t.code.at c = some [false] ∧ ∀ d, d ≠ c → t.code.at d = none

/-- GENCODE records for every symbol the path from the root to its leaf, 0 on a left and 1 on a right descent, and no other
code; it writes CODE, RESULT and ERRINFO and nothing else (R160, R161, R105). -/
def Obligations.GencodeRecordsPaths : Prop :=
  ∀ s : State, s.tv = true → s.treeOk → internalRoot s.node s.root →
    ∃ t, exec .gencode s = .next t ∧ t = { s with code := t.code, result := none, errinfo := 0#32 } ∧
      ∀ c p, t.code.at c = some p ↔ leadsToLeaf s.node s.root p c

/-- A symbol has a code exactly when it is the symbol of a leaf, and with k ≥ 2 leaves a code has 1 to k - 1 bits, with one
leaf 1 bit (R164 a, b). -/
def Obligations.CodesCoverLeavesAndAreShort : Prop :=
  ∀ s : State, s.tv = true → s.treeOk →
    ∃ t, exec .gencode s = .next t ∧
      (∀ c, (t.code.at c).isSome = true ↔ ∃ i f, i < s.nsym.toNat ∧ s.node.nth i = .leaf c f) ∧
      ∀ c p, t.code.at c = some p → 1 ≤ p.length ∧
        (2 ≤ s.nsym.toNat → p.length ≤ s.nsym.toNat - 1) ∧ (s.nsym.toNat = 1 → p.length = 1)

/-- The prefix property: "no code is a prefix of another" (R164 c). -/
def Obligations.CodesArePrefixFree : Prop :=
  ∀ s : State, s.tv = true → s.treeOk →
    ∃ t, exec .gencode s = .next t ∧
      ∀ c d p q, c ≠ d → t.code.at c = some p → t.code.at d = some q → ¬ p <+: q

/-- With two leaves or more the Kraft sum is exactly 1 (R164 d), here multiplied by 2^255. -/
def Obligations.KraftSumIsOne : Prop :=
  ∀ s : State, s.tv = true → s.treeOk → 2 ≤ s.nsym.toNat →
    ∃ t, exec .gencode s = .next t ∧
      (allSymbols.map (fun c => match t.code.at c with | none => 0 | some p => 2 ^ (255 - p.length))).sum = 2 ^ 255

/-- The table is a function of NODE[0 .. NODECNT-1], ROOT and TV alone (R165). -/
def Obligations.GencodeDependsOnTreeAlone : Prop :=
  ∀ s u : State, s.treeOk → u.treeOk → s.tv = u.tv → s.root = u.root → s.nodecnt = u.nodecnt →
    (∀ i, i < s.nodecnt.toNat → s.node.nth i = u.node.nth i) →
    ∃ t v, exec .gencode s = .next t ∧ exec .gencode u = .next v ∧ t.code = v.code

/-! ### ENCODE -/

/-- ENCODE when every input symbol has a code and the payload fits: it completes with RESULT = 0; the payload is the
concatenation of the codes in input order; BITLEN is their total length; the padding bits of the last byte are 0; bytes
above are as before; nothing else but RESULT and ERRINFO is written (R170 to R173, R75). -/
def Obligations.EncodeConcatenatesCodes : Prop :=
  ∀ s : State, s.capsOk → s.symlen.toNat ≤ s.caps.symCap →
    (∀ c, c ∈ s.input → (s.code.at c).isSome = true) → (s.codesOf s.input).length ≤ 8 * s.caps.bitCap →
    ∃ t, exec .encode s = .next t ∧ t.bitlen.toNat = (s.codesOf s.input).length ∧ t.payload = s.codesOf s.input ∧
      (∀ n, t.bitlen.toNat ≤ n → n < 8 * bytesFor t.bitlen.toNat → t.getBit n = false) ∧
      (∀ a, bytesFor t.bitlen.toNat ≤ a → t.bitByte a = s.bitByte a) ∧
      t = { s with bitlen := t.bitlen, bitbuf := t.bitbuf, result := none, errinfo := 0#32 }

/-- ENCODE at the first symbol i without a code: MissingCodeError with ERRINFO = i; the codes of symbols 0 to i - 1 are packed
and BITLEN is their total length (R203, R171, R173). -/
def Obligations.EncodeStopsAtMissingCode : Prop :=
  ∀ (s : State) (i : Nat), s.capsOk → s.symlen.toNat ≤ s.caps.symCap → i < s.symlen.toNat →
    (∀ j, j < i → (s.code.at (s.symByte j)).isSome = true) → s.code.at (s.symByte i) = none →
    (s.codesOf (s.input.take i)).length ≤ 8 * s.caps.bitCap →
    ∃ t, exec .encode s = .next t ∧ t.payload = s.codesOf (s.input.take i) ∧
      t = { s with bitlen := BitVec.ofNat 32 (s.codesOf (s.input.take i)).length, bitbuf := t.bitbuf,
                   result := some .missingCode, esticky := s.esticky ||| 0x04#8, errinfo := BitVec.ofNat 32 i } ∧
      ∀ a, bytesFor t.bitlen.toNat ≤ a → t.bitByte a = s.bitByte a

/-- ENCODE at the first symbol i whose code would pass 8 × BIT_CAP bits: CapacityError with ERRINFO = i; the codes of symbols 0
to i - 1 are packed and nothing of symbol i (R171, R173, R206). -/
def Obligations.EncodeStopsAtFullBuffer : Prop :=
  ∀ (s : State) (i : Nat), s.capsOk → s.symlen.toNat ≤ s.caps.symCap → i < s.symlen.toNat →
    (∀ j, j ≤ i → (s.code.at (s.symByte j)).isSome = true) →
    (s.codesOf (s.input.take i)).length ≤ 8 * s.caps.bitCap →
    8 * s.caps.bitCap < (s.codesOf (s.input.take (i + 1))).length →
    ∃ t, exec .encode s = .next t ∧ t.payload = s.codesOf (s.input.take i) ∧
      t = { s with bitlen := BitVec.ofNat 32 (s.codesOf (s.input.take i)).length, bitbuf := t.bitbuf,
                   result := some .capacity, esticky := s.esticky ||| 0x20#8, errinfo := BitVec.ofNat 32 i } ∧
      ∀ a, bytesFor t.bitlen.toNat ≤ a → t.bitByte a = s.bitByte a

/-- ENCODE of the empty input: BITLEN = 0, BITBUF unchanged, RESULT = 0, whatever CODE holds (R174 a). -/
def Obligations.EncodeOfEmptyInput : Prop :=
  ∀ s : State, s.symlen = 0#32 → exec .encode s = .next { s with bitlen := 0#32, result := none, errinfo := 0#32 }

/-- BITLEN and the written bytes of BITBUF are a function of SYMLEN, SYMBUF[0 .. SYMLEN-1] and CODE alone (R176). -/
def Obligations.EncodeDependsOnInputAndCode : Prop :=
  ∀ s u : State, s.capsOk → s.caps = u.caps → s.symlen = u.symlen → s.symlen.toNat ≤ s.caps.symCap → s.code = u.code →
    (∀ i, i < s.symlen.toNat → s.symByte i = u.symByte i) →
    ∃ t v, exec .encode s = .next t ∧ exec .encode u = .next v ∧ t.result = v.result ∧ t.errinfo = v.errinfo ∧
      t.bitlen = v.bitlen ∧ ∀ a, a < bytesFor t.bitlen.toNat → t.bitByte a = v.bitByte a

/-! ### DECODE -/

/-- DECODE with no tree: NoTreeError with ERRINFO = 0, whatever BITLEN is; nothing else changes. GENCODE with no tree is no
error (R207). -/
def Obligations.DecodeWithoutTreeFails : Prop :=
  ∀ s : State, s.tv = false →
    exec .decode s = .next { s with result := some .noTree, esticky := s.esticky ||| 0x40#8, errinfo := 0#32 } ∧
    ∃ t, exec .gencode s = .next t ∧ t.result = none

/-- DECODE with a tree and BITLEN > 8 × BIT_CAP: CapacityError with ERRINFO = BITLEN; OUTLEN, OUTBUF and CURSOR unchanged
(R185, R206). -/
def Obligations.BitlenAboveCapacityFails : Prop :=
  ∀ s : State, s.tv = true → 8 * s.caps.bitCap < s.bitlen.toNat →
    exec .decode s = .next { s with result := some .capacity, esticky := s.esticky ||| 0x20#8, errinfo := s.bitlen }

/-- DECODE of a payload that is the codes of the symbols cs, at most OUT_CAP of them: it completes with RESULT = 0, OUTBUF
holds cs and OUTLEN counts them, CURSOR = ROOT, and nothing else but RESULT and ERRINFO is written (R185 to R189, R191). -/
def Obligations.DecodeEmitsSpelledSymbols : Prop :=
  ∀ (s : State) (cs : List Byte), s.capsOk → s.tv = true → s.treeOk → s.bitlen.toNat ≤ 8 * s.caps.bitCap →
    spells s.node s.root cs s.payload → cs.length ≤ s.caps.outCap →
    ∃ t, exec .decode s = .next t ∧ t.output = cs ∧
      t = { s with outlen := BitVec.ofNat 32 cs.length, outbuf := t.outbuf, cursor := s.root, result := none,
                   errinfo := 0#32 } ∧
      ∀ a, cs.length ≤ a → t.outByte a = s.outByte a

/-- The converse: a DECODE that ends with RESULT = 0 has decoded a payload that is exactly the codes of the symbols it left
in OUTBUF (R213). -/
def Obligations.DecodeSuccessIsSpelled : Prop :=
  ∀ s : State, s.capsOk → s.tv = true → s.treeOk → s.bitlen.toNat ≤ 8 * s.caps.bitCap →
    ∃ t, exec .decode s = .next t ∧
      (t.result = none → spells s.node s.root t.output s.payload ∧ t.cursor = s.root)

/-- DECODE of a payload that ends inside a code, after the codes of cs: MalformedStreamError with ERRINFO = BITLEN; OUTBUF
holds cs; CURSOR is the internal node reached (R190, R191, R204). -/
def Obligations.DecodeEndingMidCodeFails : Prop :=
  ∀ (s : State) (cs : List Byte) (p q : BitString) (j : NodeIx), s.capsOk → s.tv = true → s.treeOk →
    s.bitlen.toNat ≤ 8 * s.caps.bitCap → internalRoot s.node s.root → cs.length ≤ s.caps.outCap →
    s.payload = p ++ q → spells s.node s.root cs p → q ≠ [] → descend s.node s.root q = some j →
    internalRoot s.node j →
    ∃ t, exec .decode s = .next t ∧ t.output = cs ∧
      t = { s with outlen := BitVec.ofNat 32 cs.length, outbuf := t.outbuf, cursor := j,
                   result := some .malformedStream, esticky := s.esticky ||| 0x08#8, errinfo := s.bitlen } ∧
      ∀ a, cs.length ≤ a → t.outByte a = s.outByte a

/-- DECODE with a lone leaf: a 1 bit at index b, after b zeros, is MalformedStreamError with ERRINFO = b; the lone symbol
has been emitted b times; CURSOR = ROOT (R188, R191, R204). -/
def Obligations.DecodeLoneLeafRejectsOne : Prop :=
  ∀ (s : State) (c : Byte) (f : NodeFreq) (b : Nat), s.capsOk → s.tv = true →
    s.bitlen.toNat ≤ 8 * s.caps.bitCap → s.node.at s.root = .leaf c f → b < s.bitlen.toNat → b ≤ s.caps.outCap →
    (∀ n, n < b → s.getBit n = false) → s.getBit b = true →
    ∃ t, exec .decode s = .next t ∧ t.output = List.replicate b c ∧
      t = { s with outlen := BitVec.ofNat 32 b, outbuf := t.outbuf, cursor := s.root,
                   result := some .malformedStream, esticky := s.esticky ||| 0x08#8, errinfo := BitVec.ofNat 32 b } ∧
      ∀ a, b ≤ a → t.outByte a = s.outByte a

/-- DECODE with the output full: after OUT_CAP symbols cs, the code p of one more ends at bit b; CapacityError with
ERRINFO = b, OUTLEN = OUT_CAP, and CURSOR at the leaf p leads to (at the root for a lone leaf) (R189, R191, R206). -/
def Obligations.DecodeStopsAtFullOutput : Prop :=
  ∀ (s : State) (cs : List Byte) (c : Byte) (p q r : BitString), s.capsOk → s.tv = true → s.treeOk →
    s.bitlen.toNat ≤ 8 * s.caps.bitCap → cs.length = s.caps.outCap → s.payload = p ++ q ++ r →
    spells s.node s.root cs p → codeword s.node s.root c q →
    ∃ t j, exec .decode s = .next t ∧ t.output = cs ∧
      (internalRoot s.node s.root → descend s.node s.root q = some j) ∧
      (¬ internalRoot s.node s.root → j = s.root) ∧
      t = { s with outlen := BitVec.ofNat 32 s.caps.outCap, outbuf := t.outbuf, cursor := j,
                   result := some .capacity, esticky := s.esticky ||| 0x20#8,
                   errinfo := BitVec.ofNat 32 (p.length + q.length - 1) } ∧
      ∀ a, cs.length ≤ a → t.outByte a = s.outByte a

/-- Every emitted symbol consumes at least one bit: OUTLEN ≤ BITLEN after a DECODE that passed its prechecks, and OUTLEN ≤
OUT_CAP (R192 b, R30). -/
def Obligations.DecodedLengthIsBounded : Prop :=
  ∀ s : State, s.capsOk → s.tv = true → s.bitlen.toNat ≤ 8 * s.caps.bitCap →
    ∃ t, exec .decode s = .next t ∧ t.outlen.toNat ≤ s.bitlen.toNat ∧ t.outlen.toNat ≤ s.caps.outCap

/-- What a DECODE that passes its prechecks leaves is a function of ROOT, NODE, BITLEN and the first BITLEN bits of BITBUF
alone: no padding bit and no later byte is looked at (R194, R186). -/
def Obligations.DecodeDependsOnTreeAndPayload : Prop :=
  ∀ s u : State, s.capsOk → s.caps = u.caps → s.tv = true → u.tv = true → s.treeOk → u.treeOk → s.root = u.root →
    s.nodecnt = u.nodecnt → (∀ i, i < s.nodecnt.toNat → s.node.nth i = u.node.nth i) → s.bitlen = u.bitlen →
    s.bitlen.toNat ≤ 8 * s.caps.bitCap → s.payload = u.payload →
    ∃ t v, exec .decode s = .next t ∧ exec .decode u = .next v ∧ t.result = v.result ∧ t.errinfo = v.errinfo ∧
      t.cursor = v.cursor ∧ t.outlen = v.outlen ∧ t.output = v.output

/-- The round trip: COUNT, BUILD, GENCODE, ENCODE, DECODE in that order with no other write between, on 1 ≤ SYMLEN ≤ SYM_CAP
bytes whose payload fits, all complete with RESULT = 0, and OUTBUF holds the input again (R193). -/
def Obligations.RoundTripRecoversInput : Prop :=
  ∀ s : State, s.capsOk → 1 ≤ s.symlen.toNat → s.symlen.toNat ≤ s.caps.symCap →
    ∃ s1 s2 s3 s4 s5, exec .count s = .next s1 ∧ exec .build s1 = .next s2 ∧ exec .gencode s2 = .next s3 ∧
      exec .encode s3 = .next s4 ∧ exec .decode s4 = .next s5 ∧
      s1.result = none ∧ s2.result = none ∧ s3.result = none ∧
      (s4.result ≠ some .capacity →
        s4.result = none ∧ s5.result = none ∧ s5.outlen = s.symlen ∧ s5.output = s.input) ∧
      ((s3.codesOf s3.input).length ≤ 8 * s.caps.bitCap → s4.result = none)

/-! ### The host port -/

/-- A read answers the word of the space, or AccessError where there is none to read, and changes no state whatever (R71). The
list of transactions and the last answer are fields of the model's own (assumption logs 4 and 5). -/
def Obligations.ReadChangesNoState : Prop :=
  ∀ (s : State) (space : BitVec 4) (index : BitVec 28) (rest : List Txn),
    (∀ v, hostRead s space index = some v →
      step { s with host := .read space index :: rest } = .next { s with host := rest, port := some (.data v) }) ∧
    (hostRead s space index = none →
      step { s with host := .read space index :: rest } = .next { s with host := rest, port := some .accessError })

/-- A transaction is an access error exactly in the cases of R73, and then changes no state. -/
def Obligations.AccessErrorsExactly : Prop :=
  ∀ (s : State) (space : BitVec 4) (index : BitVec 28) (v : PortWord) (rest : List Txn),
    (∃ t, step { s with host := .read space index :: rest } = .next t ∧
      (t.port = some .accessError ↔ s.readRefused space index) ∧
      (t.port = some .accessError → t = { s with host := rest, port := some .accessError })) ∧
    (∃ t, step { s with host := .write space index v :: rest } = .next t ∧
      (t.port = some .accessError ↔ s.writeRefused space index) ∧
      (t.port = some .accessError → t = { s with host := rest, port := some .accessError }))

/-- What a HostWrite does (R72): an access error changes nothing; the value is truncated to the width of the space and stored
in SYMBUF, BITBUF, FREQ, SYMLEN or BITLEN and nowhere else; ESTICKY is written one-to-clear; a write to CMD runs the
command of its 32 low bits and the port answers Ok, whatever the result. -/
def Obligations.HostWriteEffects : Prop :=
  ∀ (s : State) (index : BitVec 28) (v : PortWord) (rest : List Txn),
    (∀ space, s.writeRefused space index →
      step { s with host := .write space index v :: rest } =
        .next { s with host := rest, port := some .accessError }) ∧
    (index.toNat < s.caps.symCap →
      step { s with host := .write 1#4 index v :: rest } =
        .next { s with host := rest, port := some .ok, symbuf := Memory.put s.symbuf index.toNat (v.setWidth 8) }) ∧
    (index.toNat < s.caps.bitCap →
      step { s with host := .write 2#4 index v :: rest } =
        .next { s with host := rest, port := some .ok, bitbuf := Memory.put s.bitbuf index.toNat (v.setWidth 8) }) ∧
    (index.toNat < 256 →
      step { s with host := .write 4#4 index v :: rest } =
        .next { s with host := rest, port := some .ok, freq := s.freq.put (index.setWidth 8) (v.setWidth 32) }) ∧
    step { s with host := .write 0#4 5#28 v :: rest } =
      .next { s with host := rest, port := some .ok, symlen := v.setWidth 32 } ∧
    step { s with host := .write 0#4 6#28 v :: rest } =
      .next { s with host := rest, port := some .ok, bitlen := v.setWidth 32 } ∧
    step { s with host := .write 0#4 3#28 v :: rest } =
      .next { s with host := rest, port := some .ok, esticky := s.esticky &&& ~~~ (v.setWidth 8) } ∧
    (step { s with host := .write 0#4 1#28 v :: rest } =
        runCommand (v.setWidth 32) { s with host := rest, port := some .ok } ∧
      ∃ t, step { s with host := .write 0#4 1#28 v :: rest } = .next t ∧ t.port = some .ok)

/-- A read of SYMBUF, BITBUF, FREQ, or of OUTBUF below OUTLEN, returns the word the state holds at that index (R39, R46 to R48,
R70, R71). A word a host writes to SYMBUF, BITBUF or FREQ, truncated to the width of the space, is the word that index reads
as afterwards, and every other index of that space and every index of every other space reads as before (R72, R80). -/
def Obligations.BufferReadsAfterWrite : Prop :=
  ∀ (s : State) (index : BitVec 28),
    (index.toNat < s.caps.symCap → hostRead s 1#4 index = some ((s.symByte index.toNat).setWidth 256)) ∧
    (index.toNat < s.caps.bitCap → hostRead s 2#4 index = some ((s.bitByte index.toNat).setWidth 256)) ∧
    (index.toNat < s.caps.outCap → index.toNat < s.outlen.toNat →
      hostRead s 3#4 index = some ((s.outByte index.toNat).setWidth 256)) ∧
    (index.toNat < 256 → hostRead s 4#4 index = some ((s.freq.at (index.setWidth 8)).setWidth 256)) ∧
    ∀ (t : State) (space : BitVec 4) (v : PortWord) (rest : List Txn),
      (space = 1#4 ∧ index.toNat < s.caps.symCap) ∨ (space = 2#4 ∧ index.toNat < s.caps.bitCap) ∨
        (space = 4#4 ∧ index.toNat < 256) →
      step { s with host := .write space index v :: rest } = .next t →
      hostRead t space index =
        some (if space = 4#4 then (v.setWidth 32).setWidth 256 else (v.setWidth 8).setWidth 256) ∧
      ∀ n ix, n ≠ space ∨ ix ≠ index → hostRead t n ix = hostRead s n ix

/-- The words a host read of the fifteen registers returns (R22 to R35, R71: CMD reads 0, a narrower register reads
zero-extended). -/
def Obligations.RegistersReadAsListed : Prop :=
  ∀ s : State, s.capsOk →
    hostRead s 0#4 0#28 = some 0x48554646#256 ∧ hostRead s 0#4 1#28 = some 0#256 ∧
    hostRead s 0#4 2#28 = some (s.status.setWidth 256) ∧ hostRead s 0#4 3#28 = some (s.esticky.setWidth 256) ∧
    hostRead s 0#4 4#28 = some (s.errinfo.setWidth 256) ∧ hostRead s 0#4 5#28 = some (s.symlen.setWidth 256) ∧
    hostRead s 0#4 6#28 = some (s.bitlen.setWidth 256) ∧ hostRead s 0#4 7#28 = some (s.outlen.setWidth 256) ∧
    hostRead s 0#4 8#28 = some (s.nsym.setWidth 256) ∧ hostRead s 0#4 9#28 = some (s.nodecnt.setWidth 256) ∧
    hostRead s 0#4 10#28 = some (BitVec.ofNat 256 s.root.val) ∧
    hostRead s 0#4 11#28 = some (BitVec.ofNat 256 s.cursor.val) ∧
    hostRead s 0#4 12#28 = some (BitVec.ofNat 256 s.caps.symCap) ∧
    hostRead s 0#4 13#28 = some (BitVec.ofNat 256 s.caps.bitCap) ∧
    hostRead s 0#4 14#28 = some (BitVec.ofNat 256 s.caps.outCap)

/-- STATUS assembled from RESULT, TV and LEAFROOT, reserved bits 0 (R25), with the result codes of R201 written out, and err_o
from ESTICKY (R209). -/
def Obligations.StatusAndErrorOutput : Prop :=
  ∀ s : State,
    (s.result = none → s.status.extractLsb 3 0 = 0#4) ∧
    (s.result = some .emptyInput → s.status.extractLsb 3 0 = 1#4) ∧
    (s.result = some .missingCode → s.status.extractLsb 3 0 = 2#4) ∧
    (s.result = some .malformedStream → s.status.extractLsb 3 0 = 3#4) ∧
    (s.result = some .illegalCommand → s.status.extractLsb 3 0 = 4#4) ∧
    (s.result = some .capacity → s.status.extractLsb 3 0 = 5#4) ∧
    (s.result = some .noTree → s.status.extractLsb 3 0 = 6#4) ∧
    s.status.extractLsb 3 0 = resultCode s.result ∧ (resultCode s.result).toNat ≤ 6 ∧
    s.status.getLsbD 4 = s.tv ∧ (s.status.getLsbD 5 = true ↔ s.tv = true ∧ s.nodecnt = 1#10) ∧
    s.status.extractLsb 31 6 = 0#26 ∧ (s.errO = true ↔ s.esticky ≠ 0#8)

/-- The packed words of the tree and of the code table that a host reads (R41, R44, R45). -/
def Obligations.TableWordsArePacked : Prop :=
  ∀ (s : State) (index : BitVec 28),
    (∀ (c : Byte) (f : NodeFreq), index.toNat < s.nodecnt.toNat → index.toNat < 511 →
      s.node.nth index.toNat = .leaf c f →
      ∃ w, hostRead s 5#4 index = some w ∧ w.extractLsb 255 48 = 0#208 ∧ w.extractLsb 47 40 = c ∧
        w.extractLsb 39 0 = f) ∧
    (∀ (f : NodeFreq) (l r : NodeIx), index.toNat < s.nodecnt.toNat → index.toNat < 511 →
      s.node.nth index.toNat = .internal f l r →
      ∃ w, hostRead s 5#4 index = some w ∧ w.extractLsb 255 64 = 0#192 ∧ w.getLsbD 63 = true ∧
        w.extractLsb 62 58 = 0#5 ∧ (w.extractLsb 57 49).toNat = r.val ∧ (w.extractLsb 48 40).toNat = l.val ∧
        w.extractLsb 39 0 = f) ∧
    (index.toNat < 256 → s.code.at (index.setWidth 8) = none →
      hostRead s 6#4 index = some 0#256 ∧ hostRead s 7#4 index = some 0#256) ∧
    (∀ p, index.toNat < 256 → s.code.at (index.setWidth 8) = some p → p.length ≤ 255 →
      hostRead s 6#4 index = some (BitVec.ofNat 256 (2 ^ 15 + p.length)) ∧
      ∃ w, hostRead s 7#4 index = some w ∧ ∀ j, j < 256 → w.getLsbD (255 - j) = p.getD j false)

/-- The reset event gives every piece of state the value of the reset table, from any state (R52, R230): the capacities
stay, no entry of NODE or OUTBUF can be read, and no byte of SYMBUF or BITBUF counts as written (every one is free,
assumption log 1). -/
def Obligations.ResetEventGivesResetTable : Prop :=
  ∀ (s : State) (rest : List Txn),
    ∃ t, step { s with host := .reset :: rest } = .next t ∧
      t.status = 0#32 ∧ t.result = none ∧ t.tv = false ∧ t.esticky = 0#8 ∧ t.errinfo = 0#32 ∧ t.symlen = 0#32 ∧
      t.bitlen = 0#32 ∧ t.outlen = 0#32 ∧ t.nsym = 0#9 ∧ t.nodecnt = 0#10 ∧ t.root = 0 ∧ t.cursor = 0 ∧
      (∀ c, t.freq.at c = 0#32 ∧ t.code.at c = none) ∧ t.inq = [] ∧ t.symbuf = [] ∧ t.bitbuf = [] ∧
      t.caps = s.caps ∧ ∀ ix, hostRead t 5#4 ix = none ∧ hostRead t 3#4 ix = none

/-! ### Rules of the whole machine -/

/-- The tree changes only by BUILD, CLEAR and reset: every other step leaves TV, NSYM, NODECNT, ROOT and NODE as they are
(R40, R51, R235). -/
def Obligations.TreeChangesOnlyByBuildClearReset : Prop :=
  ∀ s t : State, step s = .next t → ¬ s.commandNext .build → ¬ s.commandNext .clear → ¬ s.resetNext →
    t.tv = s.tv ∧ t.nsym = s.nsym ∧ t.nodecnt = s.nodecnt ∧ t.root = s.root ∧ t.node = s.node

/-- A bit of ESTICKY that is set stays set until the host writes a one to it, or CLEAR runs, or reset (R26, R221). -/
def Obligations.StickyBitsStayUntilCleared : Prop :=
  ∀ (s t : State) (n : Nat), step s = .next t → s.esticky.getLsbD n = true → t.esticky.getLsbD n = false →
    s.commandNext .clear ∨ s.resetNext ∨
      ∃ v rest, s.host = .write 0#4 3#28 v :: rest ∧ v.getLsbD n = true

/-! ### Invariants -/

/-- The state after reset meets every invariant. -/
def Obligations.ResetMeetsInvariants : Prop :=
  State.reset.capsOk ∧ State.reset.buffersOk ∧ State.reset.registersOk ∧ State.reset.treeOk ∧ State.reset.codesOk ∧
    State.reset.noError

/-- Every step keeps the three buffers in canonical form and within their capacities (R46 to R48; the canonical form is the
model's own, assumption log 1). -/
def Obligations.StepKeepsBuffers : Prop :=
  ∀ s t : State, s.capsOk → s.buffersOk → step s = .next t → t.capsOk ∧ t.buffersOk

/-- Every step keeps ESTICKY bits 0 and 7 at 0 (R26), OUTLEN at or below OUT_CAP (R30), and every readable byte of OUTBUF
written (R73 e). -/
def Obligations.StepKeepsRegisters : Prop :=
  ∀ s t : State, s.capsOk → s.registersOk → step s = .next t → t.registersOk

/-- Every step keeps the invariants of R42: while TV = 1 the arena holds a tree; while TV = 0 there is none (R31, R32, R33). -/
def Obligations.StepKeepsTree : Prop :=
  ∀ s t : State, s.treeOk → step s = .next t → t.treeOk

/-- Every step keeps the codes between 1 and 255 bits long and free of prefixes (R43, R164). -/
def Obligations.StepKeepsCodes : Prop :=
  ∀ s t : State, s.treeOk → s.codesOk → step s = .next t → t.codesOk
end

