-- ==== Sys2Proof/Laws/Run.lean ====
section
/-! SUPPORT. How a command ends, said once: completion or error entry, and the loop over a finite range. -/

namespace Sys2Proof.Machine

@[simp] theorem Run.settle_ok (s : State) : Run.settle (.ok s) = .next s.succeed := rfl

@[simp] theorem Run.settle_raised (s : State) (e : ErrorKind) (info : Word) :
    Run.settle (.raised s e info) = .next (s.raise e info) := rfl

/-- A command ends in a next state, whatever its work. -/
theorem Run.settle_next (r : Run State) : ∃ t, r.settle = .next t := by
  cases r with
  | ok s => exact ⟨s.succeed, rfl⟩
  | raised s e info => exact ⟨s.raise e info, rfl⟩

/-- The two ways a command ends, and the state each leaves. -/
theorem Run.settle_cases {r : Run State} {t : State} (h : r.settle = .next t) :
    (∃ s, r = .ok s ∧ t = s.succeed) ∨ (∃ s e info, r = .raised s e info ∧ t = s.raise e info) := by
  cases r with
  | ok s =>
    injection h with h
    exact .inl ⟨s, rfl, h.symm⟩
  | raised s e info =>
    injection h with h
    exact .inr ⟨s, e, info, rfl, h.symm⟩

@[simp] theorem Run.andThen_ok {σ τ : Type} (s : σ) (f : σ → Run τ) : (Run.ok s).andThen f = f s := rfl

@[simp] theorem Run.andThen_raised {σ τ : Type} (s : State) (e : ErrorKind) (info : Word) (f : σ → Run τ) :
    (Run.raised s e info).andThen f = .raised s e info := rfl

/-- A piece of work and what follows it end without error exactly when both do. -/
theorem Run.andThen_eq_ok {σ τ : Type} {r : Run σ} {f : σ → Run τ} {t : τ} :
    r.andThen f = .ok t ↔ ∃ s, r = .ok s ∧ f s = .ok t := by
  cases r with
  | ok s => simp
  | raised s e info => simp

/-- An error is raised by the piece of work, or by what follows it. -/
theorem Run.andThen_eq_raised {σ τ : Type} {r : Run σ} {f : σ → Run τ} {t : State} {e : ErrorKind} {info : Word} :
    r.andThen f = .raised t e info ↔ r = .raised t e info ∨ ∃ s, r = .ok s ∧ f s = .raised t e info := by
  cases r with
  | ok s => simp
  | raised s e info => simp

@[simp] theorem forRange_zero {σ : Type} (body : Nat → σ → Run σ) (s : σ) : forRange body 0 s = .ok s := rfl

theorem forRange_succ {σ : Type} (body : Nat → σ → Run σ) (n : Nat) (s : σ) :
    forRange body (n + 1) s = (forRange body n s).andThen (body n) := rfl

/-- The induction of a loop, packaged once: what holds before the first round and is kept by every round, holds of the
state the loop ends in; and what every raise of a round gives, an error of the loop gives. -/
theorem forRange_invariant {σ : Type} (body : Nat → σ → Run σ) (P : Nat → σ → Prop)
    (Q : Nat → State → ErrorKind → Word → Prop) (n : Nat) (s : σ) (h0 : P 0 s)
    (hok : ∀ i s t, i < n → P i s → body i s = .ok t → P (i + 1) t)
    (hraise : ∀ i s t e info, i < n → P i s → body i s = .raised t e info → Q i t e info) :
    (∃ t, forRange body n s = .ok t ∧ P n t) ∨
      (∃ i t e info, i < n ∧ forRange body n s = .raised t e info ∧ Q i t e info) := by
  induction n with
  | zero => exact .inl ⟨s, rfl, h0⟩
  | succ n ih =>
    rcases ih (fun i s t hi => hok i s t (by omega)) (fun i s t e info hi => hraise i s t e info (by omega)) with
      ⟨u, hu, hP⟩ | ⟨i, u, e, info, hi, hu, hQ⟩
    · rw [forRange_succ, hu, Run.andThen_ok]
      cases hb : body n u with
      | ok t => exact .inl ⟨t, rfl, hok n u t (by omega) hP hb⟩
      | raised t e info => exact .inr ⟨n, t, e, info, by omega, rfl, hraise n u t e info (by omega) hP hb⟩
    · exact .inr ⟨i, u, e, info, by omega, by rw [forRange_succ, hu, Run.andThen_raised], hQ⟩

end Sys2Proof.Machine
end

