-- ==== Sys2Proof/Laws/Tables.lean ====
section
/-! SUPPORT. The laws of the three tables FREQ, CODE and NODE: a read after a write, and the empty tables. -/

namespace Sys2Proof.Machine

@[simp] theorem FreqTable.at_put_self (f : FreqTable) (c : Byte) (v : Word) : (f.put c v).at c = v := by
  simp [FreqTable.at, FreqTable.put]

theorem FreqTable.at_put_other (f : FreqTable) (c d : Byte) (v : Word) (h : d ≠ c) : (f.put c v).at d = f.at d := by
  have : c.toNat ≠ d.toNat := fun e => h (BitVec.eq_of_toNat_eq e.symm)
  simp [FreqTable.at, FreqTable.put, Vector.getElem_set_ne, this]

@[simp] theorem FreqTable.empty_at (c : Byte) : FreqTable.empty.at c = 0#32 := by
  simp [FreqTable.at, FreqTable.empty]

@[simp] theorem CodeTable.at_put_self (t : CodeTable) (c : Byte) (p : BitString) : (t.put c p).at c = some p := by
  simp [CodeTable.at, CodeTable.put]

theorem CodeTable.at_put_other (t : CodeTable) (c d : Byte) (p : BitString) (h : d ≠ c) :
    (t.put c p).at d = t.at d := by
  have : c.toNat ≠ d.toNat := fun e => h (BitVec.eq_of_toNat_eq e.symm)
  simp [CodeTable.at, CodeTable.put, Vector.getElem_set_ne, this]

@[simp] theorem CodeTable.empty_at (c : Byte) : CodeTable.empty.at c = none := by
  simp [CodeTable.at, CodeTable.empty]

@[simp] theorem Arena.at_put_self (a : Arena) (i : NodeIx) (n : Node) : (a.put i n).at i = n := by
  simp [Arena.at, Arena.put]

theorem Arena.at_put_other (a : Arena) (i j : NodeIx) (n : Node) (h : j ≠ i) : (a.put i n).at j = a.at j := by
  have : i.val ≠ j.val := fun e => h (Fin.ext e.symm)
  simp [Arena.at, Arena.put, Vector.getElem_set_ne, this]

/-- Two frequency tables with the same counts are equal. -/
theorem FreqTable.ext_at {f g : FreqTable} (h : ∀ c, f.at c = g.at c) : f = g := by
  apply Vector.ext
  intro i hi
  have := h (BitVec.ofNat 8 i)
  simpa [FreqTable.at, Nat.mod_eq_of_lt hi] using this

/-- Two code tables with the same entries are equal. -/
theorem CodeTable.ext_at {f g : CodeTable} (h : ∀ c, f.at c = g.at c) : f = g := by
  apply Vector.ext
  intro i hi
  have := h (BitVec.ofNat 8 i)
  simpa [CodeTable.at, Nat.mod_eq_of_lt hi] using this

/-- Below 511 the arena index numbered `n` has the value `n`. -/
theorem NodeIx.ofNumber_val {n : Nat} (h : n < 511) : (NodeIx.ofNumber n).val = n := Nat.mod_eq_of_lt h

@[simp] theorem NodeIx.ofNumber_self (i : NodeIx) : NodeIx.ofNumber i.val = i := Fin.ext (Nat.mod_eq_of_lt i.isLt)

@[simp] theorem Arena.nth_val (a : Arena) (i : NodeIx) : a.nth i.val = a.at i := by simp [Arena.nth]

@[simp] theorem Node.freq_leaf (c : Byte) (f : NodeFreq) : (Node.leaf c f).freq = f := rfl

@[simp] theorem Node.freq_internal (f : NodeFreq) (l r : NodeIx) : (Node.internal f l r).freq = f := rfl

/-- The 9-bit numeral of an arena index is its value. -/
@[simp] theorem NodeIx.toBits_toNat (i : NodeIx) : (NodeIx.toBits i).toNat = i.val := by
  have := i.isLt
  simp [NodeIx.toBits]
  omega

/-- Every symbol value is listed in `allSymbols`. -/
theorem mem_allSymbols (c : Byte) : c ∈ allSymbols := by
  refine List.mem_map.mpr ⟨c.toNat, List.mem_range.mpr c.isLt, ?_⟩
  simp

end Sys2Proof.Machine
end

