-- ==== Sys2Proof/Laws/Builder.lean ====
section
/-! SUPPORT. The key order of the queue, what extract_min and merge_step do, and what the loops of BUILD keep. -/

namespace Sys2Proof.Machine

/-! ### The key order (R142) -/

theorem precedes_iff (a : Arena) (i j : NodeIx) :
    precedes a i j = true ↔ (a.at i).freq < (a.at j).freq ∨ ((a.at i).freq = (a.at j).freq ∧ i < j) := by
  simp [precedes]

theorem precedes_trans {a : Arena} {i j k : NodeIx} (hij : precedes a i j = true) (hjk : precedes a j k = true) :
    precedes a i k = true := by
  rw [precedes_iff, BitVec.lt_def] at *
  rw [← BitVec.toNat_inj, Fin.lt_def] at *
  omega

/-- The key order is total on different indices (R142: "a strict total order on any set of distinct indices"). -/
theorem precedes_total {a : Arena} {i j : NodeIx} (h : i ≠ j) (hn : precedes a i j = false) : precedes a j i = true := by
  have hn' : ¬ precedes a i j = true := by simp [hn]
  have hne : i.val ≠ j.val := fun e => h (Fin.ext e)
  rw [precedes_iff, BitVec.lt_def] at *
  rw [← BitVec.toNat_inj, Fin.lt_def] at *
  omega

/-- If i precedes j, the frequency of i is at most that of j. -/
theorem freq_le_of_precedes {a : Arena} {i j : NodeIx} (h : precedes a i j = true) :
    (a.at i).freq.toNat ≤ (a.at j).freq.toNat := by
  rw [precedes_iff, BitVec.lt_def, ← BitVec.toNat_inj] at h
  omega

/-! ### extract_min and merge_step (R143, R144) -/

/-- The element that minOf finds is in the queue and precedes every other. -/
theorem minOf_spec (a : Arena) (m : NodeIx) (q : List NodeIx) :
    minOf a m q ∈ m :: q ∧ ∀ x, x ∈ m :: q → x ≠ minOf a m q → precedes a (minOf a m q) x = true := by
  induction q generalizing m with
  | nil =>
    refine ⟨List.mem_cons_self, fun x hx hne => ?_⟩
    rw [List.mem_singleton] at hx
    exact absurd hx hne
  | cons y q ih =>
    unfold minOf
    obtain ⟨hmem, hmin⟩ := ih (if precedes a y m then y else m)
    by_cases hp : precedes a y m = true
    · rw [if_pos hp] at hmem hmin ⊢
      refine ⟨List.mem_cons_of_mem _ hmem, fun x hx hne => ?_⟩
      rcases List.mem_cons.mp hx with rfl | hx
      · by_cases hy : y = minOf a y q
        · rw [← hy]
          exact hp
        · exact precedes_trans (hmin y List.mem_cons_self hy) hp
      · exact hmin x hx hne
    · rw [if_neg hp] at hmem hmin ⊢
      refine ⟨?_, fun x hx hne => ?_⟩
      · rcases List.mem_cons.mp hmem with h | h
        · rw [h]
          exact List.mem_cons_self
        · exact List.mem_cons_of_mem _ (List.mem_cons_of_mem _ h)
      · rcases List.mem_cons.mp hx with rfl | hx
        · exact hmin x List.mem_cons_self hne
        · rcases List.mem_cons.mp hx with rfl | hx
          · by_cases hxm : x = m
            · subst hxm
              exact hmin x List.mem_cons_self hne
            · have hmx : precedes a m x = true := precedes_total hxm (by simpa using hp)
              by_cases hm : m = minOf a m q
              · rw [← hm]
                exact hmx
              · exact precedes_trans (hmin m List.mem_cons_self hm) hmx
          · exact hmin x (List.mem_cons_of_mem _ hx) hne

/-- Everything merge_step does to a queue of two elements or more without repeats: it takes the two that come first, in their
order, and inserts their parent (R144). -/
theorem mergeStep_spec (f : Forest) (h2 : 2 ≤ f.inq.length) (hnd : f.inq.Nodup) :
    ∃ a b, a ∈ f.inq ∧ b ∈ f.inq ∧ a ≠ b ∧
      (∀ x, x ∈ f.inq → x ≠ a → precedes f.node a x = true) ∧
      (∀ x, x ∈ f.inq → x ≠ a → x ≠ b → precedes f.node b x = true) ∧
      mergeStep f = Forest.insert { f with inq := (f.inq.erase a).erase b }
        (.internal ((f.node.at a).freq + (f.node.at b).freq) a b) := by
  cases hq : f.inq with
  | nil => simp [hq] at h2
  | cons x q =>
    obtain ⟨hmem, hmin⟩ := minOf_spec f.node x q
    rw [hq] at hnd h2
    generalize ha : minOf f.node x q = a at hmem hmin
    have hlen : ((x :: q).erase a).length = q.length := by
      rw [List.length_erase_of_mem hmem]
      simp
    cases hq2 : (x :: q).erase a with
    | nil => simp [hq2] at hlen; simp [← hlen] at h2
    | cons y r =>
      obtain ⟨hmem2, hmin2⟩ := minOf_spec f.node y r
      generalize hb : minOf f.node y r = b at hmem2 hmin2
      rw [← hq2] at hmem2 hmin2
      have hbm := (hnd.mem_erase_iff).mp hmem2
      refine ⟨a, b, hmem, hbm.2, fun e => hbm.1 e.symm, hmin, fun z hz h1 h3 => ?_, ?_⟩
      · exact hmin2 z ((hnd.mem_erase_iff).mpr ⟨h1, hz⟩) h3
      · simp [mergeStep, extractMin, hq, ha, hq2, hb]

/-! ### Writing at the next free index -/

theorem Forest.insert_nth_self (f : Forest) (n : Node) : (f.insert n).node.nth f.next = n := by
  simp [Forest.insert, Arena.nth]

theorem Forest.insert_nth_other (f : Forest) (n : Node) {i : Nat} (hi : i < 511) (hn : f.next < 511) (h : i ≠ f.next) :
    (f.insert n).node.nth i = f.node.nth i := by
  refine Arena.at_put_other _ _ _ _ (fun e => h ?_)
  have := congrArg Fin.val e
  rwa [NodeIx.ofNumber_val hi, NodeIx.ofNumber_val hn] at this

theorem Forest.insert_at_other (f : Forest) (n : Node) {j : NodeIx} (hn : f.next < 511) (h : j.val ≠ f.next) :
    (f.insert n).node.at j = f.node.at j := by
  have := f.insert_nth_other n j.isLt hn h
  simpa using this

/-! ### The leaves (R141) -/

/-- The loop of leaf_init over the symbols `cs`, from any work: one leaf per symbol with a count that is not 0, at the next
indices, in the order of `cs`. -/
theorem foldl_leafStep (freq : FreqTable) (cs : List Byte) (f : Forest)
    (hcap : f.next + (cs.filter (fun c => freq.at c != 0#32)).length ≤ 511) :
    (cs.foldl (leafStep freq) f).next = f.next + (cs.filter (fun c => freq.at c != 0#32)).length ∧
    (cs.foldl (leafStep freq) f).inq =
      f.inq ++ (List.range (cs.filter (fun c => freq.at c != 0#32)).length).map (fun i => NodeIx.ofNumber (f.next + i)) ∧
    (∀ i, i < f.next → (cs.foldl (leafStep freq) f).node.nth i = f.node.nth i) ∧
    ∀ i c, (cs.filter (fun c => freq.at c != 0#32))[i]? = some c →
      (cs.foldl (leafStep freq) f).node.nth (f.next + i) = .leaf c ((freq.at c).setWidth 40) := by
  induction cs generalizing f with
  | nil => simp
  | cons d cs ih =>
    by_cases hd : freq.at d = 0#32
    · have hfil : (d :: cs).filter (fun c => freq.at c != 0#32) = cs.filter (fun c => freq.at c != 0#32) := by
        simp [hd]
      rw [hfil] at hcap ⊢
      have hstep : leafStep freq f d = f := by simp [leafStep, hd]
      rw [List.foldl_cons, hstep]
      exact ih f hcap
    · have hfil : (d :: cs).filter (fun c => freq.at c != 0#32) = d :: cs.filter (fun c => freq.at c != 0#32) := by
        simp [hd]
      rw [hfil] at hcap ⊢
      rw [List.length_cons] at hcap ⊢
      have hstep : leafStep freq f d = f.insert (.leaf d ((freq.at d).setWidth 40)) := by simp [leafStep, hd]
      rw [List.foldl_cons, hstep]
      generalize hn : (Node.leaf d ((freq.at d).setWidth 40)) = n
      have hnext : (f.insert n).next = f.next + 1 := rfl
      obtain ⟨h1, h2, h3, h4⟩ := ih (f.insert n) (by rw [hnext]; omega)
      rw [hnext] at h1 h2 h3 h4
      refine ⟨by rw [h1]; omega, ?_, ?_, ?_⟩
      · rw [h2, List.range_succ_eq_map, List.map_cons, List.map_map]
        have : (f.insert n).inq = f.inq ++ [NodeIx.ofNumber f.next] := rfl
        rw [this, List.append_assoc, List.singleton_append]
        congr 2
        refine List.map_congr_left (fun i _ => ?_)
        show NodeIx.ofNumber (f.next + 1 + i) = NodeIx.ofNumber (f.next + (i + 1))
        rw [show f.next + 1 + i = f.next + (i + 1) by omega]
      · intro i hi
        rw [h3 i (by omega)]
        exact f.insert_nth_other n (by omega) (by omega) (by omega)
      · intro i c hc
        cases i with
        | zero =>
          simp only [List.getElem?_cons_zero, Option.some.injEq] at hc
          subst hc
          rw [Nat.add_zero, h3 _ (by omega), f.insert_nth_self, hn]
        | succ i =>
          simp only [List.getElem?_cons_succ] at hc
          have := h4 i c hc
          rwa [show f.next + (i + 1) = f.next + 1 + i by omega]

theorem allSymbols_length : allSymbols.length = 256 := by simp [allSymbols]

theorem present_length_le (s : State) : s.present.length ≤ 256 := by
  have := List.length_filter_le (fun c => s.freq.at c != 0#32) allSymbols
  rw [allSymbols_length] at this
  exact this

/-- The symbols in the table are listed in ascending order (R141). -/
theorem present_ascending (s : State) : s.present.Pairwise (· < ·) := by
  refine List.Pairwise.filter _ ?_
  unfold allSymbols
  rw [List.pairwise_map]
  refine List.Pairwise.imp_of_mem ?_ (List.pairwise_lt_range (n := 256))
  intro i j hi hj hij
  have hi := List.mem_range.mp hi
  have hj := List.mem_range.mp hj
  rw [BitVec.lt_def, BitVec.toNat_ofNat, BitVec.toNat_ofNat, Nat.mod_eq_of_lt hi, Nat.mod_eq_of_lt hj]
  exact hij

/-- A symbol is listed exactly when its count is not 0 (R39). -/
theorem mem_present (s : State) (c : Byte) : c ∈ s.present ↔ s.freq.at c ≠ 0#32 := by
  simp [State.present, mem_allSymbols]

/-- Everything leaf_init does (R141). -/
theorem leafInit_spec (s : State) :
    (leafInit s.freq s.node).next = s.present.length ∧
    (leafInit s.freq s.node).inq = (List.range s.present.length).map NodeIx.ofNumber ∧
    ∀ i c, s.present[i]? = some c →
      (leafInit s.freq s.node).node.nth i = .leaf c ((s.freq.at c).setWidth 40) := by
  have := present_length_le s
  obtain ⟨h1, h2, -, h4⟩ := foldl_leafStep s.freq allSymbols { node := s.node, inq := [], next := 0 }
    (by simp only [Nat.zero_add]; exact Nat.le_trans (present_length_le s) (by decide))
  simp only [Nat.zero_add, List.nil_append] at h1 h2 h4
  exact ⟨h1, h2, h4⟩

end Sys2Proof.Machine
end

