-- ==== Sys2Proof/Laws/Counter.lean ====
section
/-! SUPPORT. What the loop of COUNT does to the frequency table. -/

namespace Sys2Proof.Machine

/-- One count_step adds one to the entry of its symbol and changes no other (R131). -/
theorem countStep_at (f : FreqTable) (c d : Byte) :
    (countStep f c).at d = if d = c then f.at d + 1#32 else f.at d := by
  by_cases h : d = c
  · subst h
    simp [countStep]
  · simp [countStep, FreqTable.at_put_other, h]

/-- The number of occurrences of `c` among the symbols `cs`. -/
def occurrences (cs : List Byte) (c : Byte) : Nat := (cs.filter (fun d => d == c)).length

theorem occurrences_le (cs : List Byte) (c : Byte) : occurrences cs c ≤ cs.length := List.length_filter_le _ _

/-- The loop of COUNT from any table: each entry grows by the number of occurrences of its symbol. -/
theorem foldl_countStep_at (cs : List Byte) (f : FreqTable) (c : Byte) :
    (cs.foldl countStep f).at c = f.at c + BitVec.ofNat 32 (occurrences cs c) := by
  induction cs generalizing f with
  | nil => simp [occurrences]
  | cons d cs ih =>
    rw [List.foldl_cons, ih, countStep_at]
    by_cases h : c = d
    · subst h
      have : occurrences (c :: cs) c = 1 + occurrences cs c := by simp [occurrences]; omega
      rw [if_pos rfl, this, BitVec.ofNat_add, BitVec.add_assoc]
    · have : occurrences (d :: cs) c = occurrences cs c := by
        have : ¬ d = c := fun e => h e.symm
        simp [occurrences, this]
      rw [if_neg h, this]

/-- The table COUNT leaves: with fewer than 2^32 symbols every entry is the exact number of occurrences (R132 a, c). -/
theorem countAll_at (cs : List Byte) (c : Byte) (h : cs.length < 2 ^ 32) :
    ((countAll cs).at c).toNat = occurrences cs c := by
  have hle := occurrences_le cs c
  unfold countAll
  rw [foldl_countStep_at]
  simp only [FreqTable.empty_at, BitVec.zero_add, BitVec.toNat_ofNat]
  exact Nat.mod_eq_of_lt (by omega)

/-- The input sequence has SYMLEN symbols (R28). -/
@[simp] theorem State.input_length (s : State) : s.input.length = s.symlen.toNat := by simp [State.input]

end Sys2Proof.Machine
end

