-- ==== Sys2Proof/Laws/Decode.lean ====
section
/-! SUPPORT. The laws of decoding: a row of the opcode map selects one word, no two rows select the same one, and the words
the rows do not name are rejected. -/

namespace Sys2Proof

/-- A row whose mask is all ones selects exactly its match value (R101: "all 32 bits are compared"). -/
theorem OpcodeRow.selects_iff {r : OpcodeRow} (h : r.mask = 0xFFFFFFFF#32) (w : Word) :
    r.selects w = true ↔ w = r.value := by
  have : w &&& 0xFFFFFFFF#32 = w := by
    have := BitVec.and_allOnes (x := w)
    simpa using this
  simp [OpcodeRow.selects, h, this]

/-- Every row of the opcode map compares all 32 bits. -/
theorem opcodeTable_mask : ∀ r ∈ opcodeTable, r.mask = 0xFFFFFFFF#32 := by decide

/-- No two rows of the opcode map select the same word. -/
theorem opcodeTable_disjoint : opcodeTable.Pairwise (fun r q => r.value ≠ q.value) := by decide

/-- A word that decodes to a command is the match value of that command's row. -/
theorem decodeCommand_ok {w : Word} {i : Instr} (h : decodeCommand w = .ok i) :
    ∃ r ∈ opcodeTable, w = r.value ∧ r.instr = i := by
  unfold decodeCommand at h
  split at h
  · next r hr =>
    have hmem := List.mem_of_find?_eq_some hr
    have hsel := List.find?_some hr
    injection h with h
    exact ⟨r, hmem, (OpcodeRow.selects_iff (opcodeTable_mask r hmem) w).mp hsel, h⟩
  · cases h

/-- A word that is rejected is no row's match value, and the rejection names it. -/
theorem decodeCommand_error {w : Word} {e : DecodeError} (h : decodeCommand w = .error e) :
    e = .illegalCommand w ∧ ∀ r ∈ opcodeTable, w ≠ r.value := by
  unfold decodeCommand at h
  split at h
  · cases h
  · next hr =>
    injection h with h
    refine ⟨h.symm, fun r hmem hw => ?_⟩
    have := List.find?_eq_none.mp hr r hmem
    exact this ((OpcodeRow.selects_iff (opcodeTable_mask r hmem) w).mpr hw)

end Sys2Proof
end

