-- ==== Sys2Proof/Laws/Memory.lean ====
section
/-! SUPPORT. The laws of the byte buffers: a read after a write, the canonical form, the bound on the indices. -/

namespace Sys2Proof.Machine

@[simp] theorem Memory.find?_nil (i : Nat) : Memory.find? [] i = none := rfl

/-- The index just written holds the byte written. -/
@[simp] theorem Memory.find?_put_self (m : Memory) (i : Nat) (b : Byte) :
    Memory.find? (Memory.put m i b) i = some b := by
  induction m with
  | nil => simp [Memory.put, Memory.find?]
  | cons x m ih =>
    obtain ⟨a, c⟩ := x
    by_cases h : a = i
    · simp [Memory.put, Memory.find?, h]
    · by_cases h' : i < a
      · simp [Memory.put, Memory.find?, h, h']
      · simp [Memory.put, Memory.find?, h, h', ih]

/-- Every other index holds what it held. -/
theorem Memory.find?_put_other (m : Memory) (i j : Nat) (b : Byte) (h : j ≠ i) :
    Memory.find? (Memory.put m i b) j = Memory.find? m j := by
  have hij : i ≠ j := fun e => h e.symm
  induction m with
  | nil => simp [Memory.put, Memory.find?, hij]
  | cons x m ih =>
    obtain ⟨a, c⟩ := x
    by_cases ha : a = i
    · subst ha
      simp [Memory.put, Memory.find?, hij]
    · by_cases hlt : i < a
      · by_cases haj : a = j
        · subst haj
          have : ¬ a < i := by omega
          simp [Memory.put, Memory.find?, ha, hlt, hij, this]
        · by_cases hji : j < i
          · have : j < a := by omega
            simp [Memory.put, Memory.find?, ha, hlt, hij, haj, hji, this]
          · simp [Memory.put, Memory.find?, ha, hlt, hij, haj, hji]
      · by_cases haj : a = j
        · subst haj
          simp [Memory.put, Memory.find?, ha, hlt]
        · simp [Memory.put, Memory.find?, ha, hlt, haj, ih]

theorem Memory.find?_put (m : Memory) (i j : Nat) (b : Byte) :
    Memory.find? (Memory.put m i b) j = if j = i then some b else Memory.find? m j := by
  by_cases h : j = i
  · subst h
    simp
  · simp [h, Memory.find?_put_other m i j b h]

/-- The index just written reads as the byte written. -/
@[simp] theorem Memory.byteAt_put_self (m : Memory) (n : Nat) (buf : Buffer) (i : Nat) (b : Byte) :
    Memory.byteAt (Memory.put m i b) n buf i = b := by
  simp [Memory.byteAt]

/-- Every other index reads as before. -/
theorem Memory.byteAt_put_other (m : Memory) (n : Nat) (buf : Buffer) (i j : Nat) (b : Byte) (h : j ≠ i) :
    Memory.byteAt (Memory.put m i b) n buf j = Memory.byteAt m n buf j := by
  simp [Memory.byteAt, Memory.find?_put_other m i j b h]

theorem Memory.byteAt_put (m : Memory) (n : Nat) (buf : Buffer) (i j : Nat) (b : Byte) :
    Memory.byteAt (Memory.put m i b) n buf j = if j = i then b else Memory.byteAt m n buf j := by
  by_cases h : j = i
  · subst h
    simp
  · simp [h, Memory.byteAt_put_other m n buf i j b h]

/-- Every index listed after a write was listed before it, or is the one written. -/
theorem Memory.fst_of_mem_put {m : Memory} {i : Nat} {b : Byte} {x : Host.Cell} (h : x ∈ Memory.put m i b) :
    x.1 = i ∨ x ∈ m := by
  induction m with
  | nil =>
    simp [Memory.put] at h
    exact .inl (by rw [h])
  | cons y m ih =>
    obtain ⟨a, c⟩ := y
    unfold Memory.put at h
    split at h
    · rcases List.mem_cons.mp h with h | h
      · exact .inl (by rw [h])
      · exact .inr (List.mem_cons_of_mem _ h)
    · split at h
      · rcases List.mem_cons.mp h with h | h
        · exact .inl (by rw [h])
        · exact .inr h
      · rcases List.mem_cons.mp h with h | h
        · exact .inr (by rw [h]; exact List.mem_cons_self)
        · rcases ih h with h | h
          · exact .inl h
          · exact .inr (List.mem_cons_of_mem _ h)

theorem Memory.wf_nil : Memory.wf [] := List.Pairwise.nil

/-- A write keeps the canonical form. -/
theorem Memory.put_wf {m : Memory} (i : Nat) (b : Byte) (h : Memory.wf m) : Memory.wf (Memory.put m i b) := by
  induction m with
  | nil => simp [Memory.put, Memory.wf]
  | cons x m ih =>
    obtain ⟨a, c⟩ := x
    simp only [Memory.wf, List.map_cons, List.pairwise_cons] at h
    obtain ⟨hlow, htail⟩ := h
    unfold Memory.put
    split
    · next heq =>
      subst heq
      exact List.pairwise_cons.mpr ⟨hlow, htail⟩
    · split
      · next hlt =>
        refine List.pairwise_cons.mpr ⟨?_, List.pairwise_cons.mpr ⟨hlow, htail⟩⟩
        intro y hy
        rcases List.mem_cons.mp hy with hy | hy
        · exact hy ▸ hlt
        · exact Nat.lt_trans hlt (hlow y hy)
      · next hne hnlt =>
        refine List.pairwise_cons.mpr ⟨?_, ih htail⟩
        intro y hy
        obtain ⟨z, hz, rfl⟩ := List.mem_map.mp hy
        rcases Memory.fst_of_mem_put hz with hz | hz
        · show a < z.1
          omega
        · exact hlow z.1 (List.mem_map_of_mem hz)

theorem Memory.within_nil (cap : Nat) : Memory.within [] cap := ⟨Memory.wf_nil, fun _ h => by cases h⟩

/-- A write below the capacity keeps the form and the bound. -/
theorem Memory.put_within {m : Memory} {cap : Nat} (i : Nat) (b : Byte) (hi : i < cap) (h : Memory.within m cap) :
    Memory.within (Memory.put m i b) cap := by
  refine ⟨Memory.put_wf i b h.1, fun x hx => ?_⟩
  rcases Memory.fst_of_mem_put hx with hx | hx
  · omega
  · exact h.2 x hx

/-- In canonical form, two memories that list the same byte, or none, at every index are equal. -/
theorem Memory.ext_find? {m n : Memory} (hm : Memory.wf m) (hn : Memory.wf n)
    (h : ∀ i, Memory.find? m i = Memory.find? n i) : m = n := by
  induction m generalizing n with
  | nil =>
    cases n with
    | nil => rfl
    | cons y n =>
      have := h y.1
      simp [Memory.find?] at this
  | cons x m ih =>
    cases n with
    | nil =>
      have := h x.1
      simp [Memory.find?] at this
    | cons y n =>
      obtain ⟨a, b⟩ := x
      obtain ⟨c, d⟩ := y
      simp only [Memory.wf, List.map_cons, List.pairwise_cons] at hm hn
      have hac : a = c := by
        rcases Nat.lt_trichotomy a c with hlt | heq | hlt
        · have := h a
          simp [Memory.find?, hlt, Nat.ne_of_gt hlt] at this
        · exact heq
        · have := h c
          simp [Memory.find?, hlt, Nat.ne_of_gt hlt] at this
      subst hac
      have hbd : b = d := by
        have := h a
        simpa [Memory.find?] using this
      subst hbd
      have none_of_low : ∀ (k : Memory), (∀ y ∈ k.map Prod.fst, a < y) → ∀ i, i ≤ a → Memory.find? k i = none := by
        intro k hk i hi
        cases k with
        | nil => rfl
        | cons z k =>
          obtain ⟨e, f⟩ := z
          have : a < e := hk e (by simp)
          have h1 : e ≠ i := by omega
          have h2 : i < e := by omega
          simp [Memory.find?, h1, h2]
      have : m = n := by
        apply ih hm.2 hn.2
        intro i
        by_cases hi : i ≤ a
        · rw [none_of_low m hm.1 i hi, none_of_low n hn.1 i hi]
        · have h1 : a ≠ i := by omega
          have h2 : ¬ i < a := by omega
          have := h i
          simpa [Memory.find?, h1, h2] using this
      rw [this]

end Sys2Proof.Machine
end

