-- ==== Sys2Proof/Laws/State.lean ====
section
/-! SUPPORT. One lemma per field per named update of State, true by rfl, so that no later proof unfolds a record update. -/

namespace Sys2Proof.Machine

/-! ### State.succeed: completion without error -/

@[simp] theorem State.succeed_caps (s : State) : (s.succeed).caps = s.caps := rfl
@[simp] theorem State.succeed_result (s : State) : (s.succeed).result = none := rfl
@[simp] theorem State.succeed_tv (s : State) : (s.succeed).tv = s.tv := rfl
@[simp] theorem State.succeed_esticky (s : State) : (s.succeed).esticky = s.esticky := rfl
@[simp] theorem State.succeed_errinfo (s : State) : (s.succeed).errinfo = 0#32 := rfl
@[simp] theorem State.succeed_symlen (s : State) : (s.succeed).symlen = s.symlen := rfl
@[simp] theorem State.succeed_bitlen (s : State) : (s.succeed).bitlen = s.bitlen := rfl
@[simp] theorem State.succeed_outlen (s : State) : (s.succeed).outlen = s.outlen := rfl
@[simp] theorem State.succeed_nsym (s : State) : (s.succeed).nsym = s.nsym := rfl
@[simp] theorem State.succeed_nodecnt (s : State) : (s.succeed).nodecnt = s.nodecnt := rfl
@[simp] theorem State.succeed_root (s : State) : (s.succeed).root = s.root := rfl
@[simp] theorem State.succeed_cursor (s : State) : (s.succeed).cursor = s.cursor := rfl
@[simp] theorem State.succeed_freq (s : State) : (s.succeed).freq = s.freq := rfl
@[simp] theorem State.succeed_node (s : State) : (s.succeed).node = s.node := rfl
@[simp] theorem State.succeed_code (s : State) : (s.succeed).code = s.code := rfl
@[simp] theorem State.succeed_symbuf (s : State) : (s.succeed).symbuf = s.symbuf := rfl
@[simp] theorem State.succeed_bitbuf (s : State) : (s.succeed).bitbuf = s.bitbuf := rfl
@[simp] theorem State.succeed_outbuf (s : State) : (s.succeed).outbuf = s.outbuf := rfl
@[simp] theorem State.succeed_inq (s : State) : (s.succeed).inq = s.inq := rfl
@[simp] theorem State.succeed_resets (s : State) : (s.succeed).resets = s.resets := rfl
@[simp] theorem State.succeed_host (s : State) : (s.succeed).host = s.host := rfl
@[simp] theorem State.succeed_port (s : State) : (s.succeed).port = s.port := rfl

/-! ### State.raise: error entry -/

@[simp] theorem State.raise_caps (s : State) (e : ErrorKind) (info : Word) : (s.raise e info).caps = s.caps := rfl
@[simp] theorem State.raise_result (s : State) (e : ErrorKind) (info : Word) : (s.raise e info).result = some e := rfl
@[simp] theorem State.raise_tv (s : State) (e : ErrorKind) (info : Word) : (s.raise e info).tv = s.tv := rfl
@[simp] theorem State.raise_esticky (s : State) (e : ErrorKind) (info : Word) : (s.raise e info).esticky = s.esticky ||| e.stickyBit := rfl
@[simp] theorem State.raise_errinfo (s : State) (e : ErrorKind) (info : Word) : (s.raise e info).errinfo = info := rfl
@[simp] theorem State.raise_symlen (s : State) (e : ErrorKind) (info : Word) : (s.raise e info).symlen = s.symlen := rfl
@[simp] theorem State.raise_bitlen (s : State) (e : ErrorKind) (info : Word) : (s.raise e info).bitlen = s.bitlen := rfl
@[simp] theorem State.raise_outlen (s : State) (e : ErrorKind) (info : Word) : (s.raise e info).outlen = s.outlen := rfl
@[simp] theorem State.raise_nsym (s : State) (e : ErrorKind) (info : Word) : (s.raise e info).nsym = s.nsym := rfl
@[simp] theorem State.raise_nodecnt (s : State) (e : ErrorKind) (info : Word) : (s.raise e info).nodecnt = s.nodecnt := rfl
@[simp] theorem State.raise_root (s : State) (e : ErrorKind) (info : Word) : (s.raise e info).root = s.root := rfl
@[simp] theorem State.raise_cursor (s : State) (e : ErrorKind) (info : Word) : (s.raise e info).cursor = s.cursor := rfl
@[simp] theorem State.raise_freq (s : State) (e : ErrorKind) (info : Word) : (s.raise e info).freq = s.freq := rfl
@[simp] theorem State.raise_node (s : State) (e : ErrorKind) (info : Word) : (s.raise e info).node = s.node := rfl
@[simp] theorem State.raise_code (s : State) (e : ErrorKind) (info : Word) : (s.raise e info).code = s.code := rfl
@[simp] theorem State.raise_symbuf (s : State) (e : ErrorKind) (info : Word) : (s.raise e info).symbuf = s.symbuf := rfl
@[simp] theorem State.raise_bitbuf (s : State) (e : ErrorKind) (info : Word) : (s.raise e info).bitbuf = s.bitbuf := rfl
@[simp] theorem State.raise_outbuf (s : State) (e : ErrorKind) (info : Word) : (s.raise e info).outbuf = s.outbuf := rfl
@[simp] theorem State.raise_inq (s : State) (e : ErrorKind) (info : Word) : (s.raise e info).inq = s.inq := rfl
@[simp] theorem State.raise_resets (s : State) (e : ErrorKind) (info : Word) : (s.raise e info).resets = s.resets := rfl
@[simp] theorem State.raise_host (s : State) (e : ErrorKind) (info : Word) : (s.raise e info).host = s.host := rfl
@[simp] theorem State.raise_port (s : State) (e : ErrorKind) (info : Word) : (s.raise e info).port = s.port := rfl

/-! ### State.cleared: the body of CLEAR -/

@[simp] theorem State.cleared_caps (s : State) : (s.cleared).caps = s.caps := rfl
@[simp] theorem State.cleared_result (s : State) : (s.cleared).result = s.result := rfl
@[simp] theorem State.cleared_tv (s : State) : (s.cleared).tv = false := rfl
@[simp] theorem State.cleared_esticky (s : State) : (s.cleared).esticky = 0#8 := rfl
@[simp] theorem State.cleared_errinfo (s : State) : (s.cleared).errinfo = s.errinfo := rfl
@[simp] theorem State.cleared_symlen (s : State) : (s.cleared).symlen = 0#32 := rfl
@[simp] theorem State.cleared_bitlen (s : State) : (s.cleared).bitlen = 0#32 := rfl
@[simp] theorem State.cleared_outlen (s : State) : (s.cleared).outlen = 0#32 := rfl
@[simp] theorem State.cleared_nsym (s : State) : (s.cleared).nsym = 0#9 := rfl
@[simp] theorem State.cleared_nodecnt (s : State) : (s.cleared).nodecnt = 0#10 := rfl
@[simp] theorem State.cleared_root (s : State) : (s.cleared).root = 0 := rfl
@[simp] theorem State.cleared_cursor (s : State) : (s.cleared).cursor = 0 := rfl
@[simp] theorem State.cleared_freq (s : State) : (s.cleared).freq = FreqTable.empty := rfl
@[simp] theorem State.cleared_node (s : State) : (s.cleared).node = s.node := rfl
@[simp] theorem State.cleared_code (s : State) : (s.cleared).code = CodeTable.empty := rfl
@[simp] theorem State.cleared_symbuf (s : State) : (s.cleared).symbuf = s.symbuf := rfl
@[simp] theorem State.cleared_bitbuf (s : State) : (s.cleared).bitbuf = s.bitbuf := rfl
@[simp] theorem State.cleared_outbuf (s : State) : (s.cleared).outbuf = s.outbuf := rfl
@[simp] theorem State.cleared_inq (s : State) : (s.cleared).inq = [] := rfl
@[simp] theorem State.cleared_resets (s : State) : (s.cleared).resets = s.resets := rfl
@[simp] theorem State.cleared_host (s : State) : (s.cleared).host = s.host := rfl
@[simp] theorem State.cleared_port (s : State) : (s.cleared).port = s.port := rfl

/-! ### State.withoutTree: the old tree is gone -/

@[simp] theorem State.withoutTree_caps (s : State) : (s.withoutTree).caps = s.caps := rfl
@[simp] theorem State.withoutTree_result (s : State) : (s.withoutTree).result = s.result := rfl
@[simp] theorem State.withoutTree_tv (s : State) : (s.withoutTree).tv = false := rfl
@[simp] theorem State.withoutTree_esticky (s : State) : (s.withoutTree).esticky = s.esticky := rfl
@[simp] theorem State.withoutTree_errinfo (s : State) : (s.withoutTree).errinfo = s.errinfo := rfl
@[simp] theorem State.withoutTree_symlen (s : State) : (s.withoutTree).symlen = s.symlen := rfl
@[simp] theorem State.withoutTree_bitlen (s : State) : (s.withoutTree).bitlen = s.bitlen := rfl
@[simp] theorem State.withoutTree_outlen (s : State) : (s.withoutTree).outlen = s.outlen := rfl
@[simp] theorem State.withoutTree_nsym (s : State) : (s.withoutTree).nsym = 0#9 := rfl
@[simp] theorem State.withoutTree_nodecnt (s : State) : (s.withoutTree).nodecnt = 0#10 := rfl
@[simp] theorem State.withoutTree_root (s : State) : (s.withoutTree).root = 0 := rfl
@[simp] theorem State.withoutTree_cursor (s : State) : (s.withoutTree).cursor = s.cursor := rfl
@[simp] theorem State.withoutTree_freq (s : State) : (s.withoutTree).freq = s.freq := rfl
@[simp] theorem State.withoutTree_node (s : State) : (s.withoutTree).node = s.node := rfl
@[simp] theorem State.withoutTree_code (s : State) : (s.withoutTree).code = s.code := rfl
@[simp] theorem State.withoutTree_symbuf (s : State) : (s.withoutTree).symbuf = s.symbuf := rfl
@[simp] theorem State.withoutTree_bitbuf (s : State) : (s.withoutTree).bitbuf = s.bitbuf := rfl
@[simp] theorem State.withoutTree_outbuf (s : State) : (s.withoutTree).outbuf = s.outbuf := rfl
@[simp] theorem State.withoutTree_inq (s : State) : (s.withoutTree).inq = [] := rfl
@[simp] theorem State.withoutTree_resets (s : State) : (s.withoutTree).resets = s.resets := rfl
@[simp] theorem State.withoutTree_host (s : State) : (s.withoutTree).host = s.host := rfl
@[simp] theorem State.withoutTree_port (s : State) : (s.withoutTree).port = s.port := rfl

/-! ### State.withTree: the new tree -/

@[simp] theorem State.withTree_caps (s : State) (k : Nat) (f : Forest) : (s.withTree k f).caps = s.caps := rfl
@[simp] theorem State.withTree_result (s : State) (k : Nat) (f : Forest) : (s.withTree k f).result = s.result := rfl
@[simp] theorem State.withTree_tv (s : State) (k : Nat) (f : Forest) : (s.withTree k f).tv = true := rfl
@[simp] theorem State.withTree_esticky (s : State) (k : Nat) (f : Forest) : (s.withTree k f).esticky = s.esticky := rfl
@[simp] theorem State.withTree_errinfo (s : State) (k : Nat) (f : Forest) : (s.withTree k f).errinfo = s.errinfo := rfl
@[simp] theorem State.withTree_symlen (s : State) (k : Nat) (f : Forest) : (s.withTree k f).symlen = s.symlen := rfl
@[simp] theorem State.withTree_bitlen (s : State) (k : Nat) (f : Forest) : (s.withTree k f).bitlen = s.bitlen := rfl
@[simp] theorem State.withTree_outlen (s : State) (k : Nat) (f : Forest) : (s.withTree k f).outlen = s.outlen := rfl
@[simp] theorem State.withTree_nsym (s : State) (k : Nat) (f : Forest) : (s.withTree k f).nsym = BitVec.ofNat 9 k := rfl
@[simp] theorem State.withTree_nodecnt (s : State) (k : Nat) (f : Forest) : (s.withTree k f).nodecnt = BitVec.ofNat 10 f.next := rfl
@[simp] theorem State.withTree_root (s : State) (k : Nat) (f : Forest) : (s.withTree k f).root = f.inq.headD 0 := rfl
@[simp] theorem State.withTree_cursor (s : State) (k : Nat) (f : Forest) : (s.withTree k f).cursor = s.cursor := rfl
@[simp] theorem State.withTree_freq (s : State) (k : Nat) (f : Forest) : (s.withTree k f).freq = s.freq := rfl
@[simp] theorem State.withTree_node (s : State) (k : Nat) (f : Forest) : (s.withTree k f).node = f.node := rfl
@[simp] theorem State.withTree_code (s : State) (k : Nat) (f : Forest) : (s.withTree k f).code = s.code := rfl
@[simp] theorem State.withTree_symbuf (s : State) (k : Nat) (f : Forest) : (s.withTree k f).symbuf = s.symbuf := rfl
@[simp] theorem State.withTree_bitbuf (s : State) (k : Nat) (f : Forest) : (s.withTree k f).bitbuf = s.bitbuf := rfl
@[simp] theorem State.withTree_outbuf (s : State) (k : Nat) (f : Forest) : (s.withTree k f).outbuf = s.outbuf := rfl
@[simp] theorem State.withTree_inq (s : State) (k : Nat) (f : Forest) : (s.withTree k f).inq = f.inq := rfl
@[simp] theorem State.withTree_resets (s : State) (k : Nat) (f : Forest) : (s.withTree k f).resets = s.resets := rfl
@[simp] theorem State.withTree_host (s : State) (k : Nat) (f : Forest) : (s.withTree k f).host = s.host := rfl
@[simp] theorem State.withTree_port (s : State) (k : Nat) (f : Forest) : (s.withTree k f).port = s.port := rfl

/-! ### State.answer: the response of the port -/

@[simp] theorem State.answer_caps (s : State) (r : Response) : (s.answer r).caps = s.caps := rfl
@[simp] theorem State.answer_result (s : State) (r : Response) : (s.answer r).result = s.result := rfl
@[simp] theorem State.answer_tv (s : State) (r : Response) : (s.answer r).tv = s.tv := rfl
@[simp] theorem State.answer_esticky (s : State) (r : Response) : (s.answer r).esticky = s.esticky := rfl
@[simp] theorem State.answer_errinfo (s : State) (r : Response) : (s.answer r).errinfo = s.errinfo := rfl
@[simp] theorem State.answer_symlen (s : State) (r : Response) : (s.answer r).symlen = s.symlen := rfl
@[simp] theorem State.answer_bitlen (s : State) (r : Response) : (s.answer r).bitlen = s.bitlen := rfl
@[simp] theorem State.answer_outlen (s : State) (r : Response) : (s.answer r).outlen = s.outlen := rfl
@[simp] theorem State.answer_nsym (s : State) (r : Response) : (s.answer r).nsym = s.nsym := rfl
@[simp] theorem State.answer_nodecnt (s : State) (r : Response) : (s.answer r).nodecnt = s.nodecnt := rfl
@[simp] theorem State.answer_root (s : State) (r : Response) : (s.answer r).root = s.root := rfl
@[simp] theorem State.answer_cursor (s : State) (r : Response) : (s.answer r).cursor = s.cursor := rfl
@[simp] theorem State.answer_freq (s : State) (r : Response) : (s.answer r).freq = s.freq := rfl
@[simp] theorem State.answer_node (s : State) (r : Response) : (s.answer r).node = s.node := rfl
@[simp] theorem State.answer_code (s : State) (r : Response) : (s.answer r).code = s.code := rfl
@[simp] theorem State.answer_symbuf (s : State) (r : Response) : (s.answer r).symbuf = s.symbuf := rfl
@[simp] theorem State.answer_bitbuf (s : State) (r : Response) : (s.answer r).bitbuf = s.bitbuf := rfl
@[simp] theorem State.answer_outbuf (s : State) (r : Response) : (s.answer r).outbuf = s.outbuf := rfl
@[simp] theorem State.answer_inq (s : State) (r : Response) : (s.answer r).inq = s.inq := rfl
@[simp] theorem State.answer_resets (s : State) (r : Response) : (s.answer r).resets = s.resets := rfl
@[simp] theorem State.answer_host (s : State) (r : Response) : (s.answer r).host = s.host := rfl
@[simp] theorem State.answer_port (s : State) (r : Response) : (s.answer r).port = some r := rfl

/-! ### State.presented: one more transaction -/

@[simp] theorem State.presented_caps (s : State) (t : Txn) : (s.presented t).caps = s.caps := rfl
@[simp] theorem State.presented_result (s : State) (t : Txn) : (s.presented t).result = s.result := rfl
@[simp] theorem State.presented_tv (s : State) (t : Txn) : (s.presented t).tv = s.tv := rfl
@[simp] theorem State.presented_esticky (s : State) (t : Txn) : (s.presented t).esticky = s.esticky := rfl
@[simp] theorem State.presented_errinfo (s : State) (t : Txn) : (s.presented t).errinfo = s.errinfo := rfl
@[simp] theorem State.presented_symlen (s : State) (t : Txn) : (s.presented t).symlen = s.symlen := rfl
@[simp] theorem State.presented_bitlen (s : State) (t : Txn) : (s.presented t).bitlen = s.bitlen := rfl
@[simp] theorem State.presented_outlen (s : State) (t : Txn) : (s.presented t).outlen = s.outlen := rfl
@[simp] theorem State.presented_nsym (s : State) (t : Txn) : (s.presented t).nsym = s.nsym := rfl
@[simp] theorem State.presented_nodecnt (s : State) (t : Txn) : (s.presented t).nodecnt = s.nodecnt := rfl
@[simp] theorem State.presented_root (s : State) (t : Txn) : (s.presented t).root = s.root := rfl
@[simp] theorem State.presented_cursor (s : State) (t : Txn) : (s.presented t).cursor = s.cursor := rfl
@[simp] theorem State.presented_freq (s : State) (t : Txn) : (s.presented t).freq = s.freq := rfl
@[simp] theorem State.presented_node (s : State) (t : Txn) : (s.presented t).node = s.node := rfl
@[simp] theorem State.presented_code (s : State) (t : Txn) : (s.presented t).code = s.code := rfl
@[simp] theorem State.presented_symbuf (s : State) (t : Txn) : (s.presented t).symbuf = s.symbuf := rfl
@[simp] theorem State.presented_bitbuf (s : State) (t : Txn) : (s.presented t).bitbuf = s.bitbuf := rfl
@[simp] theorem State.presented_outbuf (s : State) (t : Txn) : (s.presented t).outbuf = s.outbuf := rfl
@[simp] theorem State.presented_inq (s : State) (t : Txn) : (s.presented t).inq = s.inq := rfl
@[simp] theorem State.presented_resets (s : State) (t : Txn) : (s.presented t).resets = s.resets := rfl
@[simp] theorem State.presented_host (s : State) (t : Txn) : (s.presented t).host = t :: s.host := rfl
@[simp] theorem State.presented_port (s : State) (t : Txn) : (s.presented t).port = s.port := rfl

/-! ### State.resetWith: the reset table -/

@[simp] theorem State.resetWith_caps (c : Caps) (n : Nat) (h : List Txn) : (State.resetWith c n h).caps = c := rfl
@[simp] theorem State.resetWith_result (c : Caps) (n : Nat) (h : List Txn) : (State.resetWith c n h).result = none := rfl
@[simp] theorem State.resetWith_tv (c : Caps) (n : Nat) (h : List Txn) : (State.resetWith c n h).tv = false := rfl
@[simp] theorem State.resetWith_esticky (c : Caps) (n : Nat) (h : List Txn) : (State.resetWith c n h).esticky = 0#8 := rfl
@[simp] theorem State.resetWith_errinfo (c : Caps) (n : Nat) (h : List Txn) : (State.resetWith c n h).errinfo = 0#32 := rfl
@[simp] theorem State.resetWith_symlen (c : Caps) (n : Nat) (h : List Txn) : (State.resetWith c n h).symlen = 0#32 := rfl
@[simp] theorem State.resetWith_bitlen (c : Caps) (n : Nat) (h : List Txn) : (State.resetWith c n h).bitlen = 0#32 := rfl
@[simp] theorem State.resetWith_outlen (c : Caps) (n : Nat) (h : List Txn) : (State.resetWith c n h).outlen = 0#32 := rfl
@[simp] theorem State.resetWith_nsym (c : Caps) (n : Nat) (h : List Txn) : (State.resetWith c n h).nsym = 0#9 := rfl
@[simp] theorem State.resetWith_nodecnt (c : Caps) (n : Nat) (h : List Txn) : (State.resetWith c n h).nodecnt = 0#10 := rfl
@[simp] theorem State.resetWith_root (c : Caps) (n : Nat) (h : List Txn) : (State.resetWith c n h).root = 0 := rfl
@[simp] theorem State.resetWith_cursor (c : Caps) (n : Nat) (h : List Txn) : (State.resetWith c n h).cursor = 0 := rfl
@[simp] theorem State.resetWith_freq (c : Caps) (n : Nat) (h : List Txn) : (State.resetWith c n h).freq = FreqTable.empty := rfl
@[simp] theorem State.resetWith_node (c : Caps) (n : Nat) (h : List Txn) : (State.resetWith c n h).node = Arena.blank := rfl
@[simp] theorem State.resetWith_code (c : Caps) (n : Nat) (h : List Txn) : (State.resetWith c n h).code = CodeTable.empty := rfl
@[simp] theorem State.resetWith_symbuf (c : Caps) (n : Nat) (h : List Txn) : (State.resetWith c n h).symbuf = [] := rfl
@[simp] theorem State.resetWith_bitbuf (c : Caps) (n : Nat) (h : List Txn) : (State.resetWith c n h).bitbuf = [] := rfl
@[simp] theorem State.resetWith_outbuf (c : Caps) (n : Nat) (h : List Txn) : (State.resetWith c n h).outbuf = [] := rfl
@[simp] theorem State.resetWith_inq (c : Caps) (n : Nat) (h : List Txn) : (State.resetWith c n h).inq = [] := rfl
@[simp] theorem State.resetWith_resets (c : Caps) (n : Nat) (h : List Txn) : (State.resetWith c n h).resets = n := rfl
@[simp] theorem State.resetWith_host (c : Caps) (n : Nat) (h : List Txn) : (State.resetWith c n h).host = h := rfl
@[simp] theorem State.resetWith_port (c : Caps) (n : Nat) (h : List Txn) : (State.resetWith c n h).port = none := rfl

end Sys2Proof.Machine
end

