-- ==== Sys2Proof/Laws/Decoder.lean ====
section
/-! SUPPORT. What one bit step of DECODE does, and the walk along a path of the tree. -/

namespace Sys2Proof.Machine

/-- The walker after a symbol was written to OUTBUF (R189). -/
def Walker.emitted (w : Walker) (t : Byte) : Walker :=
  { w with
    st := { w.st with
      outbuf := Memory.put w.st.outbuf w.st.outlen.toNat t
      outlen := w.st.outlen + 1#32 } }

/-- Everything emit can do (R189). -/
theorem Walker.emit_cases (w : Walker) (t : Byte) (b : Nat) :
    (w.st.outlen.toNat = w.st.caps.outCap ∧ w.emit t b = w.stop .capacity (BitVec.ofNat 32 b)) ∨
      (w.st.outlen.toNat ≠ w.st.caps.outCap ∧ w.emit t b = .ok (w.emitted t)) := by
  by_cases h : w.st.outlen.toNat = w.st.caps.outCap
  · exact .inl ⟨h, by simp [Walker.emit, h]⟩
  · exact .inr ⟨h, by simp [Walker.emit, h, Walker.emitted]⟩

/-- Everything dec_bit_step can do (R187, R188): move to an internal node; arrive at a leaf with the output full, or emit and
return to the root; at a lone leaf, refuse a 1, find the output full, or emit. -/
theorem decBitStep_cases (b : Nat) (w : Walker) :
    (∃ f l r f' l' r', w.st.node.at w.cur = .internal f l r ∧
      w.st.node.at (if w.st.getBit b then r else l) = .internal f' l' r' ∧
      decBitStep b w = .ok { w with cur := if w.st.getBit b then r else l }) ∨
    (∃ f l r t f', w.st.node.at w.cur = .internal f l r ∧
      w.st.node.at (if w.st.getBit b then r else l) = .leaf t f' ∧ w.st.outlen.toNat = w.st.caps.outCap ∧
      decBitStep b w =
        .raised { w.st with cursor := if w.st.getBit b then r else l } .capacity (BitVec.ofNat 32 b)) ∨
    (∃ f l r t f', w.st.node.at w.cur = .internal f l r ∧
      w.st.node.at (if w.st.getBit b then r else l) = .leaf t f' ∧ w.st.outlen.toNat ≠ w.st.caps.outCap ∧
      decBitStep b w = .ok { w.emitted t with cur := w.st.root }) ∨
    (∃ t f, w.st.node.at w.cur = .leaf t f ∧ w.st.getBit b = true ∧
      decBitStep b w = .raised { w.st with cursor := w.cur } .malformedStream (BitVec.ofNat 32 b)) ∨
    (∃ t f, w.st.node.at w.cur = .leaf t f ∧ w.st.getBit b = false ∧ w.st.outlen.toNat = w.st.caps.outCap ∧
      decBitStep b w = .raised { w.st with cursor := w.cur } .capacity (BitVec.ofNat 32 b)) ∨
    (∃ t f, w.st.node.at w.cur = .leaf t f ∧ w.st.getBit b = false ∧ w.st.outlen.toNat ≠ w.st.caps.outCap ∧
      decBitStep b w = .ok (w.emitted t)) := by
  cases hc : w.st.node.at w.cur with
  | internal f l r =>
    cases hn : w.st.node.at (if w.st.getBit b then r else l) with
    | internal f' l' r' =>
      exact .inl ⟨f, l, r, f', l', r', rfl, hn, by simp [decBitStep, hc, hn]⟩
    | leaf t f' =>
      by_cases ho : w.st.outlen.toNat = w.st.caps.outCap
      · exact .inr (.inl ⟨f, l, r, t, f', rfl, hn, ho, by simp [decBitStep, hc, hn, Walker.emit, ho, Walker.stop]⟩)
      · exact .inr (.inr (.inl ⟨f, l, r, t, f', rfl, hn, ho, by
          simp [decBitStep, hc, hn, Walker.emit, ho, Walker.toRoot, Walker.emitted]⟩))
  | leaf t f =>
    cases hb : w.st.getBit b with
    | true => exact .inr (.inr (.inr (.inl ⟨t, f, rfl, rfl, by simp [decBitStep, hc, hb, Walker.stop]⟩)))
    | false =>
      by_cases ho : w.st.outlen.toNat = w.st.caps.outCap
      · exact .inr (.inr (.inr (.inr (.inl ⟨t, f, rfl, rfl, ho, by
          simp [decBitStep, hc, hb, Walker.emit, ho, Walker.stop]⟩))))
      · exact .inr (.inr (.inr (.inr (.inr ⟨t, f, rfl, rfl, ho, by
          simp [decBitStep, hc, hb, Walker.emit, ho, Walker.emitted]⟩))))

/-- The last step of the body (R190). -/
theorem Walker.finish_cases (w : Walker) :
    (w.cur = w.st.root ∧ w.finish = .ok { w.st with cursor := w.cur }) ∨
      (w.cur ≠ w.st.root ∧ w.finish = .raised { w.st with cursor := w.cur } .malformedStream w.st.bitlen) := by
  by_cases h : w.cur = w.st.root
  · exact .inl ⟨h, by simp [Walker.finish, h]⟩
  · exact .inr ⟨h, by simp [Walker.finish, h]⟩

/-- A path splits where its bits do (R105). -/
theorem descend_append (a : Arena) (i : NodeIx) (p q : BitString) :
    descend a i (p ++ q) = (descend a i p).bind (fun j => descend a j q) := by
  induction p generalizing i with
  | nil => rfl
  | cons b p ih =>
    cases h : a.at i with
    | leaf c f => simp [descend, h]
    | internal f l r => simp [descend, h, ih]

/-- What DECODE has decoded when `cs` has been emitted and nothing of the rest of the state has changed but OUTLEN and
OUTBUF (R191). -/
def State.hasDecoded (s w : State) (cs : List Byte) : Prop :=
  w = { s with outlen := w.outlen, outbuf := w.outbuf } ∧ w.outlen.toNat = cs.length ∧ w.output = cs ∧
    ∀ a, cs.length ≤ a → w.outByte a = s.outByte a

theorem State.hasDecoded_nil (s : State) : s.hasDecoded { s with outlen := 0#32 } [] :=
  ⟨rfl, rfl, rfl, fun _ _ => rfl⟩

/-- One more symbol is emitted. -/
theorem State.hasDecoded_snoc {s : State} {w : Walker} {cs : List Byte} (t : Byte) (h : s.hasDecoded w.st cs)
    (hlt : cs.length + 1 < 2 ^ 32) : s.hasDecoded (w.emitted t).st (cs ++ [t]) := by
  obtain ⟨h1, h2, h3, h4⟩ := h
  have hlen : (w.emitted t).st.outlen.toNat = cs.length + 1 := by
    simp only [Walker.emitted, BitVec.toNat_add, h2]
    exact Nat.mod_eq_of_lt (by simpa using hlt)
  have hbyte : ∀ a, (w.emitted t).st.outByte a = if a = cs.length then t else w.st.outByte a := by
    intro a
    rw [← h2]
    exact Memory.byteAt_put _ _ _ _ _ _
  refine ⟨?_, by rw [hlen]; simp, ?_, ?_⟩
  · simp only [Walker.emitted]
    rw [h1]
  · unfold State.output
    rw [hlen, List.range_succ, List.map_append, List.map_singleton, hbyte, if_pos rfl]
    congr 1
    refine Eq.trans ?_ h3
    unfold State.output
    rw [h2]
    refine List.map_congr_left (fun a ha => ?_)
    rw [hbyte, if_neg (by have := List.mem_range.mp ha; omega)]
  · intro a ha
    rw [List.length_append, List.length_singleton] at ha
    rw [hbyte, if_neg (by omega)]
    exact h4 a (by omega)

/-- The payload bits from bit `b` on are `p`. -/
def State.bitsAt (s : State) (b : Nat) (p : BitString) : Prop := ∀ n v, p[n]? = some v → s.getBit (b + n) = v

theorem State.bitsAt_cons {s : State} {b : Nat} {v : Bool} {p : BitString} :
    s.bitsAt b (v :: p) ↔ s.getBit b = v ∧ s.bitsAt (b + 1) p := by
  constructor
  · intro h
    refine ⟨h 0 v rfl, fun n u hu => ?_⟩
    have := h (n + 1) u (by simpa using hu)
    rwa [show b + 1 + n = b + (n + 1) by omega]
  · rintro ⟨h, hp⟩ n u hu
    cases n with
    | zero =>
      simp only [List.getElem?_cons_zero, Option.some.injEq] at hu
      rw [← hu]
      exact h
    | succ n =>
      have := hp n u (by simpa using hu)
      rwa [show b + (n + 1) = b + 1 + n by omega]

theorem State.bitsAt_append {s : State} {b : Nat} {p q : BitString} :
    s.bitsAt b (p ++ q) ↔ s.bitsAt b p ∧ s.bitsAt (b + p.length) q := by
  induction p generalizing b with
  | nil => simp [State.bitsAt]
  | cons v p ih =>
    rw [List.cons_append, State.bitsAt_cons, State.bitsAt_cons, ih, and_assoc, List.length_cons,
      show b + 1 + p.length = b + (p.length + 1) by omega]

/-- The payload bits are the payload (R75). -/
theorem State.bitsAt_payload {s : State} {p : BitString} (h : s.payload = p) : s.bitsAt 0 p := by
  subst h
  intro n v hv
  obtain ⟨hn, rfl⟩ := List.getElem?_eq_some_iff.mp hv
  simp [State.payload]

/-- The walk along a path that ends at an internal node: the cursor moves there and nothing is emitted (R187). -/
theorem forRange_decBitStep_descend {w0 w : Walker} {b : Nat} {p : BitString} {j : NodeIx}
    (hw : forRange decBitStep b w0 = .ok w) (hbits : w.st.bitsAt b p) (hd : descend w.st.node w.cur p = some j)
    (hj : internalRoot w.st.node j) : forRange decBitStep (b + p.length) w0 = .ok { w with cur := j } := by
  induction p generalizing b w with
  | nil =>
    injection hd with hd
    subst hd
    exact hw
  | cons v p ih =>
    obtain ⟨hb, hbits⟩ := State.bitsAt_cons.mp hbits
    cases hc : w.st.node.at w.cur with
    | leaf t f => simp [descend, hc] at hd
    | internal f l r =>
      simp only [descend, hc] at hd
      have hn : internalRoot w.st.node (if v then r else l) := by
        cases p with
        | nil =>
          injection hd with hd
          rw [hd]
          exact hj
        | cons u p =>
          cases hn : w.st.node.at (if v then r else l) with
          | leaf t f => simp [descend, hn] at hd
          | internal f l r => exact ⟨f, l, r, hn⟩
      obtain ⟨f', l', r', hn⟩ := hn
      have hstep : forRange decBitStep (b + 1) w0 = .ok { w with cur := if v then r else l } := by
        rw [forRange_succ, hw, Run.andThen_ok]
        simp [decBitStep, hc, hb, hn]
      have := ih hstep hbits hd hj
      rwa [List.length_cons, show b + (p.length + 1) = b + 1 + p.length by omega]

/-- A path that leads from an internal node to a leaf is a path to an internal node and one bit more. -/
theorem descend_leaf_split {a : Arena} {i j : NodeIx} {p : BitString} {t : Byte} {f : NodeFreq}
    (hi : internalRoot a i) (hd : descend a i p = some j) (hj : a.at j = .leaf t f) :
    ∃ q v k fr l r, p = q ++ [v] ∧ descend a i q = some k ∧ a.at k = .internal fr l r ∧ j = if v then r else l := by
  induction p generalizing i with
  | nil =>
    injection hd with hd
    subst hd
    obtain ⟨f', l, r, hi⟩ := hi
    rw [hi] at hj
    cases hj
  | cons v p ih =>
    obtain ⟨f', l, r, hi⟩ := hi
    simp only [descend, hi] at hd
    cases p with
    | nil =>
      injection hd with hd
      exact ⟨[], v, i, f', l, r, rfl, rfl, hi, hd.symm⟩
    | cons u p =>
      have hn : internalRoot a (if v then r else l) := by
        cases hn : a.at (if v then r else l) with
        | leaf t f => simp [descend, hn] at hd
        | internal f l r => exact ⟨f, l, r, hn⟩
      obtain ⟨q, x, k, fr, l', r', hp, hq, hk, hj'⟩ := ih hn hd
      refine ⟨v :: q, x, k, fr, l', r', by rw [hp, List.cons_append], ?_, hk, hj'⟩
      simp only [descend, hi]
      exact hq

/-- The walk along a path from an internal root to a leaf: its symbol is emitted and the cursor returns to the root (R187). -/
theorem forRange_decBitStep_leaf {w0 w : Walker} {b : Nat} {p : BitString} {j : NodeIx} {t : Byte} {f : NodeFreq}
    (hw : forRange decBitStep b w0 = .ok w) (hbits : w.st.bitsAt b p) (hi : internalRoot w.st.node w.cur)
    (hd : descend w.st.node w.cur p = some j) (hj : w.st.node.at j = .leaf t f)
    (ho : w.st.outlen.toNat ≠ w.st.caps.outCap) :
    forRange decBitStep (b + p.length) w0 = .ok { w.emitted t with cur := w.st.root } := by
  obtain ⟨q, v, k, fr, l, r, rfl, hq, hk, rfl⟩ := descend_leaf_split hi hd hj
  obtain ⟨hb1, hb2⟩ := State.bitsAt_append.mp hbits
  have hb3 := (State.bitsAt_cons.mp hb2).1
  have := forRange_decBitStep_descend hw hb1 hq ⟨fr, l, r, hk⟩
  rw [List.length_append, List.length_singleton, ← Nat.add_assoc, forRange_succ, this, Run.andThen_ok]
  simp [decBitStep, hk, hb3, hj, Walker.emit, ho, Walker.toRoot, Walker.emitted]

/-- The walk along a path to a leaf when the output is full: CapacityError at the last bit, the cursor at the leaf (R189). -/
theorem forRange_decBitStep_full {w0 w : Walker} {b : Nat} {p : BitString} {j : NodeIx} {t : Byte} {f : NodeFreq}
    (hw : forRange decBitStep b w0 = .ok w) (hbits : w.st.bitsAt b p) (hi : internalRoot w.st.node w.cur)
    (hd : descend w.st.node w.cur p = some j) (hj : w.st.node.at j = .leaf t f)
    (ho : w.st.outlen.toNat = w.st.caps.outCap) :
    forRange decBitStep (b + p.length) w0 =
      .raised { w.st with cursor := j } .capacity (BitVec.ofNat 32 (b + p.length - 1)) := by
  obtain ⟨q, v, k, fr, l, r, rfl, hq, hk, rfl⟩ := descend_leaf_split hi hd hj
  obtain ⟨hb1, hb2⟩ := State.bitsAt_append.mp hbits
  have hb3 := (State.bitsAt_cons.mp hb2).1
  have := forRange_decBitStep_descend hw hb1 hq ⟨fr, l, r, hk⟩
  rw [List.length_append, List.length_singleton, ← Nat.add_assoc, forRange_succ, this, Run.andThen_ok]
  simp [decBitStep, hk, hb3, hj, Walker.emit, ho, Walker.stop]

/-- An error that ended a loop early ends every longer loop the same way. -/
theorem forRange_raised_mono {σ : Type} {body : Nat → σ → Run σ} {m n : Nat} {s : σ} {t : State} {e : ErrorKind}
    {info : Word} (h : forRange body m s = .raised t e info) (hmn : m ≤ n) :
    forRange body n s = .raised t e info := by
  induction n with
  | zero =>
    have : m = 0 := by omega
    subst this
    exact h
  | succ n ih =>
    by_cases hm : m = n + 1
    · subst hm
      exact h
    · rw [forRange_succ, ih (by omega), Run.andThen_raised]

/-- The loop of DECODE over bits that spell the symbols `cs`, from the root: they are emitted and the cursor is at the root
again (R187, R188, R191). -/
theorem forRange_decBitStep_spells {s : State} {w0 w : Walker} {b : Nat} {p : BitString} {cs ds : List Byte}
    (hw : forRange decBitStep b w0 = .ok w) (hd : s.hasDecoded w.st ds) (hcur : w.cur = s.root)
    (hbits : s.bitsAt b p) (hsp : spells s.node s.root cs p) (hcap : ds.length + cs.length ≤ s.caps.outCap)
    (hlt : s.caps.outCap < 2 ^ 32) :
    ∃ v, forRange decBitStep (b + p.length) w0 = .ok v ∧ s.hasDecoded v.st (ds ++ cs) ∧ v.cur = s.root := by
  induction cs generalizing b w p ds with
  | nil =>
    have : p = [] := hsp
    subst this
    exact ⟨w, hw, by simpa using hd, hcur⟩
  | cons c cs ih =>
    obtain ⟨q, r, rfl, hc, hsp⟩ := hsp
    obtain ⟨hb1, hb2⟩ := State.bitsAt_append.mp hbits
    rw [List.length_cons] at hcap
    have hroot : w.st.root = s.root := by rw [hd.1]
    have hnode : w.st.node = s.node := by rw [hd.1]
    have hcaps : w.st.caps = s.caps := by rw [hd.1]
    have hget : ∀ n, w.st.getBit n = s.getBit n := fun n => by rw [hd.1]; rfl
    have ho : w.st.outlen.toNat ≠ w.st.caps.outCap := by
      rw [hd.2.1, hcaps]
      omega
    have hnext : ∃ v, forRange decBitStep (b + q.length) w0 = .ok v ∧ s.hasDecoded v.st (ds ++ [c]) ∧
        v.cur = s.root := by
      unfold codeword at hc
      cases hr : s.node.at s.root with
      | leaf d f =>
        simp only [hr] at hc
        obtain ⟨rfl, rfl⟩ := hc
        refine ⟨w.emitted d, ?_, State.hasDecoded_snoc d hd (by omega), hcur⟩
        have hzero : s.getBit b = false := (State.bitsAt_cons.mp hb1).1
        rw [List.length_singleton, forRange_succ, hw, Run.andThen_ok]
        simp [decBitStep, hcur, hnode, hr, hget, hzero, Walker.emit, ho, Walker.emitted]
      | internal f l r =>
        simp only [hr] at hc
        obtain ⟨j, g, hj, hleaf⟩ := hc
        refine ⟨{ w.emitted c with cur := w.st.root }, ?_, State.hasDecoded_snoc c hd (by omega), hroot⟩
        refine forRange_decBitStep_leaf (j := j) (f := g) hw (fun n v hv => ?_) ?_ ?_ ?_ ho
        · rw [hget]
          exact hb1 n v hv
        · rw [hcur, hnode]
          exact ⟨f, l, r, hr⟩
        · rw [hcur, hnode]
          exact hj
        · rw [hnode]
          exact hleaf
    obtain ⟨v, hv, hdv, hcv⟩ := hnext
    obtain ⟨u, hu, hdu, hcu⟩ := ih hv hdv hcv hb2 hsp (by rw [List.length_append, List.length_singleton]; omega)
    refine ⟨u, ?_, by simpa using hdu, hcu⟩
    rwa [List.length_append, ← Nat.add_assoc]

end Sys2Proof.Machine
end

