-- ==== Sys2Proof/Laws/Encoder.lean ====
section
/-! SUPPORT. What the bit packer and one symbol step of ENCODE do. -/

namespace Sys2Proof.Machine

/-- The padding bits of the last payload byte are 0 (R75). -/
def State.padded (s : State) : Prop :=
  ∀ n, s.bitlen.toNat ≤ n → n < 8 * bytesFor s.bitlen.toNat → s.getBit n = false

@[simp] theorem State.payload_length (s : State) : s.payload.length = s.bitlen.toNat := by simp [State.payload]

/-- Bit `payloadBit m` of the byte `v << (7 - n mod 8)`: only the bit of `n` itself can be set (R172). -/
theorem bitInByte_getLsbD (v : Bool) (n m : Nat) :
    (bitInByte v n).getLsbD (payloadBit m) = (v && decide (m % 8 = n % 8)) := by
  have hn : n % 8 < 8 := Nat.mod_lt _ (by decide)
  have hm : m % 8 < 8 := Nat.mod_lt _ (by decide)
  unfold bitInByte payloadBit
  generalize n % 8 = a at *
  generalize m % 8 = b at *
  revert v
  revert hn hm
  revert a b
  have : ∀ a : Fin 8, ∀ b : Fin 8, ∀ v : Bool,
      ((if v then 1#8 else 0#8) <<< (7 - a.val)).getLsbD (7 - b.val) = (v && decide (b.val = a.val)) := by decide
  intro a b ha hb v
  exact this ⟨a, ha⟩ ⟨b, hb⟩ v

/-- Everything pack_bit does (R172): the bit is appended, the padding stays 0, one byte of BITBUF is written. -/
theorem packBit_spec (s : State) (v : Bool) (hp : s.padded) (hlt : s.bitlen.toNat + 1 < 2 ^ 32) :
    (packBit s v).bitlen.toNat = s.bitlen.toNat + 1 ∧
    (∀ n, n < s.bitlen.toNat → (packBit s v).getBit n = s.getBit n) ∧
    (packBit s v).getBit s.bitlen.toNat = v ∧ (packBit s v).padded ∧
    (∀ a, a ≠ s.bitlen.toNat / 8 → (packBit s v).bitByte a = s.bitByte a) := by
  have hlen : (packBit s v).bitlen.toNat = s.bitlen.toNat + 1 := by
    simp only [packBit, BitVec.toNat_add]
    exact Nat.mod_eq_of_lt (by simpa using hlt)
  have hother : ∀ a, a ≠ s.bitlen.toNat / 8 → (packBit s v).bitByte a = s.bitByte a := by
    intro a ha
    exact Memory.byteAt_put_other _ _ _ _ _ _ ha
  have hself : (packBit s v).bitByte (s.bitlen.toNat / 8) =
      ((if s.bitlen.toNat % 8 = 0 then 0#8 else s.bitByte (s.bitlen.toNat / 8)) ||| bitInByte v s.bitlen.toNat) :=
    Memory.byteAt_put_self _ _ _ _ _
  have hbit : ∀ n, n / 8 = s.bitlen.toNat / 8 → (packBit s v).getBit n =
      ((if s.bitlen.toNat % 8 = 0 then false else s.getBit n) ||
        (v && decide (n % 8 = s.bitlen.toNat % 8))) := by
    intro n hn
    simp only [State.getBit, payloadByte, hn, hself, BitVec.getLsbD_or, bitInByte_getLsbD]
    split <;> simp
  refine ⟨hlen, ?_, ?_, ?_, hother⟩
  · intro n hn
    by_cases h : n / 8 = s.bitlen.toNat / 8
    · rw [hbit n h]
      have h1 : s.bitlen.toNat % 8 ≠ 0 := by omega
      have h2 : ¬ n % 8 = s.bitlen.toNat % 8 := by omega
      simp [h1, h2]
    · simp only [State.getBit, payloadByte, hother _ h]
  · rw [hbit _ rfl]
    by_cases h : s.bitlen.toNat % 8 = 0
    · simp [h]
    · have := hp s.bitlen.toNat (Nat.le_refl _) (by unfold bytesFor; omega)
      simp [h, this]
  · intro n h1 h2
    rw [hlen] at h1 h2
    have h3 : n / 8 = s.bitlen.toNat / 8 := by unfold bytesFor at h2; omega
    rw [hbit n h3]
    have h4 : ¬ n % 8 = s.bitlen.toNat % 8 := by omega
    by_cases h : s.bitlen.toNat % 8 = 0
    · simp [h]
      omega
    · have := hp n (by omega) (by unfold bytesFor at *; omega)
      simp [h, h4, this]

/-- pack_bit writes BITLEN and BITBUF and nothing else (R172). -/
theorem packBit_frame (s : State) (v : Bool) :
    packBit s v = { s with bitlen := (packBit s v).bitlen, bitbuf := (packBit s v).bitbuf } := rfl

/-- pack_bit keeps BITBUF canonical and within its capacity when its byte is (R172: "The index q is below BIT_CAP"). -/
theorem packBit_within (s : State) (v : Bool) (cap : Nat) (h : s.bitlen.toNat < 8 * cap)
    (hw : Memory.within s.bitbuf cap) : Memory.within (packBit s v).bitbuf cap :=
  Memory.put_within _ _ (by unfold payloadByte; omega) hw

/-- Packing the bits `p` (R171): they are appended to the payload, the padding stays 0, and only bytes of the payload are
written. -/
theorem packBits_spec (p : BitString) (s : State) (hp : s.padded) (hlt : s.bitlen.toNat + p.length < 2 ^ 32) :
    (p.foldl packBit s).bitlen.toNat = s.bitlen.toNat + p.length ∧
    (p.foldl packBit s).payload = s.payload ++ p ∧ (p.foldl packBit s).padded ∧
    (∀ a, bytesFor (s.bitlen.toNat + p.length) ≤ a → (p.foldl packBit s).bitByte a = s.bitByte a) ∧
    p.foldl packBit s =
      { s with bitlen := (p.foldl packBit s).bitlen, bitbuf := (p.foldl packBit s).bitbuf } := by
  induction p generalizing s with
  | nil => simp [hp]
  | cons v p ih =>
    simp only [List.length_cons] at hlt
    obtain ⟨h1, h2, h3, h4, h5⟩ := packBit_spec s v hp (by omega)
    obtain ⟨i1, i2, i3, i4, i5⟩ := ih (packBit s v) h4 (by omega)
    rw [List.foldl_cons]
    refine ⟨by rw [i1, h1, List.length_cons]; omega, ?_, i3, ?_, ?_⟩
    · have : (packBit s v).payload = s.payload ++ [v] := by
        unfold State.payload
        rw [h1, List.range_succ, List.map_append, List.map_singleton, h3]
        congr 1
        exact List.map_congr_left (fun n hn => h2 n (List.mem_range.mp hn))
      rw [i2, this, List.append_assoc, List.singleton_append]
    · intro a ha
      rw [List.length_cons] at ha
      rw [i4 a (by rw [h1]; unfold bytesFor at *; omega)]
      exact h5 a (by unfold bytesFor at ha; omega)
    · rw [i5]
      rw [packBit_frame s v]

/-- Packing bits that fit keeps BITBUF canonical and within its capacity. -/
theorem packBits_within (p : BitString) (s : State) (cap : Nat) (hlt : s.bitlen.toNat + p.length < 2 ^ 32)
    (h : s.bitlen.toNat + p.length ≤ 8 * cap) (hw : Memory.within s.bitbuf cap) :
    Memory.within (p.foldl packBit s).bitbuf cap := by
  induction p generalizing s with
  | nil => exact hw
  | cons v p ih =>
    simp only [List.length_cons] at hlt h
    have h1 : (packBit s v).bitlen.toNat = s.bitlen.toNat + 1 := by
      simp only [packBit, BitVec.toNat_add]
      exact Nat.mod_eq_of_lt (by simp; omega)
    exact ih (packBit s v) (by omega) (by omega) (packBit_within s v cap (by omega) hw)

/-- Everything one symbol step of ENCODE can do (R171). -/
theorem encSymStep_cases (i : Nat) (s : State) :
    (s.code.at (s.symByte i) = none ∧ encSymStep i s = .raised s .missingCode (BitVec.ofNat 32 i)) ∨
    (∃ p, s.code.at (s.symByte i) = some p ∧ s.caps.payloadBits < s.bitlen.toNat + p.length ∧
      encSymStep i s = .raised s .capacity (BitVec.ofNat 32 i)) ∨
    (∃ p, s.code.at (s.symByte i) = some p ∧ s.bitlen.toNat + p.length ≤ s.caps.payloadBits ∧
      encSymStep i s = .ok (p.foldl packBit s)) := by
  unfold encSymStep
  cases h : s.code.at (s.symByte i) with
  | none => exact .inl ⟨rfl, rfl⟩
  | some p =>
    by_cases hc : s.caps.payloadBits < s.bitlen.toNat + p.length
    · exact .inr (.inl ⟨p, rfl, hc, by simp [hc]⟩)
    · exact .inr (.inr ⟨p, rfl, by omega, by simp [hc]⟩)

/-- The state of a loop of ENCODE in which the codes of the symbols `cs` have been packed (R173). -/
def State.hasPacked (s w : State) (cs : List Byte) : Prop :=
  w = { s with bitlen := w.bitlen, bitbuf := w.bitbuf } ∧ w.bitlen.toNat = (s.codesOf cs).length ∧
    w.payload = s.codesOf cs ∧ w.padded ∧ ∀ a, bytesFor w.bitlen.toNat ≤ a → w.bitByte a = s.bitByte a

/-- At the start of the body nothing has been packed. -/
theorem State.hasPacked_nil (s : State) : s.hasPacked { s with bitlen := 0#32 } [] :=
  ⟨rfl, rfl, rfl, fun n _ h => absurd h (by simp [bytesFor]), fun _ _ => rfl⟩

/-- One more symbol with a code that fits is packed. -/
theorem State.hasPacked_snoc {s w : State} {cs : List Byte} {c : Byte} {p : BitString} (h : s.hasPacked w cs)
    (hc : s.code.at c = some p) (hlt : (s.codesOf cs).length + p.length < 2 ^ 32) :
    s.hasPacked (p.foldl packBit w) (cs ++ [c]) := by
  obtain ⟨h1, h2, h3, h4, h5⟩ := h
  obtain ⟨i1, i2, i3, i4, i5⟩ := packBits_spec p w h4 (by rw [h2]; exact hlt)
  have hcodes : s.codesOf (cs ++ [c]) = s.codesOf cs ++ p := by
    simp [State.codesOf, State.codeBits, hc]
  refine ⟨?_, ?_, ?_, i3, ?_⟩
  · rw [i5]
    rw [h1]
  · rw [i1, hcodes, List.length_append, h2]
  · rw [i2, hcodes, h3]
  · intro a ha
    rw [i1] at ha
    rw [i4 a ha]
    exact h5 a (by unfold bytesFor at *; omega)

/-- The total length of the codes of the first symbols does not shrink as more are taken. -/
theorem State.codesOf_take_le (s : State) (cs : List Byte) {i j : Nat} (h : i ≤ j) :
    (s.codesOf (cs.take i)).length ≤ (s.codesOf (cs.take j)).length := by
  have : cs.take i = (cs.take j).take i := by rw [List.take_take, Nat.min_eq_left h]
  have hsplit : cs.take j = cs.take i ++ (cs.take j).drop i := by
    rw [this]
    exact (List.take_append_drop i _).symm
  rw [hsplit]
  unfold State.codesOf
  rw [List.flatMap_append, List.length_append]
  omega

/-- The first `i + 1` input symbols are the first `i` and SYMBUF[i] (R28). -/
theorem State.input_take_succ (s : State) {i : Nat} (h : i < s.symlen.toNat) :
    s.input.take (i + 1) = s.input.take i ++ [s.symByte i] := by
  rw [List.take_succ_eq_append_getElem (by simp [State.input, h])]
  simp [State.input]

/-- The loop of ENCODE over the first `i` symbols, when all have codes and the codes fit: it goes on, and exactly those codes
are packed (R173). -/
theorem forRange_encSymStep (s : State) (i : Nat) (hi : i ≤ s.symlen.toNat)
    (hcodes : ∀ j, j < i → (s.code.at (s.symByte j)).isSome = true)
    (hfit : (s.codesOf (s.input.take i)).length ≤ 8 * s.caps.bitCap) (hcap : 8 * s.caps.bitCap ≤ 2 ^ 31) :
    ∃ w, forRange encSymStep i { s with bitlen := 0#32 } = .ok w ∧ s.hasPacked w (s.input.take i) := by
  induction i with
  | zero => exact ⟨_, rfl, State.hasPacked_nil s⟩
  | succ i ih =>
    have hle := s.codesOf_take_le s.input (Nat.le_add_right i 1)
    obtain ⟨w, hw, hp⟩ := ih (by omega) (fun j hj => hcodes j (by omega)) (by omega)
    obtain ⟨p, hcode⟩ := Option.isSome_iff_exists.mp (hcodes i (by omega))
    rw [s.input_take_succ (by omega)] at hfit ⊢
    have hlen : (s.codesOf (s.input.take i ++ [s.symByte i])).length =
        (s.codesOf (s.input.take i)).length + p.length := by
      simp [State.codesOf, State.codeBits, hcode]
    rw [hlen] at hfit
    have hcode' : w.code.at (w.symByte i) = some p := by
      rw [hp.1]
      exact hcode
    have hcaps : w.caps = s.caps := by rw [hp.1]
    refine ⟨p.foldl packBit w, ?_, State.hasPacked_snoc hp hcode (by omega)⟩
    rw [forRange_succ, hw, Run.andThen_ok]
    rcases encSymStep_cases i w with ⟨hn, -⟩ | ⟨q, hq, hlt, -⟩ | ⟨q, hq, -, hs⟩
    · rw [hn] at hcode'
      cases hcode'
    · rw [hq] at hcode'
      injection hcode' with hcode'
      subst hcode'
      rw [hp.2.1, hcaps, Caps.payloadBits] at hlt
      omega
    · rw [hq] at hcode'
      injection hcode' with hcode'
      subst hcode'
      exact hs

end Sys2Proof.Machine
end

