-- ==== Sys2Proof/Laws/Forest.lean ====
section
/-! SUPPORT. The invariant of the merge loop of BUILD, its start and its step: at every moment the arena below the next free
index is a forest whose roots are the queue (R140 to R145, R148). -/

namespace Sys2Proof.Machine

/-! ### Leaf sums -/

/-- Below `n`, the children of an internal node have smaller indices than the node (R148 b). -/
def Arena.downward (a : Arena) (n : Nat) : Prop :=
  ∀ j : NodeIx, j.val < n → ∀ f l r, a.at j = .internal f l r → l.val < j.val ∧ r.val < j.val

/-- With enough levels, and the same records below, the leaf sum is the same. -/
theorem leafSum_congr {a b : Arena} {n : Nat} (hd : a.downward n)
    (hab : ∀ j : NodeIx, j.val < n → b.at j = a.at j) :
    ∀ (m : Nat) (i : NodeIx), i.val = m → i.val < n → ∀ g h, i.val < g → i.val < h → leafSum g b i = leafSum h a i := by
  intro m
  induction m using Nat.strong_induction_on with
  | _ m ih =>
    intro i him hin g h hg hh
    cases g with
    | zero => omega
    | succ g =>
      cases h with
      | zero => omega
      | succ h =>
        cases hi : a.at i with
        | leaf c f => simp [leafSum, hi, hab i hin]
        | internal f l r =>
          obtain ⟨hl, hr⟩ := hd i hin f l r hi
          have e1 := ih l.val (by omega) l rfl (by omega) g h (by omega) (by omega)
          have e2 := ih r.val (by omega) r rfl (by omega) g h (by omega) (by omega)
          simp [leafSum, hi, hab i hin, e1, e2]

/-! ### The invariant -/

/-- The invariant of the merge loop with `k` leaves and total count `total`. -/
structure ForestInv (k total : Nat) (f : Forest) : Prop where
  one_le : 1 ≤ k
  le_256 : k ≤ 256
  lower : k ≤ f.next
  /-- Each merge makes one node and takes one from the queue (R144). -/
  count : f.next + f.inq.length = 2 * k
  nonempty : f.inq ≠ []
  nodup : f.inq.Nodup
  below : ∀ i ∈ f.inq, i.val < f.next
  leaves : ∀ i, i < k → ∃ c g, f.node.nth i = .leaf c g ∧ 1 ≤ g.toNat ∧ g.toNat ≤ 2 ^ 32 - 1
  ascending : ∀ i j c d g h, i < j → j < k → f.node.nth i = .leaf c g → f.node.nth j = .leaf d h → c < d
  internals : ∀ i, k ≤ i → i < f.next → ∃ g l r, f.node.nth i = .internal g l r ∧ l.val < i ∧ r.val < i ∧ l ≠ r
  /-- The roots of the forest are the elements of the queue. -/
  roots : ∀ j : NodeIx, j.val < f.next →
    (j ∈ f.inq ↔ ∀ m, k ≤ m → m < f.next → (f.node.nth m).hasChild j = false)
  parent : ∀ (j : NodeIx) (m n : Nat), k ≤ m → m < f.next → k ≤ n → n < f.next → (f.node.nth m).hasChild j = true →
    (f.node.nth n).hasChild j = true → m = n
  sums : ∀ i, i < f.next → (f.node.nth i).freq.toNat = leafSum 511 f.node (NodeIx.ofNumber i)
  total_eq : (f.inq.map (fun i => (f.node.at i).freq.toNat)).sum = total
  total_le : total ≤ 256 * (2 ^ 32 - 1)

namespace ForestInv

variable {k total : Nat} {f : Forest}

theorem next_lt (h : ForestInv k total f) : f.next < 2 * k := by
  have := h.count
  have := List.length_pos_iff.mpr h.nonempty
  omega

theorem downward (h : ForestInv k total f) : f.node.downward f.next := by
  intro j hj g l r hjr
  have hjr' : f.node.nth j.val = .internal g l r := by rw [Arena.nth_val]; exact hjr
  by_cases hk : j.val < k
  · obtain ⟨c, e, hc, -⟩ := h.leaves j.val hk
    rw [hc] at hjr'
    cases hjr'
  · obtain ⟨g', l', r', hi, hl, hr, -⟩ := h.internals j.val (by omega) hj
    rw [hi] at hjr'
    injection hjr' with e1 e2 e3
    subst e2 e3
    exact ⟨hl, hr⟩

end ForestInv

theorem Node.hasChild_internal {g : NodeFreq} {l r j : NodeIx} :
    (Node.internal g l r).hasChild j = true ↔ l = j ∨ r = j := by simp [Node.hasChild]

/-- One merge keeps the invariant (R144, R148). -/
theorem ForestInv.mergeStep {k total : Nat} {f : Forest} (h : ForestInv k total f) (h2 : 2 ≤ f.inq.length) :
    ForestInv k total (mergeStep f) ∧ (Machine.mergeStep f).next = f.next + 1 := by
  have hcount := h.count
  have hlt := h.next_lt
  have h256 := h.le_256
  have hlow := h.lower
  have hcap : f.next < 511 := by omega
  obtain ⟨a, b, ha, hb, hab, -, -, hstep⟩ := mergeStep_spec f h2 h.nodup
  rw [hstep]
  have hanext := h.below a ha
  have hbnext := h.below b hb
  generalize hn : Node.internal ((f.node.at a).freq + (f.node.at b).freq) a b = n
  generalize hg : ({ f with inq := (f.inq.erase a).erase b } : Forest) = g
  have gnext : g.next = f.next := by rw [← hg]
  have gnode : g.node = f.node := by rw [← hg]
  have ginq : g.inq = (f.inq.erase a).erase b := by rw [← hg]
  have hself : (g.insert n).node.nth f.next = n := by
    rw [← gnext]
    exact g.insert_nth_self n
  have hother : ∀ i, i < 511 → i ≠ f.next → (g.insert n).node.nth i = f.node.nth i := by
    intro i hi hne
    rw [← gnode]
    exact g.insert_nth_other n hi (by omega) (by omega)
  have hotherAt : ∀ j : NodeIx, j.val ≠ f.next → (g.insert n).node.at j = f.node.at j := by
    intro j hne
    rw [← gnode]
    exact g.insert_at_other n (by omega) (by omega)
  have hnext : (g.insert n).next = f.next + 1 := by
    show g.next + 1 = f.next + 1
    rw [gnext]
  have hinq : (g.insert n).inq = (f.inq.erase a).erase b ++ [NodeIx.ofNumber f.next] := by
    show g.inq ++ [NodeIx.ofNumber g.next] = _
    rw [gnext, ginq]
  have hnew : (NodeIx.ofNumber f.next).val = f.next := NodeIx.ofNumber_val hcap
  have hbe : b ∈ f.inq.erase a := (h.nodup.mem_erase_iff).mpr ⟨hab.symm, hb⟩
  have hmem : ∀ j : NodeIx, j ∈ (f.inq.erase a).erase b ↔ j ≠ b ∧ j ≠ a ∧ j ∈ f.inq := by
    intro j
    rw [(h.nodup.erase a).mem_erase_iff, h.nodup.mem_erase_iff]
  have hchild : ∀ j : NodeIx, n.hasChild j = true ↔ a = j ∨ b = j := by
    intro j
    rw [← hn]
    exact Node.hasChild_internal
  have hsumlist : (f.node.at a).freq.toNat + ((f.node.at b).freq.toNat +
      (((f.inq.erase a).erase b).map (fun i => (f.node.at i).freq.toNat)).sum) = total := by
    rw [← h.total_eq, ← List.sum_map_erase (fun i => (f.node.at i).freq.toNat) ha,
      ← List.sum_map_erase (fun i => (f.node.at i).freq.toNat) hbe]
  have hfreq : n.freq.toNat = (f.node.at a).freq.toNat + (f.node.at b).freq.toNat := by
    rw [← hn, Node.freq_internal, BitVec.toNat_add]
    refine Nat.mod_eq_of_lt ?_
    have := h.total_le
    omega
  have hdown := h.downward
  have hleafsum : ∀ j : NodeIx, j.val < f.next → ∀ d, j.val < d →
      leafSum d (g.insert n).node j = leafSum 511 f.node j := by
    intro j hj d hd
    exact leafSum_congr hdown (fun i hi => hotherAt i (by omega)) j.val j rfl hj d 511 hd j.isLt
  refine ⟨{ one_le := h.one_le, le_256 := h.le_256, lower := by omega, count := ?_, nonempty := ?_, nodup := ?_,
            below := ?_, leaves := ?_, ascending := ?_, internals := ?_, roots := ?_, parent := ?_, sums := ?_,
            total_eq := ?_, total_le := h.total_le }, hnext⟩
  · rw [hnext, hinq, List.length_append, List.length_erase_of_mem hbe, List.length_erase_of_mem ha,
      List.length_singleton]
    omega
  · rw [hinq]
    simp
  · rw [hinq, List.nodup_append]
    refine ⟨(h.nodup.erase a).erase b, List.nodup_singleton _, ?_⟩
    intro x hx y hy
    rw [List.mem_singleton] at hy
    subst hy
    have := h.below x ((hmem x).mp hx).2.2
    intro e
    rw [e, hnew] at this
    omega
  · intro i hi
    rw [hnext]
    rw [hinq, List.mem_append, List.mem_singleton] at hi
    rcases hi with hi | hi
    · have := h.below i ((hmem i).mp hi).2.2
      omega
    · rw [hi, hnew]
      omega
  · intro i hi
    rw [hother i (by omega) (by omega)]
    exact h.leaves i hi
  · intro i j c d g' h' hij hj h1 h3
    rw [hother i (by omega) (by omega)] at h1
    rw [hother j (by omega) (by omega)] at h3
    exact h.ascending i j c d g' h' hij hj h1 h3
  · intro i hi hin
    rw [hnext] at hin
    by_cases he : i = f.next
    · subst he
      exact ⟨_, a, b, by rw [hself, hn], hanext, hbnext, hab⟩
    · rw [hother i (by omega) he]
      exact h.internals i hi (by omega)
  · intro j hj
    rw [hnext] at hj
    rw [hinq, List.mem_append, List.mem_singleton, hmem, hnext]
    by_cases hjn : j.val = f.next
    · have hjn' : j = NodeIx.ofNumber f.next := Fin.ext (by rw [hnew]; exact hjn)
      constructor
      · intro _ m hm hmn
        by_cases hmf : m = f.next
        · subst hmf
          rw [hself, ← Bool.not_eq_true, hchild]
          rintro (e | e)
          · rw [e] at hanext
            omega
          · rw [e] at hbnext
            omega
        · rw [hother m (by omega) hmf]
          obtain ⟨g', l, r, hi, hl, hr, -⟩ := h.internals m hm (by omega)
          rw [hi, ← Bool.not_eq_true, Node.hasChild_internal]
          rintro (e | e)
          · rw [e] at hl
            omega
          · rw [e] at hr
            omega
      · intro _
        exact .inr hjn'
    · have hjlt : j.val < f.next := by omega
      have hjne : j ≠ NodeIx.ofNumber f.next := fun e => hjn (by rw [e, hnew])
      rw [h.roots j hjlt]
      constructor
      · rintro (⟨h1, h3, h4⟩ | e)
        · intro m hm hmn
          by_cases hmf : m = f.next
          · subst hmf
            rw [hself, ← Bool.not_eq_true, hchild]
            rintro (e | e)
            · exact h3 e.symm
            · exact h1 e.symm
          · rw [hother m (by omega) hmf]
            exact h4 m hm (by omega)
        · exact absurd e hjne
      · intro hall
        have hnew' := hall f.next hlow (by omega)
        rw [hself, ← Bool.not_eq_true, hchild] at hnew'
        refine .inl ⟨fun e => hnew' (.inr e.symm), fun e => hnew' (.inl e.symm), fun m hm hmn => ?_⟩
        have := hall m hm (by omega)
        rwa [hother m (by omega) (by omega)] at this
  · intro j m m' hm hmn hm' hmn' hc hc'
    rw [hnext] at hmn hmn'
    have noOld : ∀ i, k ≤ i → i < f.next → n.hasChild j = true → (f.node.nth i).hasChild j = true → False := by
      intro i hi hin hnj hij
      rw [hchild] at hnj
      have hjin : j ∈ f.inq := by
        rcases hnj with rfl | rfl
        · exact ha
        · exact hb
      have := (h.roots j (h.below j hjin)).mp hjin i hi hin
      rw [hij] at this
      cases this
    by_cases e1 : m = f.next
    · by_cases e2 : m' = f.next
      · omega
      · subst e1
        rw [hself] at hc
        rw [hother m' (by omega) e2] at hc'
        exact (noOld m' hm' (by omega) hc hc').elim
    · by_cases e2 : m' = f.next
      · subst e2
        rw [hself] at hc'
        rw [hother m (by omega) e1] at hc
        exact (noOld m hm (by omega) hc' hc).elim
      · rw [hother m (by omega) e1] at hc
        rw [hother m' (by omega) e2] at hc'
        exact h.parent j m m' hm (by omega) hm' (by omega) hc hc'
  · intro i hi
    rw [hnext] at hi
    by_cases he : i = f.next
    · subst he
      have hat : (g.insert n).node.at (NodeIx.ofNumber f.next) = .internal ((f.node.at a).freq + (f.node.at b).freq) a b := by
        rw [hn]
        exact hself
      have ea := hleafsum a hanext 510 (by omega)
      have eb := hleafsum b hbnext 510 (by omega)
      have sa := h.sums a.val hanext
      have sb := h.sums b.val hbnext
      rw [Arena.nth_val, NodeIx.ofNumber_self] at sa sb
      rw [hself, hfreq, leafSum, hat]
      simp only
      rw [ea, eb, sa, sb]
    · have hv : (NodeIx.ofNumber i).val = i := NodeIx.ofNumber_val (by omega)
      rw [hother i (by omega) he, h.sums i (by omega),
        hleafsum (NodeIx.ofNumber i) (by rw [hv]; omega) 511 (by rw [hv]; omega)]
  · rw [hinq, List.map_append, List.sum_append, List.map_singleton, List.sum_singleton]
    have hnewfreq : ((g.insert n).node.at (NodeIx.ofNumber f.next)).freq.toNat = n.freq.toNat := by
      have : (g.insert n).node.at (NodeIx.ofNumber f.next) = n := hself
      rw [this]
    have hold : ((f.inq.erase a).erase b).map (fun i => ((g.insert n).node.at i).freq.toNat) =
        ((f.inq.erase a).erase b).map (fun i => (f.node.at i).freq.toNat) := by
      refine List.map_congr_left (fun i hi => ?_)
      have := h.below i ((hmem i).mp hi).2.2
      rw [hotherAt i (by omega)]
    rw [hold, hnewfreq, hfreq]
    omega

/-! ### The start and the end of the loop -/

/-- The sum of all entries is the sum over the symbols in the table. -/
theorem freqTotal_eq_present (s : State) :
    s.freqTotal = (s.present.map (fun c => (s.freq.at c).toNat)).sum := by
  unfold State.freqTotal State.present
  induction allSymbols with
  | nil => rfl
  | cons c cs ih =>
    by_cases h : s.freq.at c = 0#32
    · simp [h, ih]
    · simp [h, ih]

theorem freqTotal_le (s : State) : s.freqTotal ≤ 256 * (2 ^ 32 - 1) := by
  have := List.sum_le_card_nsmul (allSymbols.map (fun c => (s.freq.at c).toNat)) (2 ^ 32 - 1) (by
    intro x hx
    obtain ⟨c, -, rfl⟩ := List.mem_map.mp hx
    have := (s.freq.at c).isLt
    omega)
  rwa [List.length_map, allSymbols_length, smul_eq_mul] at this

/-- After leaf_init the invariant holds (R141). -/
theorem forestInv_leafInit (s : State) (hne : s.present ≠ []) :
    ForestInv s.present.length s.freqTotal (leafInit s.freq s.node) := by
  obtain ⟨hnext, hinq, hleaf⟩ := leafInit_spec s
  have hk := present_length_le s
  have hpos := List.length_pos_iff.mpr hne
  have hget : ∀ i, i < s.present.length → ∃ c, s.present[i]? = some c ∧ s.freq.at c ≠ 0#32 := by
    intro i hi
    exact ⟨s.present[i], by simp [hi], (mem_present s _).mp (List.getElem_mem hi)⟩
  have hval : ∀ i, i < s.present.length → (NodeIx.ofNumber i).val = i := fun i hi => NodeIx.ofNumber_val (by omega)
  refine { one_le := hpos, le_256 := hk, lower := by omega, count := ?_, nonempty := ?_, nodup := ?_, below := ?_,
           leaves := ?_, ascending := ?_, internals := ?_, roots := ?_, parent := ?_, sums := ?_, total_eq := ?_,
           total_le := freqTotal_le s }
  · rw [hnext, hinq, List.length_map, List.length_range]
    omega
  · rw [hinq]
    simp [hne]
  · rw [hinq]
    refine List.Nodup.map_on ?_ List.nodup_range
    intro i hi j hj hij
    rw [← hval i (List.mem_range.mp hi), ← hval j (List.mem_range.mp hj), hij]
  · intro i hi
    rw [hinq] at hi
    obtain ⟨j, hj, rfl⟩ := List.mem_map.mp hi
    have := List.mem_range.mp hj
    rw [hval j this, hnext]
    exact this
  · intro i hi
    obtain ⟨c, hc, hf⟩ := hget i hi
    refine ⟨c, _, hleaf i c hc, ?_, ?_⟩
    · have : (s.freq.at c).toNat ≠ 0 := fun e => hf (BitVec.eq_of_toNat_eq e)
      rw [BitVec.toNat_setWidth_of_le (by decide)]
      omega
    · rw [BitVec.toNat_setWidth_of_le (by decide)]
      have := (s.freq.at c).isLt
      omega
  · intro i j c d g h hij hj hi' hj'
    obtain ⟨c', hc, -⟩ := hget i (by omega)
    obtain ⟨d', hd, -⟩ := hget j hj
    rw [hleaf i c' hc] at hi'
    rw [hleaf j d' hd] at hj'
    injection hi' with e1 _
    injection hj' with e2 _
    subst e1 e2
    obtain ⟨h1, rfl⟩ := List.getElem?_eq_some_iff.mp hc
    obtain ⟨h2, rfl⟩ := List.getElem?_eq_some_iff.mp hd
    exact List.pairwise_iff_getElem.mp (present_ascending s) i j h1 h2 hij
  · intro i hi hin
    omega
  · intro j hj
    rw [hnext] at hj
    constructor
    · intro _ m hm hmn
      omega
    · intro _
      rw [hinq]
      exact List.mem_map.mpr ⟨j.val, List.mem_range.mpr hj, NodeIx.ofNumber_self j⟩
  · intro j m n hm hmn
    omega
  · intro i hi
    rw [hnext] at hi
    obtain ⟨c, hc, -⟩ := hget i hi
    have h1 := hleaf i c hc
    have h2 : (leafInit s.freq s.node).node.at (NodeIx.ofNumber i) = .leaf c ((s.freq.at c).setWidth 40) := h1
    rw [h1]
    simp [leafSum, h2]
  · rw [freqTotal_eq_present, hinq, List.map_map]
    congr 1
    apply List.ext_getElem
    · simp
    · intro i h1 h2
      rw [List.length_map] at h2
      obtain ⟨c, hc, -⟩ := hget i h2
      obtain ⟨h3, hc'⟩ := List.getElem?_eq_some_iff.mp hc
      have h4 : (leafInit s.freq s.node).node.at (NodeIx.ofNumber i) = .leaf c ((s.freq.at c).setWidth 40) :=
        hleaf i c hc
      simp only [List.getElem_map, List.getElem_range, Function.comp_apply, h4, Node.freq_leaf, hc']
      exact BitVec.toNat_setWidth_of_le (by decide)

/-- Whatever a merge keeps, the loop of BUILD keeps (R140); it ends with one element in the queue (R145). -/
theorem mergeLoop_induct {k total : Nat} {P : Forest → Prop}
    (hstep : ∀ f, ForestInv k total f → 2 ≤ f.inq.length → P f → P (mergeStep f)) :
    ∀ (fuel : Nat) (f : Forest), ForestInv k total f → f.inq.length ≤ fuel + 1 → P f →
      ForestInv k total (mergeLoop fuel f) ∧ (mergeLoop fuel f).inq.length = 1 ∧ P (mergeLoop fuel f) := by
  intro fuel
  induction fuel with
  | zero =>
    intro f h hl hP
    have := List.length_pos_iff.mpr h.nonempty
    exact ⟨h, by simp only [mergeLoop]; omega, hP⟩
  | succ fuel ih =>
    intro f h hl hP
    unfold mergeLoop
    by_cases h1 : 1 < f.inq.length
    · rw [if_pos h1]
      obtain ⟨hm, hnext⟩ := h.mergeStep h1
      refine ih (mergeStep f) hm ?_ (hstep f h h1 hP)
      have := h.count
      have := hm.count
      omega
    · rw [if_neg h1]
      have := List.length_pos_iff.mpr h.nonempty
      exact ⟨h, by omega, hP⟩

/-- Everything the loop of BUILD leaves on a table that is not empty: the invariant, one element in the queue, and whatever
leaf_init sets up and every merge keeps (R140, R145). -/
theorem buildForest_spec (s : State) (hne : s.present ≠ []) {P : Forest → Prop} (h0 : P (leafInit s.freq s.node))
    (hstep : ∀ f, ForestInv s.present.length s.freqTotal f → 2 ≤ f.inq.length → P f → P (mergeStep f)) :
    ForestInv s.present.length s.freqTotal (buildForest s.freq s.node) ∧
      (buildForest s.freq s.node).inq.length = 1 ∧ P (buildForest s.freq s.node) := by
  have hi := forestInv_leafInit s hne
  obtain ⟨hnext, hinq, -⟩ := leafInit_spec s
  refine mergeLoop_induct hstep _ _ hi ?_ h0
  rw [hnext, hinq, List.length_map, List.length_range]
  omega

end Sys2Proof.Machine
end

