-- ==== Sys2Proof/Laws/Generator.lean ====
section
/-! SUPPORT. Paths of a tree, and the table that the walk of GENCODE leaves. -/

namespace Sys2Proof.Machine

theorem Arena.nth_of_val (a : Arena) {i : NodeIx} {n : Nat} (h : i.val = n) : a.nth n = a.at i := by
  rw [← h]
  exact Arena.nth_val a i

/-! ### Paths -/

/-- One more bit at the end of a path. -/
theorem descend_snoc {a : Arena} {i k : NodeIx} {p : BitString} {f : NodeFreq} {l r : NodeIx} (v : Bool)
    (hd : descend a i p = some k) (hk : a.at k = .internal f l r) :
    descend a i (p ++ [v]) = some (if v then r else l) := by
  rw [descend_append, hd]
  simp [descend, hk]

/-- From a leaf only the empty path leads anywhere. -/
theorem descend_from_leaf {a : Arena} {i j : NodeIx} {c : Byte} {f : NodeFreq} {p : BitString} (h : a.at i = .leaf c f)
    (hd : descend a i p = some j) : p = [] ∧ j = i := by
  cases p with
  | nil =>
    injection hd with hd
    exact ⟨rfl, hd.symm⟩
  | cons v p => simp [descend, h] at hd

/-- In an arena whose children have smaller indices a path goes down, one index at least per bit. -/
theorem descend_le {a : Arena} {n : Nat} (hdn : a.downward n) {i j : NodeIx} {p : BitString} (hi : i.val < n)
    (hd : descend a i p = some j) : j.val + p.length ≤ i.val := by
  induction p generalizing i with
  | nil =>
    injection hd with hd
    subst hd
    simp
  | cons v p ih =>
    cases hi' : a.at i with
    | leaf c f => simp [descend, hi'] at hd
    | internal f l r =>
      obtain ⟨hl, hr⟩ := hdn i hi f l r hi'
      simp only [descend, hi'] at hd
      rw [List.length_cons]
      cases v with
      | true =>
        have := ih (i := r) (by omega) (by simpa using hd)
        omega
      | false =>
        have := ih (i := l) (by omega) (by simpa using hd)
        omega

namespace TreeShape

variable {a : Arena} {k : Nat}

theorem downward (h : TreeShape a k) : a.downward (2 * k - 1) := by
  intro j hj f l r hjr
  by_cases hk : j.val < k
  · obtain ⟨c, e, hc, -⟩ := h.leaves j.val hk
    rw [Arena.nth_val, hjr] at hc
    cases hc
  · obtain ⟨g, l', r', hi, hl, hr, -⟩ := h.internals j.val (by omega) hj
    rw [Arena.nth_val, hjr] at hi
    injection hi with e1 e2 e3
    subst e2 e3
    exact ⟨hl, hr⟩

/-- The two children of an internal node are different. -/
theorem children_ne (h : TreeShape a k) {i l r : NodeIx} {f : NodeFreq} (hi : i.val < 2 * k - 1)
    (hr : a.at i = .internal f l r) : k ≤ i.val ∧ l ≠ r := by
  by_cases hk : i.val < k
  · obtain ⟨c, e, hc, -⟩ := h.leaves i.val hk
    rw [Arena.nth_val, hr] at hc
    cases hc
  · obtain ⟨g, l', r', hi', -, -, hne⟩ := h.internals i.val (by omega) hi
    rw [Arena.nth_val, hr] at hi'
    injection hi' with e1 e2 e3
    subst e2 e3
    exact ⟨by omega, hne⟩

/-- A record that is a leaf of the tree has an index below k. -/
theorem leaf_lt (h : TreeShape a k) {i : NodeIx} {c : Byte} {f : NodeFreq} (hi : i.val < 2 * k - 1)
    (hc : a.at i = .leaf c f) : i.val < k := by
  by_cases hk : i.val < k
  · exact hk
  · obtain ⟨g, l, r, hi', -⟩ := h.internals i.val (by omega) hi
    rw [Arena.nth_val, hc] at hi'
    cases hi'

/-- Each symbol has exactly one leaf (R42 b). -/
theorem leaf_unique (h : TreeShape a k) {i j : NodeIx} {c : Byte} {f g : NodeFreq} (hi : i.val < 2 * k - 1)
    (hj : j.val < 2 * k - 1) (hic : a.at i = .leaf c f) (hjc : a.at j = .leaf c g) : i = j := by
  have hik := h.leaf_lt hi hic
  have hjk := h.leaf_lt hj hjc
  rcases Nat.lt_trichotomy i.val j.val with hlt | heq | hlt
  · have := h.ascending i.val j.val c c f g hlt hjk (by rw [Arena.nth_val, hic]) (by rw [Arena.nth_val, hjc])
    rw [BitVec.lt_def] at this
    omega
  · exact Fin.ext heq
  · have := h.ascending j.val i.val c c g f hlt hik (by rw [Arena.nth_val, hjc]) (by rw [Arena.nth_val, hic])
    rw [BitVec.lt_def] at this
    omega

/-- Every node is reached from the root (R42 d). -/
theorem reached (h : TreeShape a k) {root : NodeIx} (hroot : root.val = 2 * k - 2) :
    ∀ (m : Nat) (j : NodeIx), 2 * k - 2 - j.val = m → j.val < 2 * k - 1 → ∃ p, descend a root p = some j := by
  intro m
  induction m using Nat.strong_induction_on with
  | _ m ih =>
    intro j hjm hj
    by_cases he : j.val = 2 * k - 2
    · have : j = root := Fin.ext (by omega)
      exact ⟨[], by rw [this]; rfl⟩
    · obtain ⟨i, hi, hin, hc, -⟩ := h.oneParent j (by omega)
      obtain ⟨g, l, r, hir, hl, hr, -⟩ := h.internals i hi hin
      have hv : (NodeIx.ofNumber i).val = i := NodeIx.ofNumber_val (by have := h.size; omega)
      have hat : a.at (NodeIx.ofNumber i) = .internal g l r := hir
      rw [hir, Node.hasChild_internal] at hc
      have hlt : j.val < i := by
        rcases hc with e | e
        · rw [← e]
          exact hl
        · rw [← e]
          exact hr
      obtain ⟨p, hp⟩ := ih (2 * k - 2 - i) (by omega) (NodeIx.ofNumber i) (by rw [hv]) (by rw [hv]; exact hin)
      rcases hc with e | e
      · exact ⟨p ++ [false], by rw [descend_snoc false hp hat]; simpa using e⟩
      · exact ⟨p ++ [true], by rw [descend_snoc true hp hat]; simpa using e⟩

/-- A path that is not empty ends with the edge from a parent of the node it leads to. -/
theorem last_edge {i j : NodeIx} {p : BitString} {v : Bool} (hd : descend a i (p ++ [v]) = some j) :
    ∃ m f l r, descend a i p = some m ∧ a.at m = .internal f l r ∧ j = if v then r else l := by
  rw [descend_append] at hd
  cases hm : descend a i p with
  | none => simp [hm] at hd
  | some m =>
    rw [hm] at hd
    cases hmr : a.at m with
    | leaf c f => simp [descend, hmr] at hd
    | internal f l r =>
      refine ⟨m, f, l, r, rfl, hmr, ?_⟩
      simp [descend, hmr] at hd
      exact hd.symm

/-- Only one path leads from the root to a node (R42 d). -/
theorem path_unique (h : TreeShape a k) {root : NodeIx} (hroot : root.val = 2 * k - 2) :
    ∀ (p q : BitString) (j : NodeIx), descend a root p = some j → descend a root q = some j → p = q := by
  have hk := h.size
  have hdown := h.downward
  have notRoot : ∀ (p : BitString) (v : Bool), descend a root (p ++ [v]) ≠ some root := by
    intro p v hd
    have := descend_le hdown (by omega) hd
    simp at this
  intro p
  induction p using List.reverseRecOn with
  | nil =>
    intro q j hp hq
    injection hp with hp
    subst hp
    rcases List.eq_nil_or_concat q with rfl | ⟨q, v, rfl⟩
    · rfl
    · exact absurd (by simpa using hq) (notRoot q v)
  | append_singleton p v ih =>
    intro q j hp hq
    rcases List.eq_nil_or_concat q with rfl | ⟨q, w, rfl⟩
    · injection hq with hq
      subst hq
      exact absurd hp (notRoot p v)
    · rw [List.concat_eq_append] at hq ⊢
      obtain ⟨m, f, l, r, hm, hmr, hj⟩ := last_edge hp
      obtain ⟨n, g, l', r', hn, hnr, hj'⟩ := last_edge hq
      have hmlt := descend_le hdown (by omega) hm
      have hnlt := descend_le hdown (by omega) hn
      have hmk := h.children_ne (i := m) (by omega) hmr
      have hnk := h.children_ne (i := n) (by omega) hnr
      have hmc : (a.nth m.val).hasChild j = true := by
        rw [Arena.nth_val, hmr, Node.hasChild_internal, hj]
        cases v <;> simp
      have hnc : (a.nth n.val).hasChild j = true := by
        rw [Arena.nth_val, hnr, Node.hasChild_internal, hj']
        cases w <;> simp
      have hjlt : j.val < 2 * k - 2 := h.rootFree m.val j hmk.1 (by omega) hmc
      obtain ⟨i, -, -, -, huniq⟩ := h.oneParent j hjlt
      have e : m = n := Fin.ext ((huniq m.val hmk.1 (by omega) hmc).trans (huniq n.val hnk.1 (by omega) hnc).symm)
      subst e
      rw [hnr] at hmr
      injection hmr with e1 e2 e3
      subst e1 e2 e3
      rw [ih q m hm hn]
      congr 2
      have hne := hnk.2
      cases v <;> cases w <;> simp_all

/-- Only one path leads from the root to the leaf of a symbol (R161). -/
theorem leaf_path_unique (h : TreeShape a k) {root : NodeIx} (hroot : root.val = 2 * k - 2) {p q : BitString} {c : Byte}
    (hp : leadsToLeaf a root p c) (hq : leadsToLeaf a root q c) : p = q := by
  obtain ⟨i, f, hi, hic⟩ := hp
  obtain ⟨j, g, hj, hjc⟩ := hq
  have hk := h.size
  have h1 := descend_le h.downward (by omega) hi
  have h2 := descend_le h.downward (by omega) hj
  have := h.leaf_unique (by omega) (by omega) hic hjc
  subst this
  exact h.path_unique hroot p q i hi hj

end TreeShape

/-! ### The walk of GENCODE (R161) -/

/-- A path from an internal node to a leaf is its first bit and a path from that child. -/
theorem leadsToLeaf_internal {a : Arena} {i l r : NodeIx} {f : NodeFreq} (hi : a.at i = .internal f l r)
    (q : BitString) (c : Byte) :
    leadsToLeaf a i q c ↔
      (∃ s, q = false :: s ∧ leadsToLeaf a l s c) ∨ (∃ s, q = true :: s ∧ leadsToLeaf a r s c) := by
  unfold leadsToLeaf
  cases q with
  | nil => simp [descend, hi]
  | cons v q => cases v <;> simp [descend, hi]

/-- What the walk from node `i` with path `p` leaves for the symbol `c`, when at most one path leads from `i` to a leaf of
`c`: the path recorded, or what the table held (R161). -/
theorem walk_at {a : Arena} {n : Nat} (hd : a.downward n) (c : Byte) :
    ∀ (m : Nat) (i : NodeIx), i.val = m → i.val < n → ∀ (fuel : Nat) (p : BitString) (t : CodeTable), i.val < fuel →
      (∀ q q', leadsToLeaf a i q c → leadsToLeaf a i q' c → q = q') → ∀ q,
        ((walk fuel a i p t).at c = some q ↔
          (∃ s, leadsToLeaf a i s c ∧ q = p ++ s) ∨ ((∀ s, ¬ leadsToLeaf a i s c) ∧ t.at c = some q)) := by
  intro m
  induction m using Nat.strong_induction_on with
  | _ m ih =>
    intro i him hin fuel p t hf hu q
    cases fuel with
    | zero => omega
    | succ fuel =>
      cases hi : a.at i with
      | leaf d g =>
        have hlead : ∀ s, leadsToLeaf a i s c ↔ s = [] ∧ d = c := by
          intro s
          constructor
          · rintro ⟨j, e, hj, hjc⟩
            obtain ⟨rfl, rfl⟩ := descend_from_leaf hi hj
            rw [hi] at hjc
            injection hjc with e1 e2
            exact ⟨rfl, e1⟩
          · rintro ⟨rfl, rfl⟩
            exact ⟨i, g, rfl, hi⟩
        simp only [hlead]
        by_cases hdc : c = d
        · subst hdc
          simp [walk, hi, eq_comm]
        · have hcd : ¬ d = c := fun e => hdc e.symm
          simp [walk, hi, CodeTable.at_put_other _ _ _ _ hdc, hcd]
      | internal g l r =>
        obtain ⟨hl, hr⟩ := hd i hin g l r hi
        have hu1 : ∀ q q', leadsToLeaf a l q c → leadsToLeaf a l q' c → q = q' := by
          intro q q' h1 h2
          have := hu (false :: q) (false :: q') ((leadsToLeaf_internal hi _ c).mpr (.inl ⟨q, rfl, h1⟩))
            ((leadsToLeaf_internal hi _ c).mpr (.inl ⟨q', rfl, h2⟩))
          injection this
        have hu2 : ∀ q q', leadsToLeaf a r q c → leadsToLeaf a r q' c → q = q' := by
          intro q q' h1 h2
          have := hu (true :: q) (true :: q') ((leadsToLeaf_internal hi _ c).mpr (.inr ⟨q, rfl, h1⟩))
            ((leadsToLeaf_internal hi _ c).mpr (.inr ⟨q', rfl, h2⟩))
          injection this
        have hu3 : ∀ q q', leadsToLeaf a l q c → ¬ leadsToLeaf a r q' c := by
          intro q q' h1 h2
          have := hu (false :: q) (true :: q') ((leadsToLeaf_internal hi _ c).mpr (.inl ⟨q, rfl, h1⟩))
            ((leadsToLeaf_internal hi _ c).mpr (.inr ⟨q', rfl, h2⟩))
          injection this with e
          cases e
        have el := ih l.val (by omega) l rfl (by omega) fuel (p ++ [false]) t (by omega) hu1 q
        have er := ih r.val (by omega) r rfl (by omega) fuel (p ++ [true]) (walk fuel a l (p ++ [false]) t)
          (by omega) hu2 q
        have hw : walk (fuel + 1) a i p t = walk fuel a r (p ++ [true]) (walk fuel a l (p ++ [false]) t) := by
          simp [walk, hi]
        rw [hw, er, el]
        constructor
        · rintro (⟨s, h1, h2⟩ | ⟨h1, ⟨s, h2, h3⟩ | ⟨h2, h3⟩⟩)
          · exact .inl ⟨true :: s, (leadsToLeaf_internal hi _ c).mpr (.inr ⟨s, rfl, h1⟩), by simp [h2]⟩
          · exact .inl ⟨false :: s, (leadsToLeaf_internal hi _ c).mpr (.inl ⟨s, rfl, h2⟩), by simp [h3]⟩
          · refine .inr ⟨fun s hs => ?_, h3⟩
            rcases (leadsToLeaf_internal hi _ c).mp hs with ⟨u, -, hu⟩ | ⟨u, -, hu⟩
            · exact h2 u hu
            · exact h1 u hu
        · rintro (⟨s, h1, h2⟩ | ⟨h1, h2⟩)
          · rcases (leadsToLeaf_internal hi _ c).mp h1 with ⟨u, rfl, hu⟩ | ⟨u, rfl, hu⟩
            · exact .inr ⟨fun s hs => hu3 u s hu hs, .inl ⟨u, hu, by simp [h2]⟩⟩
            · exact .inl ⟨u, hu, by simp [h2]⟩
          · exact .inr ⟨fun s hs => h1 (true :: s) ((leadsToLeaf_internal hi _ c).mpr (.inr ⟨s, rfl, hs⟩)),
              .inr ⟨fun s hs => h1 (false :: s) ((leadsToLeaf_internal hi _ c).mpr (.inl ⟨s, rfl, hs⟩)), h2⟩⟩

end Sys2Proof.Machine
end

