-- ==== Sys2Proof/Laws/HostPort.lean ====
section
/-! SUPPORT. What a step can do, said once: one inversion lemma for the step, and the state each kind of transaction leaves. -/

namespace Sys2Proof.Machine

/-- Every command ends in a next state (R54, R245). -/
theorem exec_next (i : Instr) (s : State) : ∃ t, exec i s = .next t := by
  cases i
  case nop => exact Run.settle_next (.ok s)
  case clear => exact Run.settle_next (.ok s.cleared)
  case count => exact Run.settle_next _
  case build => exact Run.settle_next _
  case gencode => exact Run.settle_next (.ok _)
  case encode => exact Run.settle_next _
  case decode => exact Run.settle_next _

/-- A write to CMD either raises IllegalCommandError with its word or runs the command it decodes to (R120). -/
theorem runCommand_cases (w : Word) (s : State) :
    (decodeCommand w = .error (.illegalCommand w) ∧ runCommand w s = .next (s.raise .illegalCommand w)) ∨
      ∃ i, decodeCommand w = .ok i ∧ runCommand w s = exec i s := by
  cases h : decodeCommand w with
  | ok i => exact .inr ⟨i, rfl, by simp [runCommand, h]⟩
  | error e =>
    obtain ⟨rfl, -⟩ := decodeCommand_error h
    exact .inl ⟨rfl, by simp [runCommand, h]⟩

/-- The index of a register of REG, as 28 bits. -/
theorem eq_ofNat_of_toNat {n : Nat} {ix : BitVec 28} (h : ix.toNat = n) : ix = BitVec.ofNat 28 n := by
  rw [← h]
  simp

/-- Everything an accepted host write can do (R72). `s` is the state in which the port has answered Ok. -/
theorem hostWrite_cases {s : State} {sp : BitVec 4} {ix : BitVec 28} {v : PortWord}
    {o : Host.Outcome State Fault Refusal} (h : hostWrite s sp ix v = some o) :
    (sp = 0#4 ∧ ix = 1#28 ∧ o = runCommand (v.setWidth 32) s) ∨
    (sp = 0#4 ∧ ix = 3#28 ∧ o = .next { s with esticky := stickyCleared s.esticky (v.setWidth 32) }) ∨
    (sp = 0#4 ∧ ix = 5#28 ∧ o = .next { s with symlen := v.setWidth 32 }) ∨
    (sp = 0#4 ∧ ix = 6#28 ∧ o = .next { s with bitlen := v.setWidth 32 }) ∨
    (sp = 1#4 ∧ ix.toNat < s.caps.symCap ∧
      o = .next { s with symbuf := Memory.put s.symbuf ix.toNat (v.setWidth 8) }) ∨
    (sp = 2#4 ∧ ix.toNat < s.caps.bitCap ∧
      o = .next { s with bitbuf := Memory.put s.bitbuf ix.toNat (v.setWidth 8) }) ∨
    (sp = 4#4 ∧ ix.toNat < 256 ∧ o = .next { s with freq := s.freq.put (ix.setWidth 8) (v.setWidth 32) }) := by
  unfold hostWrite at h
  split at h
  · cases h
  · next hs =>
    have hsp : sp = 0#4 := by
      revert hs
      revert sp
      decide
    subst hsp
    unfold Reg.ofIndex at h
    split at h <;> simp [writeReg] at h
    · next hi => exact .inl ⟨rfl, eq_ofNat_of_toNat hi, h.symm⟩
    · next hi => exact .inr (.inl ⟨rfl, eq_ofNat_of_toNat hi, h.symm⟩)
    · next hi => exact .inr (.inr (.inl ⟨rfl, eq_ofNat_of_toNat hi, h.symm⟩))
    · next hi => exact .inr (.inr (.inr (.inl ⟨rfl, eq_ofNat_of_toNat hi, h.symm⟩)))
  · next hs =>
    have hsp : sp = 1#4 := by
      revert hs
      revert sp
      decide
    split at h
    · next hlt =>
      injection h with h
      exact .inr (.inr (.inr (.inr (.inl ⟨hsp, hlt, h.symm⟩))))
    · cases h
  · next hs =>
    have hsp : sp = 2#4 := by
      revert hs
      revert sp
      decide
    split at h
    · next hlt =>
      injection h with h
      exact .inr (.inr (.inr (.inr (.inr (.inl ⟨hsp, hlt, h.symm⟩)))))
    · cases h
  · cases h
  · next hs =>
    have hsp : sp = 4#4 := by
      revert hs
      revert sp
      decide
    unfold symbolOfIndex at h
    split at h
    · next hlt =>
      injection h with h
      exact .inr (.inr (.inr (.inr (.inr (.inr ⟨hsp, hlt, h.symm⟩)))))
    · cases h
  · cases h
  · cases h
  · cases h

/-- What a host reads does not depend on the transactions yet to come or on the last answer (R71). -/
@[simp] theorem hostRead_answered (s : State) (rest : List Txn) (r : Option Response) (sp : BitVec 4) (ix : BitVec 28) :
    hostRead { s with host := rest, port := r } sp ix = hostRead s sp ix := rfl

/-- The state in which the port has accepted the next transaction of `s` and answered Ok. -/
def State.accepted (s : State) (rest : List Txn) : State := { s with host := rest, port := some .ok }

/-- Everything one step can do: idle; answer a read or refuse a transaction, changing no state; reset; run an illegal word;
run a command; or store into one place (R8, R71, R72, R73, R120, R230). -/
theorem step_cases {s t : State} (h : step s = .next t) :
    (s.host = [] ∧ t = s) ∨
    (∃ x rest r, s.host = x :: rest ∧ r ≠ .ok ∧ t = { s with host := rest, port := some r }) ∨
    (∃ rest, s.host = .reset :: rest ∧ t = State.resetWith s.caps (s.resets + 1) rest) ∨
    (∃ v rest, s.host = .write 0#4 1#28 v :: rest ∧
      decodeCommand (v.setWidth 32) = .error (.illegalCommand (v.setWidth 32)) ∧
      t = (s.accepted rest).raise .illegalCommand (v.setWidth 32)) ∨
    (∃ v rest i, s.host = .write 0#4 1#28 v :: rest ∧ decodeCommand (v.setWidth 32) = .ok i ∧
      exec i (s.accepted rest) = .next t) ∨
    (∃ v rest, s.host = .write 0#4 3#28 v :: rest ∧
      t = { s.accepted rest with esticky := stickyCleared s.esticky (v.setWidth 32) }) ∨
    (∃ v rest, s.host = .write 0#4 5#28 v :: rest ∧ t = { s.accepted rest with symlen := v.setWidth 32 }) ∨
    (∃ v rest, s.host = .write 0#4 6#28 v :: rest ∧ t = { s.accepted rest with bitlen := v.setWidth 32 }) ∨
    (∃ ix v rest, s.host = .write 1#4 ix v :: rest ∧ ix.toNat < s.caps.symCap ∧
      t = { s.accepted rest with symbuf := Memory.put s.symbuf ix.toNat (v.setWidth 8) }) ∨
    (∃ ix v rest, s.host = .write 2#4 ix v :: rest ∧ ix.toNat < s.caps.bitCap ∧
      t = { s.accepted rest with bitbuf := Memory.put s.bitbuf ix.toNat (v.setWidth 8) }) ∨
    (∃ ix v rest, s.host = .write 4#4 ix v :: rest ∧ ix.toNat < 256 ∧
      t = { s.accepted rest with freq := s.freq.put (ix.setWidth 8) (v.setWidth 32) }) := by
  unfold step serveNext at h
  split at h
  · next hnil =>
    injection h with h
    exact .inl ⟨hnil, h.symm⟩
  · next x rest hx =>
    cases x with
    | reset =>
      injection h with h
      exact .inr (.inr (.inl ⟨rest, hx, h.symm⟩))
    | read sp ix =>
      simp only [serve, serveRead] at h
      split at h <;> injection h with h
      · exact .inr (.inl ⟨_, rest, .data _, hx, by simp, h.symm⟩)
      · exact .inr (.inl ⟨_, rest, .accessError, hx, by simp, h.symm⟩)
    | write sp ix v =>
      simp only [serve, serveWrite] at h
      split at h
      · next o ho =>
        subst h
        rcases hostWrite_cases ho with ⟨rfl, rfl, hw⟩ | ⟨rfl, rfl, hw⟩ | ⟨rfl, rfl, hw⟩ | ⟨rfl, rfl, hw⟩ |
          ⟨rfl, hlt, hw⟩ | ⟨rfl, hlt, hw⟩ | ⟨rfl, hlt, hw⟩
        · rcases runCommand_cases (v.setWidth 32) (s.accepted rest) with ⟨hd, hr⟩ | ⟨i, hd, hr⟩
          · have := hw.trans hr
            injection this with this
            exact .inr (.inr (.inr (.inl ⟨v, rest, hx, hd, this⟩)))
          · exact .inr (.inr (.inr (.inr (.inl ⟨v, rest, i, hx, hd, (hw.trans hr).symm⟩))))
        all_goals injection hw with hw
        · exact .inr (.inr (.inr (.inr (.inr (.inl ⟨v, rest, hx, hw⟩)))))
        · exact .inr (.inr (.inr (.inr (.inr (.inr (.inl ⟨v, rest, hx, hw⟩))))))
        · exact .inr (.inr (.inr (.inr (.inr (.inr (.inr (.inl ⟨v, rest, hx, hw⟩)))))))
        · exact .inr (.inr (.inr (.inr (.inr (.inr (.inr (.inr (.inl ⟨ix, v, rest, hx, hlt, hw⟩))))))))
        · exact .inr (.inr (.inr (.inr (.inr (.inr (.inr (.inr (.inr (.inl ⟨ix, v, rest, hx, hlt, hw⟩)))))))))
        · exact .inr (.inr (.inr (.inr (.inr (.inr (.inr (.inr (.inr (.inr ⟨ix, v, rest, hx, hlt, hw⟩)))))))))
      · injection h with h
        exact .inr (.inl ⟨_, rest, .accessError, hx, by simp, h.symm⟩)

end Sys2Proof.Machine
end

