-- ==== Sys2Proof/Laws/PerInstr.lean ====
section
/-! SUPPORT. Statements made per command, one lemma per constructor of Instr. -/

namespace Sys2Proof.Laws.WordRoundTrip

/-- The command's word is well-formed, decodes to the command, and has the command's opcode in bits 7:0 and zero above
(R100, R101). -/
def Statement (i : Instr) : Prop :=
  i.wf = true ∧ wordWf (encode i) = true ∧ decodeCommand (encode i) = .ok i ∧
    (encode i).extractLsb 7 0 = opcodeOf i ∧ (encode i).extractLsb 31 8 = 0#24

theorem nop : Statement .nop := ⟨rfl, by decide, rfl, by decide, by decide⟩

theorem clear : Statement .clear := ⟨rfl, by decide, rfl, by decide, by decide⟩

theorem count : Statement .count := ⟨rfl, by decide, rfl, by decide, by decide⟩

theorem build : Statement .build := ⟨rfl, by decide, rfl, by decide, by decide⟩

theorem gencode : Statement .gencode := ⟨rfl, by decide, rfl, by decide, by decide⟩

theorem encode : Statement .encode := ⟨rfl, by decide, rfl, by decide, by decide⟩

theorem decode : Statement .decode := ⟨rfl, by decide, rfl, by decide, by decide⟩

end Sys2Proof.Laws.WordRoundTrip
end

