-- ==== Sys2Proof/Tests/Slice0.lean ====
section
/-! SUPPORT. Tests of the model on the vectors of 95_test_vectors.md, the well-formedness smoke tests, and for every
obligation with hypotheses a state that meets them all. -/

namespace Sys2Proof.Tests

open Sys2Proof.Machine

/-! ### Well-formedness: an ill-formed term for each check -/

theorem test_reference_capacities_wf : Caps.reference.wf = true := by decide

theorem test_sym_cap_zero_refused : Caps.wf ⟨0, 1, 1⟩ = false := by decide

theorem test_sym_cap_too_large_refused : Caps.symWf ⟨2 ^ 24 + 1, 1, 2 ^ 24⟩ = false := by decide

theorem test_bit_cap_zero_refused : Caps.bitWf ⟨1, 0, 1⟩ = false := by decide

theorem test_bit_cap_too_large_refused : Caps.bitWf ⟨1, 2 ^ 28 + 1, 1⟩ = false := by decide

theorem test_out_cap_below_sym_cap_refused : Caps.outWf ⟨2, 1, 1⟩ = false := by decide

theorem test_out_cap_too_large_refused : Caps.outWf ⟨1, 1, 2 ^ 24 + 1⟩ = false := by decide

/-- The largest capacities R6 allows. -/
theorem test_largest_capacities_wf : Caps.wf ⟨2 ^ 24, 2 ^ 28, 2 ^ 24⟩ = true := by decide

theorem test_upper_bit_refused : zeroFieldWf 0x00000100#32 = false := by decide

theorem test_opcode_seven_refused : opFieldWf 0x00000007#32 = false := by decide

theorem test_every_command_wf : ∀ i : Instr, i.wf = true := by intro i; cases i <;> rfl

/-! ### Decoding: words written out from format C (R100, R101) -/

theorem test_nop_word : decodeCommand 0b00000000000000000000000000000000#32 = .ok .nop := rfl

theorem test_clear_word : decodeCommand 0b00000000000000000000000000000001#32 = .ok .clear := rfl

theorem test_count_word : decodeCommand 0b00000000000000000000000000000010#32 = .ok .count := rfl

theorem test_build_word : decodeCommand 0b00000000000000000000000000000011#32 = .ok .build := rfl

theorem test_gencode_word : decodeCommand 0b00000000000000000000000000000100#32 = .ok .gencode := rfl

theorem test_encode_word : decodeCommand 0b00000000000000000000000000000101#32 = .ok .encode := rfl

theorem test_decode_word : decodeCommand 0b00000000000000000000000000000110#32 = .ok .decode := rfl

/-- Words that R103 and the vectors V-C3 to V-C8 call illegal. -/
theorem test_illegal_words :
    [0x00000007#32, 0x00000100#32, 0x00000203#32, 0x80000000#32, 0xFFFFFFFF#32].map
      (fun w => decodeTableWord 32 w.toNat) = [none, none, none, none, none] := by decide

theorem test_table_words :
    [0, 1, 2, 3, 4, 5, 6].map (decodeTableWord 32) =
      [some .nop, some .clear, some .count, some .build, some .gencode, some .encode, some .decode] := by decide

/-! ### Small states -/

/-- What an outcome says of the next state; `none` if there is none. -/
def after {α : Type} (o : Host.Outcome State Fault Refusal) (f : State → α) : Option α :=
  match o with
  | .next t => some (f t)
  | .fault _ => none
  | .refused _ => none

/-- The state after reset with capacities 8, 4 and 8. -/
def start : State := State.resetWith ⟨8, 4, 8⟩ 0 []

/-- The lone leaf of V-B2, with a payload "0010" (V-D6). -/
def lone : State :=
  { start with
    tv := true, nsym := 1#9, nodecnt := 1#10, root := 0, inq := [0]
    node := Arena.blank.put 0 (.leaf 0x61#8 4#40)
    freq := FreqTable.empty.put 0x61#8 4#32
    bitbuf := [(0, 0x20#8)], bitlen := 4#32 }

/-- The tree of V-B10 and the code of V-G8, the input 00 FF FF and its payload "011" (V-E5). -/
def pair : State :=
  { start with
    tv := true, nsym := 2#9, nodecnt := 3#10, root := 2, inq := [2]
    node := ((Arena.blank.put 0 (.leaf 0x00#8 1#40)).put 1 (.leaf 0xFF#8 2#40)).put 2 (.internal 3#40 0 1)
    freq := (FreqTable.empty.put 0x00#8 1#32).put 0xFF#8 2#32
    code := (CodeTable.empty.put 0x00#8 [false]).put 0xFF#8 [true]
    symbuf := [(0, 0x00#8), (1, 0xFF#8), (2, 0xFF#8)], symlen := 3#32
    bitbuf := [(0, 0x60#8)], bitlen := 3#32 }

/-- The tree of V-B5, with a payload "01". -/
def triple : State :=
  { start with
    tv := true, nsym := 3#9, nodecnt := 5#10, root := 4, inq := [4]
    node := ((((Arena.blank.put 0 (.leaf 0x61#8 1#40)).put 1 (.leaf 0x62#8 1#40)).put 2 (.leaf 0x63#8 2#40)).put 3
      (.internal 2#40 0 1)).put 4 (.internal 4#40 2 3)
    bitbuf := [(0, 0x40#8)], bitlen := 2#32 }

theorem lone_shape : TreeShape lone.node 1 where
  size := by decide
  leaves i hi := by
    obtain rfl : i = 0 := by omega
    exact ⟨0x61#8, 4#40, rfl, by decide, by decide⟩
  ascending i j c d f g h hj := by omega
  internals i h h' := by omega
  oneParent j hj := by omega
  rootFree i j h h' := by omega
  sums i hi := by
    obtain rfl : i = 0 := by omega
    decide

theorem pair_shape : TreeShape pair.node 2 where
  size := by decide
  leaves i hi := by
    obtain rfl | rfl : i = 0 ∨ i = 1 := by omega
    · exact ⟨0x00#8, 1#40, rfl, by decide, by decide⟩
    · exact ⟨0xFF#8, 2#40, rfl, by decide, by decide⟩
  ascending i j c d f g h hj hi hj' := by
    obtain rfl : i = 0 := by omega
    obtain rfl : j = 1 := by omega
    cases (show Node.leaf 0x00#8 1#40 = .leaf c f from hi)
    cases (show Node.leaf 0xFF#8 2#40 = .leaf d g from hj')
    decide
  internals i h h' := by
    obtain rfl : i = 2 := by omega
    exact ⟨3#40, 0, 1, rfl, by decide, by decide, by decide⟩
  oneParent j hj := by
    refine ⟨2, by decide, by decide, ?_, fun m _ _ _ => by omega⟩
    obtain h | h : j = 0 ∨ j = 1 := by
      rcases j with ⟨j, hj'⟩
      simp only [Fin.ext_iff]
      simp only at hj
      show j = 0 ∨ j = 1
      omega
    all_goals subst h; decide
  rootFree i j h h' hc := by
    obtain rfl : i = 2 := by omega
    have hc : ((0 : NodeIx) == j || (1 : NodeIx) == j) = true := hc
    simp only [Bool.or_eq_true, beq_iff_eq] at hc
    rcases hc with rfl | rfl <;> decide
  sums i hi := by
    obtain rfl | rfl | rfl : i = 0 ∨ i = 1 ∨ i = 2 := by omega
    all_goals decide

theorem triple_shape : TreeShape triple.node 3 where
  size := by decide
  leaves i hi := by
    obtain rfl | rfl | rfl : i = 0 ∨ i = 1 ∨ i = 2 := by omega
    · exact ⟨0x61#8, 1#40, rfl, by decide, by decide⟩
    · exact ⟨0x62#8, 1#40, rfl, by decide, by decide⟩
    · exact ⟨0x63#8, 2#40, rfl, by decide, by decide⟩
  ascending i j c d f g h hj hi hj' := by
    obtain ⟨rfl, rfl⟩ | ⟨rfl, rfl⟩ | ⟨rfl, rfl⟩ : (i = 0 ∧ j = 1) ∨ (i = 0 ∧ j = 2) ∨ (i = 1 ∧ j = 2) := by omega
    · cases (show Node.leaf 0x61#8 1#40 = .leaf c f from hi)
      cases (show Node.leaf 0x62#8 1#40 = .leaf d g from hj')
      decide
    · cases (show Node.leaf 0x61#8 1#40 = .leaf c f from hi)
      cases (show Node.leaf 0x63#8 2#40 = .leaf d g from hj')
      decide
    · cases (show Node.leaf 0x62#8 1#40 = .leaf c f from hi)
      cases (show Node.leaf 0x63#8 2#40 = .leaf d g from hj')
      decide
  internals i h h' := by
    obtain rfl | rfl : i = 3 ∨ i = 4 := by omega
    · exact ⟨2#40, 0, 1, rfl, by decide, by decide, by decide⟩
    · exact ⟨4#40, 2, 3, rfl, by decide, by decide, by decide⟩
  oneParent j hj := by
    obtain h | h | h | h : j = 0 ∨ j = 1 ∨ j = 2 ∨ j = 3 := by
      rcases j with ⟨j, hj'⟩
      simp only [Fin.ext_iff]
      simp only at hj
      show j = 0 ∨ j = 1 ∨ j = 2 ∨ j = 3
      omega
    · subst h
      refine ⟨3, by decide, by decide, by decide, fun m hm hm' hc => ?_⟩
      obtain rfl | rfl : m = 3 ∨ m = 4 := by omega
      · rfl
      · exact absurd hc (by decide)
    · subst h
      refine ⟨3, by decide, by decide, by decide, fun m hm hm' hc => ?_⟩
      obtain rfl | rfl : m = 3 ∨ m = 4 := by omega
      · rfl
      · exact absurd hc (by decide)
    · subst h
      refine ⟨4, by decide, by decide, by decide, fun m hm hm' hc => ?_⟩
      obtain rfl | rfl : m = 3 ∨ m = 4 := by omega
      · exact absurd hc (by decide)
      · rfl
    · subst h
      refine ⟨4, by decide, by decide, by decide, fun m hm hm' hc => ?_⟩
      obtain rfl | rfl : m = 3 ∨ m = 4 := by omega
      · exact absurd hc (by decide)
      · rfl
  rootFree i j h h' hc := by
    obtain rfl | rfl : i = 3 ∨ i = 4 := by omega
    · have hc : ((0 : NodeIx) == j || (1 : NodeIx) == j) = true := hc
      simp only [Bool.or_eq_true, beq_iff_eq] at hc
      rcases hc with rfl | rfl <;> decide
    · have hc : ((2 : NodeIx) == j || (3 : NodeIx) == j) = true := hc
      simp only [Bool.or_eq_true, beq_iff_eq] at hc
      rcases hc with rfl | rfl <;> decide
  sums i hi := by
    obtain rfl | rfl | rfl | rfl | rfl : i = 0 ∨ i = 1 ∨ i = 2 ∨ i = 3 ∨ i = 4 := by omega
    all_goals decide

theorem lone_treeOk : lone.treeOk := ⟨rfl, rfl, lone_shape, rfl⟩

theorem pair_treeOk : pair.treeOk := ⟨rfl, rfl, pair_shape, rfl⟩

theorem triple_treeOk : triple.treeOk := ⟨rfl, rfl, triple_shape, rfl⟩

theorem pair_internal : internalRoot pair.node pair.root := ⟨3#40, 0, 1, rfl⟩

theorem triple_internal : internalRoot triple.node triple.root := ⟨4#40, 2, 3, rfl⟩

theorem start_capsOk : start.capsOk := show start.caps.wf = true from rfl

theorem lone_capsOk : lone.capsOk := show lone.caps.wf = true from rfl

theorem pair_capsOk : pair.capsOk := show pair.caps.wf = true from rfl

theorem triple_capsOk : triple.capsOk := show triple.caps.wf = true from rfl

/-! ### One step of each command -/

/-- V-C1, with an ESTICKY, an ERRINFO and a RESULT from before. -/
theorem test_nop :
    after (exec .nop { pair with result := some .malformedStream, esticky := 0x08#8, errinfo := 21#32 })
      (fun t => (t.status, t.esticky, t.errinfo)) = some (0x10#32, 0x08#8, 0#32) := by decide

/-- V-C7 on the smaller state: CLEAR keeps the buffers' contents. -/
theorem test_clear :
    after (exec .clear { pair with esticky := 0x10#8, outlen := 1#32, outbuf := [(0, 0x61#8)], cursor := 2 })
      (fun t => ([t.status.toNat, t.esticky.toNat, t.symlen.toNat, t.bitlen.toNat, t.outlen.toNat, t.nodecnt.toNat,
        t.root.val, t.cursor.val], [hostRead t 5#4 0#28, hostRead t 3#4 0#28, hostRead t 2#4 0#28])) =
      some ([0, 0, 0, 0, 0, 0, 0, 0], [none, none, some 0x60#256]) := by decide

theorem test_clear_tables :
    after (exec .clear pair) (fun t => (t.freq.at 0xFF#8, t.code.at 0xFF#8)) = some (0#32, none) := by decide

/-- V-F3; an old count is discarded (V-F1). -/
theorem test_count :
    after (exec .count { pair with freq := FreqTable.empty.put 0x7A#8 99#32 })
      (fun t => (t.freq.at 0x00#8, t.freq.at 0xFF#8, t.freq.at 0x7A#8, t.status)) =
      some (1#32, 2#32, 0#32, 0x10#32) := by decide

/-- V-F6. -/
theorem test_count_too_long :
    after (exec .count { start with symlen := 9#32, freq := FreqTable.empty.put 0x41#8 7#32 })
      (fun t => (t.status, t.esticky, t.errinfo, t.freq.at 0x41#8)) = some (5#32, 0x20#8, 9#32, 7#32) := by decide

set_option maxRecDepth 100000 in
/-- V-B4: the lower count goes left whatever the symbol order. -/
theorem test_build :
    after (exec .build { start with freq := (FreqTable.empty.put 0x61#8 2#32).put 0x62#8 1#32 })
      (fun t => ([t.status.toNat, t.nsym.toNat, t.nodecnt.toNat, t.root.val],
        [hostRead t 5#4 2#28, hostRead t 5#4 3#28])) =
      some ([0x10, 2, 3, 2], [some 0x8000010000000003#256, none]) := by decide

set_option maxRecDepth 100000 in
/-- V-B9. -/
theorem test_build_empty :
    after (exec .build { pair with freq := FreqTable.empty })
      (fun t => ([t.status.toNat, t.esticky.toNat, t.nodecnt.toNat], hostRead t 5#4 0#28, t.code.at 0x00#8)) =
      some ([1, 0x02, 0], none, some [false]) := by decide

/-- V-G5. -/
theorem test_gencode :
    after (exec .gencode triple) (fun t => [0x61#8, 0x62#8, 0x63#8, 0x64#8].map t.code.at) =
      some [some [true, false], some [true, true], some [false], none] := by decide

/-- V-G2, and the words a host reads. -/
theorem test_gencode_lone_leaf :
    after (exec .gencode lone)
      (fun t => (hostRead t 6#4 0x61#28, hostRead t 7#4 0x61#28, t.status)) =
      some (some 0x8001#256, some 0#256, 0x30#32) := by decide

/-- V-E5. -/
theorem test_encode :
    after (exec .encode { pair with bitbuf := [(0, 0xFF#8)], bitlen := 0#32 })
      (fun t => (t.bitlen, t.bitbuf, t.status)) = some (3#32, [(0, 0x60#8)], 0x10#32) := by decide

/-- V-E7 on the smaller state: the codes before the missing one are packed. -/
theorem test_encode_missing_code :
    after (exec .encode { pair with symbuf := [(0, 0xFF#8), (1, 0x78#8)], symlen := 2#32 })
      (fun t => (t.bitlen, t.bitbuf, t.status, t.errinfo, t.esticky)) =
      some (1#32, [(0, 0x80#8)], 0x12#32, 1#32, 0x04#8) := by decide

/-- V-D10. -/
theorem test_decode :
    after (exec .decode pair) (fun t => (t.outlen, t.outbuf, t.cursor.val, t.status)) =
      some (3#32, [(0, 0x00#8), (1, 0xFF#8), (2, 0xFF#8)], 2, 0x10#32) := by decide

/-- V-D6: a 1 bit under a lone leaf. -/
theorem test_decode_lone_leaf :
    after (exec .decode lone) (fun t => (t.outlen, t.outbuf, t.cursor.val, t.status, t.errinfo)) =
      some (2#32, [(0, 0x61#8), (1, 0x61#8)], 0, 0x33#32, 2#32) := by decide

/-! ### The host port -/

/-- V-C4: an illegal word written to CMD. -/
theorem test_illegal_command :
    after (step { start with host := [.write 0#4 1#28 0x100#256] })
      (fun t => (t.status, t.esticky, t.errinfo, t.port)) = some (4#32, 0x10#8, 256#32, some .ok) := by decide

/-- V-H8 and V-H9. -/
theorem test_esticky_one_to_clear :
    after (step { start with esticky := 0x0C#8, host := [.write 0#4 3#28 0xFFFFFF04#256] }) (fun t => t.esticky) =
      some 0x08#8 := by decide

/-- V-H12: the value is truncated to the word of the space. -/
theorem test_symbuf_write_truncates :
    after (step { start with host := [.write 1#4 0#28 0x1FF#256] }) (fun t => hostRead t 1#4 0#28) =
      some (some 0xFF#256) := by decide

/-- V-H1, V-H3, V-H6 and V-C9. -/
theorem test_reads :
    [hostRead start 0#4 0#28, hostRead start 0#4 1#28, hostRead start 5#4 0#28, hostRead start 8#4 0#28,
      hostRead start 0#4 15#28, hostRead start 4#4 256#28, hostRead start 1#4 8#28] =
      [some 0x48554646#256, some 0#256, none, none, none, none, none] := by decide

/-- V-D1 and V-H5 on the smaller state: the port's answer to reads of OUTBUF below and at OUTLEN. -/
theorem test_outbuf_read :
    let s : State := { start with outlen := 1#32, outbuf := [(0, 0x61#8)] }
    [0#28, 1#28].map (fun ix => after (step { s with host := [.read 3#4 ix] }) (fun t => t.port)) =
      [some (some (.data 0x61#256)), some (some .accessError)] := by decide

/-- V-H13: a count the host writes is the count it reads back. -/
theorem test_freq_write_read :
    after (step { pair with host := [.write 4#4 0x61#28 7#256] })
      (fun t => (hostRead t 4#4 0x61#28, hostRead t 4#4 0xFF#28, t.status)) =
      some (some 7#256, some 2#256, 0x10#32) := by decide

/-- V-H2 and V-H7. -/
theorem test_refused_writes :
    [Txn.write 0#4 0#28 0#256, .write 5#4 0#28 0#256, .write 6#4 0x61#28 0x8001#256, .write 7#4 0x61#28 0#256,
      .write 3#4 0#28 0#256, .write 0#4 2#28 0#256, .write 0#4 7#28 0#256, .write 0#4 12#28 0#256].map
      (fun x => after (step { start with host := [x] }) (fun t => t.port)) =
      List.replicate 8 (some (some .accessError)) := by decide

/-- V-R2: DECODE is the first command after reset. -/
theorem test_withFetchWord :
    after (step (State.reset.withFetchWord 32 6)) (fun t => (t.status, t.esticky, t.host)) =
      some (6#32, 0x40#8, []) := by decide

/-- The reset event keeps the host's pending transactions and clears the length registers (R52, R230). -/
theorem test_reset_event :
    after (step { pair with esticky := 0x02#8, host := [.reset, .read 0#4 0#28] })
      (fun t => (t.status, t.esticky, t.symlen, t.bitlen, t.host)) =
      some (0#32, 0#8, 0#32, 0#32, [.read 0#4 0#28]) := by decide

/-! ### Witnesses: for every obligation with hypotheses, terms that meet them all -/

/-- ClearResetsTables, its last clause: a NOP with a bit of ESTICKY set. -/
theorem witness_ClearResetsTables :
    Instr.nop ≠ .clear ∧ (∃ t, exec .nop { start with esticky := 0x02#8 } = .next t) ∧ (0x02#8).getLsbD 1 = true :=
  ⟨by decide, ⟨_, rfl⟩, rfl⟩

theorem witness_DecodeEncodeAgree : Instr.decode.wf = true ∧ decodeCommand 6#32 = .ok .decode := ⟨rfl, rfl⟩

/-- A port word with bits above 31 set is truncated before it is decoded. -/
theorem witness_StepRunsDecodedCommand : decodeCommand ((0xABCD00000002#256).setWidth 32) = .ok .count := rfl

theorem witness_IllegalCommandRecordsWord :
    wordWf ((0x7#256).setWidth 32) = false ∧ wordWf ((0x100#256).setWidth 32) = false := by decide

/-- Every error is raised by some command. -/
theorem witness_ErrorsBelongToCommands :
    (∃ t, exec .encode { pair with code := CodeTable.empty } = .next t ∧ t.result = some .missingCode) ∧
    (∃ t, exec .decode lone = .next t ∧ t.result = some .malformedStream) ∧
    (∃ t, exec .count { start with symlen := 9#32 } = .next t ∧ t.result = some .capacity) ∧
    (∃ t, exec .encode { start with symlen := 9#32 } = .next t ∧ t.result = some .capacity) ∧
    (∃ t, exec .decode { lone with bitlen := 33#32 } = .next t ∧ t.result = some .capacity) ∧
    (∃ t, exec .decode start = .next t ∧ t.result = some .noTree) :=
  ⟨⟨_, rfl, rfl⟩, ⟨_, rfl, rfl⟩, ⟨_, rfl, rfl⟩, ⟨_, rfl, rfl⟩, ⟨_, rfl, rfl⟩, ⟨_, rfl, rfl⟩⟩

set_option maxRecDepth 100000 in
theorem witness_ErrorsBelongToCommands_emptyInput :
    ∃ t, exec .build start = .next t ∧ t.result = some .emptyInput := ⟨_, rfl, rfl⟩

theorem witness_CommandsTouchOnlyTheirRow : pair.capsOk ∧ ∀ i, ∃ t, exec i pair = .next t :=
  ⟨pair_capsOk, fun i => exec_next i pair⟩

/-- For the two statements on COUNT; the second state is at the boundary SYMLEN = SYM_CAP. -/
theorem witness_CountTalliesSymbols :
    (pair.capsOk ∧ pair.symlen.toNat ≤ pair.caps.symCap) ∧
    ({ pair with symlen := 8#32 } : State).symlen.toNat ≤ pair.caps.symCap := ⟨⟨pair_capsOk, by decide⟩, by decide⟩

/-- CountTotalIsSymlen, at SYMLEN = 0. -/
theorem witness_CountTotalIsSymlen : start.capsOk ∧ start.symlen.toNat ≤ start.caps.symCap :=
  ⟨start_capsOk, by decide⟩

theorem witness_SymlenAboveCapacityFails :
    (Instr.count = .count ∨ Instr.count = .encode) ∧ (Instr.encode = .count ∨ Instr.encode = .encode) ∧
    start.caps.symCap < ({ start with symlen := 9#32 } : State).symlen.toNat := by decide

theorem witness_BuildOnEmptyTableFails : ∀ c, start.freq.at c = 0#32 := fun c => FreqTable.empty_at c

/-- For the statements on BUILD of a table that is not empty: BuildMakesTree, BuildLeavesInSymbolOrder,
BuildMergesTheTwoLowest, RootFrequencyIsTotal, InternalFrequenciesNondecreasing. -/
theorem witness_BuildMakesTree : pair.present ≠ [] :=
  List.ne_nil_of_mem ((mem_present pair 0xFF#8).mpr (by decide))

theorem witness_BuildLeavesInSymbolOrder : lone.present ≠ [] :=
  List.ne_nil_of_mem ((mem_present lone 0x61#8).mpr (by decide))

/-- A table of two symbols: index 2 is an internal node. -/
theorem witness_BuildMergesTheTwoLowest :
    pair.present ≠ [] ∧ ∃ i, pair.present.length ≤ i ∧ i < 2 * pair.present.length - 1 := by
  have hm := (mem_present pair 0x00#8).mpr (by decide)
  have hn := (mem_present pair 0xFF#8).mpr (by decide)
  have h2 : 2 ≤ pair.present.length := by
    match h : pair.present with
    | [] => rw [h] at hm; cases hm
    | [x] =>
      rw [h, List.mem_singleton] at hm hn
      exact absurd (hm.trans hn.symm) (by decide)
    | _ :: _ :: _ => simp
  exact ⟨List.ne_nil_of_mem hm, pair.present.length, Nat.le_refl _, by omega⟩

theorem witness_RootFrequencyIsTotal : pair.present ≠ [] := witness_BuildMakesTree

theorem witness_InternalFrequenciesNondecreasing :
    pair.present ≠ [] ∧ ∃ i j, pair.present.length ≤ i ∧ i ≤ j ∧ j < 2 * pair.present.length - 1 := by
  obtain ⟨h, i, hi, hj⟩ := witness_BuildMergesTheTwoLowest
  exact ⟨h, i, i, hi, Nat.le_refl _, hj⟩

theorem witness_BuildOneSymbolIsLoneLeaf :
    lone.freq.at 0x61#8 ≠ 0#32 ∧ ∀ d, d ≠ 0x61#8 → lone.freq.at d = 0#32 :=
  ⟨by decide, fun d h => (FreqTable.at_put_other _ _ d _ h).trans (FreqTable.empty_at d)⟩

/-- Two states that agree on FREQ and on no other table. -/
theorem witness_BuildDependsOnFreqAlone :
    pair.freq = ({ start with freq := pair.freq } : State).freq ∧ pair.symlen ≠ start.symlen := ⟨rfl, by decide⟩

theorem witness_GencodeWithoutTreeIsEmpty : start.tv = false ∧ (255#28).toNat < 256 := by decide

theorem witness_GencodeLoneLeafIsZero : lone.tv = true ∧ lone.node.at lone.root = .leaf 0x61#8 4#40 := ⟨rfl, rfl⟩

/-- With a code that leads to the leaf of 0xFF. -/
theorem witness_GencodeRecordsPaths :
    pair.tv = true ∧ pair.treeOk ∧ internalRoot pair.node pair.root ∧
      leadsToLeaf pair.node pair.root [true] 0xFF#8 :=
  ⟨rfl, pair_treeOk, pair_internal, 1, 2#40, rfl, rfl⟩

/-- A tree of two leaves or more, and a lone leaf. -/
theorem witness_CodesCoverLeavesAndAreShort :
    (triple.tv = true ∧ triple.treeOk ∧ 2 ≤ triple.nsym.toNat) ∧
    (lone.tv = true ∧ lone.treeOk ∧ lone.nsym.toNat = 1) :=
  ⟨⟨rfl, triple_treeOk, by decide⟩, rfl, lone_treeOk, by decide⟩

theorem witness_CodesArePrefixFree : triple.tv = true ∧ triple.treeOk := ⟨rfl, triple_treeOk⟩

theorem witness_KraftSumIsOne : pair.tv = true ∧ pair.treeOk ∧ 2 ≤ pair.nsym.toNat :=
  ⟨rfl, pair_treeOk, by decide⟩

/-- Two states that agree on the tree and not on CODE. -/
theorem witness_GencodeDependsOnTreeAlone :
    pair.treeOk ∧ ({ pair with code := CodeTable.empty } : State).treeOk := ⟨pair_treeOk, pair_treeOk⟩

theorem pair_input : pair.input = [0x00#8, 0xFF#8, 0xFF#8] := by decide

theorem witness_EncodeConcatenatesCodes :
    pair.capsOk ∧ pair.symlen.toNat ≤ pair.caps.symCap ∧
      (∀ c, c ∈ pair.input → (pair.code.at c).isSome = true) ∧
      (pair.codesOf pair.input).length ≤ 8 * pair.caps.bitCap :=
  ⟨pair_capsOk, by decide, by rw [pair_input]; decide, by decide⟩

/-- Symbol 1 of the input has no code. -/
def missing : State := { pair with symbuf := [(0, 0xFF#8), (1, 0x78#8)], symlen := 2#32 }

theorem witness_EncodeStopsAtMissingCode :
    missing.capsOk ∧ missing.symlen.toNat ≤ missing.caps.symCap ∧ 1 < missing.symlen.toNat ∧
      (∀ j, j < 1 → (missing.code.at (missing.symByte j)).isSome = true) ∧
      missing.code.at (missing.symByte 1) = none ∧
      (missing.codesOf (missing.input.take 1)).length ≤ 8 * missing.caps.bitCap := by
  refine ⟨show missing.caps.wf = true from rfl, by decide, by decide, fun j hj => ?_, by decide, by decide⟩
  obtain rfl : j = 0 := by omega
  decide

/-- A BITBUF of one byte and a code of five bits: symbol 1 does not fit. -/
def crowded : State :=
  { pair with
    caps := ⟨2, 1, 2⟩, symbuf := [(0, 0xFF#8), (1, 0xFF#8)], symlen := 2#32
    code := CodeTable.empty.put 0xFF#8 [true, true, false, true, true] }

theorem witness_EncodeStopsAtFullBuffer :
    crowded.capsOk ∧ crowded.symlen.toNat ≤ crowded.caps.symCap ∧ 1 < crowded.symlen.toNat ∧
      (∀ j, j ≤ 1 → (crowded.code.at (crowded.symByte j)).isSome = true) ∧
      (crowded.codesOf (crowded.input.take 1)).length ≤ 8 * crowded.caps.bitCap ∧
      8 * crowded.caps.bitCap < (crowded.codesOf (crowded.input.take (1 + 1))).length := by
  refine ⟨show crowded.caps.wf = true from rfl, by decide, by decide, fun j hj => ?_, by decide, by decide⟩
  obtain rfl | rfl : j = 0 ∨ j = 1 := by omega
  all_goals decide

theorem witness_EncodeOfEmptyInput : start.symlen = 0#32 := rfl

/-- Two states that agree on the input and the table and not on BITBUF. -/
theorem witness_EncodeDependsOnInputAndCode :
    pair.capsOk ∧ pair.symlen.toNat ≤ pair.caps.symCap ∧
      (∀ i, i < pair.symlen.toNat → pair.symByte i = ({ pair with bitbuf := [], bitlen := 0#32 } : State).symByte i) :=
  ⟨pair_capsOk, by decide, fun _ _ => rfl⟩

theorem witness_DecodeWithoutTreeFails : start.tv = false := rfl

/-- At the boundary: BIT_CAP = 4 and BITLEN = 33. -/
theorem witness_BitlenAboveCapacityFails :
    lone.tv = true ∧ 8 * lone.caps.bitCap < ({ lone with bitlen := 33#32 } : State).bitlen.toNat := by decide

theorem pair_payload : pair.payload = [false, true, true] := by decide

/-- The codewords of the tree of V-B10. -/
theorem pair_codeword_00 : codeword pair.node pair.root 0x00#8 [false] := ⟨0, 1#40, rfl, rfl⟩

theorem pair_codeword_FF : codeword pair.node pair.root 0xFF#8 [true] := ⟨1, 2#40, rfl, rfl⟩

theorem pair_spells_00_FF : spells pair.node pair.root [0x00#8, 0xFF#8] [false, true] :=
  ⟨[false], [true], rfl, pair_codeword_00, [true], [], rfl, pair_codeword_FF, rfl⟩

theorem witness_DecodeEmitsSpelledSymbols :
    pair.capsOk ∧ pair.tv = true ∧ pair.treeOk ∧ pair.bitlen.toNat ≤ 8 * pair.caps.bitCap ∧
      spells pair.node pair.root [0x00#8, 0xFF#8, 0xFF#8] pair.payload ∧ [0x00#8, 0xFF#8, 0xFF#8].length ≤ pair.caps.outCap :=
  ⟨pair_capsOk, rfl, pair_treeOk, by decide,
    by rw [pair_payload]
       exact ⟨[false], [true, true], rfl, pair_codeword_00, [true], [true], rfl, pair_codeword_FF, [true], [], rfl,
         pair_codeword_FF, rfl⟩,
    by decide⟩

/-- And its DECODE ends without error. -/
theorem witness_DecodeSuccessIsSpelled :
    pair.capsOk ∧ pair.tv = true ∧ pair.treeOk ∧ pair.bitlen.toNat ≤ 8 * pair.caps.bitCap ∧
      ∃ t, exec .decode pair = .next t ∧ t.result = none :=
  ⟨pair_capsOk, rfl, pair_treeOk, by decide, _, rfl, rfl⟩

/-- The payload "01" of the tree of V-B5: c, then a 1 that ends at node 3. -/
theorem witness_DecodeEndingMidCodeFails :
    triple.capsOk ∧ triple.tv = true ∧ triple.treeOk ∧ triple.bitlen.toNat ≤ 8 * triple.caps.bitCap ∧
      internalRoot triple.node triple.root ∧ [0x63#8].length ≤ triple.caps.outCap ∧
      triple.payload = [false] ++ [true] ∧ spells triple.node triple.root [0x63#8] [false] ∧
      [true] ≠ ([] : BitString) ∧ descend triple.node triple.root [true] = some 3 ∧ internalRoot triple.node 3 :=
  ⟨triple_capsOk, rfl, triple_treeOk, by decide, triple_internal, by decide, by decide,
    ⟨[false], [], rfl, ⟨2, 2#40, rfl, rfl⟩, rfl⟩, by decide, rfl, 2#40, 0, 1, rfl⟩

theorem witness_DecodeLoneLeafRejectsOne :
    lone.capsOk ∧ lone.tv = true ∧ lone.bitlen.toNat ≤ 8 * lone.caps.bitCap ∧
      lone.node.at lone.root = .leaf 0x61#8 4#40 ∧ 2 < lone.bitlen.toNat ∧ 2 ≤ lone.caps.outCap ∧
      (∀ n, n < 2 → lone.getBit n = false) ∧ lone.getBit 2 = true := by
  refine ⟨lone_capsOk, rfl, by decide, rfl, by decide, by decide, fun n hn => ?_, by decide⟩
  obtain rfl | rfl : n = 0 ∨ n = 1 := by omega
  all_goals decide

/-- An OUTBUF of two bytes: the third symbol does not fit (V-D15). -/
def brimful : State := { pair with caps := ⟨2, 4, 2⟩ }

theorem witness_DecodeStopsAtFullOutput :
    brimful.capsOk ∧ brimful.tv = true ∧ brimful.treeOk ∧ brimful.bitlen.toNat ≤ 8 * brimful.caps.bitCap ∧
      [0x00#8, 0xFF#8].length = brimful.caps.outCap ∧ brimful.payload = [false, true] ++ [true] ++ [] ∧
      spells brimful.node brimful.root [0x00#8, 0xFF#8] [false, true] ∧
      codeword brimful.node brimful.root 0xFF#8 [true] :=
  ⟨show brimful.caps.wf = true from rfl, rfl, pair_treeOk, by decide, rfl, by decide, pair_spells_00_FF, pair_codeword_FF⟩

theorem witness_DecodedLengthIsBounded :
    pair.capsOk ∧ pair.tv = true ∧ pair.bitlen.toNat ≤ 8 * pair.caps.bitCap := ⟨pair_capsOk, rfl, by decide⟩

/-- Two states that differ in the padding bits of the payload's last byte (V-D8). -/
theorem witness_DecodeDependsOnTreeAndPayload :
    pair.capsOk ∧ pair.tv = true ∧ pair.treeOk ∧ ({ pair with bitbuf := [(0, 0x7F#8)] } : State).treeOk ∧
      pair.bitlen.toNat ≤ 8 * pair.caps.bitCap ∧
      pair.payload = ({ pair with bitbuf := [(0, 0x7F#8)] } : State).payload :=
  ⟨pair_capsOk, rfl, pair_treeOk, pair_treeOk, by decide, by decide⟩

theorem witness_RoundTripRecoversInput :
    pair.capsOk ∧ 1 ≤ pair.symlen.toNat ∧ pair.symlen.toNat ≤ pair.caps.symCap := ⟨pair_capsOk, by decide, by decide⟩

/-- A refused and an accepted access of each kind, at the boundary of each range. -/
theorem witness_AccessErrorsExactly :
    start.readRefused 8#4 0#28 ∧ start.readRefused 1#4 8#28 ∧ ¬ start.readRefused 1#4 7#28 ∧
      start.readRefused 3#4 0#28 ∧ pair.readRefused 5#4 3#28 ∧ ¬ pair.readRefused 5#4 2#28 ∧
      start.writeRefused 4#4 256#28 ∧ ¬ start.writeRefused 4#4 255#28 ∧ start.writeRefused 0#4 0#28 ∧
      ¬ start.writeRefused 0#4 1#28 ∧ start.writeRefused 7#4 0#28 := by
  unfold State.readRefused State.writeRefused
  refine ⟨?_, ?_, ?_, ?_, ?_, ?_, ?_, ?_, ?_, ?_, ?_⟩
  all_goals decide

theorem witness_HostWriteEffects :
    start.writeRefused 5#4 0#28 ∧ (7#28).toNat < start.caps.symCap ∧ (3#28).toNat < start.caps.bitCap ∧
      (255#28).toNat < 256 := by
  unfold State.writeRefused
  decide

/-- A read that is answered with data, and one that is not: NODE at and below NODECNT - 1. -/
theorem witness_ReadChangesNoState :
    hostRead pair 5#4 2#28 = some 0x8002000000000003#256 ∧ hostRead pair 5#4 3#28 = none := by decide

/-- The reads: at the last index of SYMBUF, BITBUF and FREQ, and at the last byte of OUTBUF below OUTLEN. -/
theorem witness_BufferReadsAfterWrite_reads :
    let s : State := { pair with outlen := 8#32 }
    (7#28).toNat < s.caps.symCap ∧ (3#28).toNat < s.caps.bitCap ∧
      ((7#28).toNat < s.caps.outCap ∧ (7#28).toNat < s.outlen.toNat) ∧ (255#28).toNat < 256 := by decide

/-- The writes: at the last index of SYMBUF, of BITBUF and of FREQ. -/
theorem witness_BufferReadsAfterWrite :
    ((1#4 = 1#4 ∧ (7#28).toNat < start.caps.symCap) ∧
      ∃ t, step { start with host := .write 1#4 7#28 5#256 :: [] } = .next t) ∧
    ((2#4 = 2#4 ∧ (3#28).toNat < start.caps.bitCap) ∧
      ∃ t, step { start with host := .write 2#4 3#28 5#256 :: [] } = .next t) ∧
    (4#4 = 4#4 ∧ (255#28).toNat < 256) ∧
      ∃ t, step { start with host := .write 4#4 255#28 5#256 :: [] } = .next t :=
  ⟨⟨by decide, _, rfl⟩, ⟨by decide, _, rfl⟩, by decide, _, rfl⟩

/-- Every result a state can hold. -/
theorem witness_StatusAndErrorOutput :
    start.result = none ∧ ({ start with result := some .emptyInput } : State).result = some .emptyInput ∧
      ({ start with result := some .missingCode } : State).result = some .missingCode ∧
      ({ start with result := some .malformedStream } : State).result = some .malformedStream ∧
      ({ start with result := some .illegalCommand } : State).result = some .illegalCommand ∧
      ({ start with result := some .capacity } : State).result = some .capacity ∧
      ({ start with result := some .noTree } : State).result = some .noTree := ⟨rfl, rfl, rfl, rfl, rfl, rfl, rfl⟩

theorem witness_RegistersReadAsListed : start.capsOk := start_capsOk

/-- A leaf, an internal node, a symbol without a code at the last index, and one with a code. -/
theorem witness_TableWordsArePacked :
    ((0#28).toNat < pair.nodecnt.toNat ∧ pair.node.nth (0#28).toNat = .leaf 0x00#8 1#40) ∧
    ((2#28).toNat < pair.nodecnt.toNat ∧ (2#28).toNat < 511 ∧ pair.node.nth (2#28).toNat = .internal 3#40 0 1) ∧
    ((254#28).toNat < 256 ∧ pair.code.at ((254#28).setWidth 8) = none) ∧
    ((255#28).toNat < 256 ∧ pair.code.at ((255#28).setWidth 8) = some [true] ∧ [true].length ≤ 255) := by decide

theorem witness_TreeChangesOnlyByBuildClearReset :
    let s : State := { pair with host := [.read 0#4 0#28] }
    (∃ t, step s = .next t) ∧ ¬ s.commandNext .build ∧ ¬ s.commandNext .clear ∧ ¬ s.resetNext := by
  refine ⟨⟨_, rfl⟩, ?_, ?_, ?_⟩
  · rintro ⟨v, rest, h, -⟩
    cases h
  · rintro ⟨v, rest, h, -⟩
    cases h
  · rintro ⟨rest, h⟩
    cases h

theorem witness_StickyBitsStayUntilCleared :
    ∃ t, step { pair with esticky := 0x02#8, host := [.write 0#4 3#28 0x02#256] } = .next t ∧
      (0x02#8).getLsbD 1 = true ∧ t.esticky.getLsbD 1 = false := ⟨_, rfl, rfl, rfl⟩

theorem pair_buffersOk : pair.buffersOk := by
  unfold State.buffersOk Memory.within
  decide

theorem pair_registersOk : pair.registersOk := ⟨rfl, rfl, by decide, fun i hi => absurd hi (Nat.not_lt_zero i)⟩

theorem pair_codesOk : pair.codesOk := by
  have key : ∀ c p, pair.code.at c = some p → (c = 0xFF#8 ∧ p = [true]) ∨ (c = 0x00#8 ∧ p = [false]) := by
    intro c p h
    by_cases h1 : c = 0xFF#8
    · subst h1
      have h : some [true] = some p := h
      injection h with h
      exact .inl ⟨rfl, h.symm⟩
    · by_cases h0 : c = 0x00#8
      · subst h0
        have h : some [false] = some p := h
        injection h with h
        exact .inr ⟨rfl, h.symm⟩
      · have h : ((CodeTable.empty.put 0x00#8 [false]).put 0xFF#8 [true]).at c = some p := h
        rw [CodeTable.at_put_other _ _ c _ h1, CodeTable.at_put_other _ _ c _ h0, CodeTable.empty_at] at h
        cases h
  constructor
  · intro c p h
    obtain ⟨-, rfl⟩ | ⟨-, rfl⟩ := key c p h <;> decide
  · intro c d p q hne hc hd
    obtain ⟨rfl, rfl⟩ | ⟨rfl, rfl⟩ := key c p hc <;> obtain ⟨rfl, rfl⟩ | ⟨rfl, rfl⟩ := key d q hd
    · exact absurd rfl hne
    · decide
    · decide
    · exact absurd rfl hne

/-- For the invariants that every step keeps: the next step is the DECODE of the tree's payload. -/
theorem witness_StepKeepsInvariants :
    let s : State := { pair with host := [.write 0#4 1#28 6#256] }
    s.capsOk ∧ s.buffersOk ∧ s.registersOk ∧ s.treeOk ∧ s.codesOk ∧ ∃ t, step s = .next t :=
  ⟨pair_capsOk, pair_buffersOk, pair_registersOk, pair_treeOk, pair_codesOk, _, rfl⟩

end Sys2Proof.Tests
end

section
/-! PROOFS. The invariants at reset: the reset table of R52 meets each of them, whatever the capacities, the number of
resets taken and the transactions still to come, so the reset event meets them as State.reset does. -/

namespace Sys2Proof.Machine

/-- The capacities after reset are the ones given, so R6 holds of the state when it holds of them. -/
theorem State.resetWith_capsOk {c : Caps} (hc : c.wf = true) (n : Nat) (h : List Txn) :
    (State.resetWith c n h).capsOk := hc

theorem Caps.reference_wf : Caps.reference.wf = true := by decide

/-- R52 leaves no byte written in any of the three buffers. -/
theorem State.resetWith_buffersOk (c : Caps) (n : Nat) (h : List Txn) : (State.resetWith c n h).buffersOk :=
  ⟨Memory.within_nil c.symCap, Memory.within_nil c.bitCap, Memory.within_nil c.outCap⟩

/-- OUTLEN = 0 bounds nothing below it, so no byte of OUTBUF is readable and none has to be written. -/
theorem State.resetWith_registersOk (c : Caps) (n : Nat) (h : List Txn) : (State.resetWith c n h).registersOk :=
  ⟨BitVec.getLsbD_zero, BitVec.getLsbD_zero, Nat.zero_le c.outCap, fun i hi => absurd hi (Nat.not_lt_zero i)⟩

/-- With TV = 0 the tree invariant asks only for the values that R31 to R33 and R42 give where there is no tree. -/
theorem State.treeOk_of_tv_false {s : State} (htv : s.tv = false)
    (hnone : s.nsym = 0#9 ∧ s.nodecnt = 0#10 ∧ s.root = 0 ∧ s.inq = []) : s.treeOk := by
  rw [State.treeOk, htv]
  exact hnone

theorem State.resetWith_treeOk (c : Caps) (n : Nat) (h : List Txn) : (State.resetWith c n h).treeOk :=
  State.treeOk_of_tv_false rfl ⟨rfl, rfl, rfl, rfl⟩

/-- An empty code table is sound: it holds no code whose length or prefixes could matter. -/
theorem State.codesOk_of_code_empty {s : State} (hs : s.code = CodeTable.empty) : s.codesOk := by
  have hnone : ∀ c p, s.code.at c ≠ some p := fun c p hp => by
    rw [hs, CodeTable.empty_at] at hp
    cases hp
  exact ⟨fun c p hp => absurd hp (hnone c p), fun c _ p _ _ hp _ => absurd hp (hnone c p)⟩

theorem State.resetWith_codesOk (c : Caps) (n : Nat) (h : List Txn) : (State.resetWith c n h).codesOk :=
  State.codesOk_of_code_empty (State.resetWith_code c n h)

theorem State.resetWith_noError (c : Caps) (n : Nat) (h : List Txn) : (State.resetWith c n h).noError :=
  State.resetWith_esticky c n h

/-- Settles O56: State.reset is the reset table at the reference capacities, which R6 allows. -/
theorem resetMeetsInvariants : Obligations.ResetMeetsInvariants :=
  ⟨State.resetWith_capsOk Caps.reference_wf 0 [], State.resetWith_buffersOk Caps.reference 0 [],
    State.resetWith_registersOk Caps.reference 0 [], State.resetWith_treeOk Caps.reference 0 [],
    State.resetWith_codesOk Caps.reference 0 [], State.resetWith_noError Caps.reference 0 []⟩

end Sys2Proof.Machine
end

section
/-! PROOFS. What each command leaves of the state, said once: the two ways a command ends, what a piece of work keeps
however it ends, and one inversion lemma for all seven commands. -/

namespace Sys2Proof.Machine

/-! ### The end of a command -/

/-- A command whose work left `u` ends in `t`: completed (R120), or with an error entered (R211). -/
def State.endsAs (u t : State) : Prop := t = u.succeed ∨ ∃ e info, t = u.raise e info

/-- What a piece of work establishes however it ends: `P` of what it goes on with, `Q` of the state it raises in. -/
def Run.sat {σ : Type} (r : Run σ) (P : σ → Prop) (Q : State → Prop) : Prop :=
  match r with
  | .ok s => P s
  | .raised s _ _ => Q s

theorem Run.sat_ok {σ : Type} {P : σ → Prop} {Q : State → Prop} {s : σ} (h : P s) : (Run.ok s).sat P Q := h

theorem Run.sat_raised {σ : Type} {P : σ → Prop} {Q : State → Prop} {s : State} {e : ErrorKind} {info : Word}
    (h : Q s) : (Run.raised s e info : Run σ).sat P Q := h

theorem Run.sat.imp {σ : Type} {r : Run σ} {P P' : σ → Prop} {Q Q' : State → Prop} (hr : r.sat P Q)
    (hP : ∀ s, P s → P' s) (hQ : ∀ s, Q s → Q' s) : r.sat P' Q' := by
  cases r with
  | ok s => exact hP s hr
  | raised s e info => exact hQ s hr

theorem Run.sat.andThen {σ τ : Type} {r : Run σ} {f : σ → Run τ} {P : σ → Prop} {P' : τ → Prop} {Q : State → Prop}
    (hr : r.sat P Q) (hf : ∀ s, P s → (f s).sat P' Q) : (r.andThen f).sat P' Q := by
  cases r with
  | ok s => exact hf s hr
  | raised s e info => exact hr

/-- The rule of the loop: what every round keeps, the loop keeps. -/
theorem forRange_sat {σ : Type} {body : Nat → σ → Run σ} {P : Nat → σ → Prop} {Q : State → Prop} {n : Nat} {s : σ}
    (h0 : P 0 s) (hbody : ∀ i u, i < n → P i u → (body i u).sat (P (i + 1)) Q) : (forRange body n s).sat (P n) Q := by
  induction n with
  | zero => exact h0
  | succ n ih =>
    exact (ih fun i u hi => hbody i u (Nat.lt_succ_of_lt hi)).andThen fun u hu => hbody n u (Nat.lt_succ_self n) hu

/-- The state a command ends in is one its work can leave, with the command's end. -/
theorem Run.sat.settle {r : Run State} {P : State → Prop} {t : State} (hr : r.sat P P) (h : r.settle = .next t) :
    ∃ u, P u ∧ u.endsAs t := by
  rcases Run.settle_cases h with ⟨u, rfl, ht⟩ | ⟨u, e, info, rfl, ht⟩
  · exact ⟨u, hr, .inl ht⟩
  · exact ⟨u, hr, .inr ⟨e, info, ht⟩⟩

/-! ### The work of ENCODE -/

/-- `u` is a state that the work of an ENCODE begun in `s` can leave: BITLEN and BITBUF are written and nothing else
(R79), and BITBUF stays within its capacity (R172). -/
structure State.Encoding (s u : State) : Prop where
  frame : u = { s with bitlen := u.bitlen, bitbuf := u.bitbuf }
  within : s.capsOk → Memory.within s.bitbuf s.caps.bitCap → Memory.within u.bitbuf s.caps.bitCap

theorem State.Encoding.refl (s : State) : s.Encoding s := ⟨rfl, fun _ h => h⟩

theorem State.Encoding.begin (s : State) : s.Encoding { s with bitlen := 0#32 } := ⟨rfl, fun _ h => h⟩

theorem State.Encoding.trans {s u v : State} (hu : s.Encoding u) (hv : u.Encoding v) : s.Encoding v := by
  have hcaps : u.caps = s.caps := by rw [hu.frame]
  refine ⟨?_, fun hc hw => ?_⟩
  · rw [hv.frame, hu.frame]
  · have := hv.within (by rwa [State.capsOk, hcaps])
    rw [hcaps] at this
    exact this (hu.within hc hw)

/-- The payload bound of legal capacities (R6, R29). -/
theorem State.capsOk.payloadBits_le {s : State} (h : s.capsOk) : s.caps.payloadBits ≤ 2 ^ 31 := by
  simp only [State.capsOk, Caps.wf, Caps.bitWf, Bool.and_eq_true, decide_eq_true_eq] at h
  obtain ⟨⟨-, -, hbit⟩, -⟩ := h
  unfold Caps.payloadBits
  omega

/-- Packing bits writes BITLEN and BITBUF alone (R172). -/
theorem packBits_frame (p : BitString) (s : State) :
    p.foldl packBit s = { s with bitlen := (p.foldl packBit s).bitlen, bitbuf := (p.foldl packBit s).bitbuf } := by
  induction p generalizing s with
  | nil => rfl
  | cons v p ih =>
    rw [List.foldl_cons, ih, packBit_frame s v]

theorem encSymStep_sat (i : Nat) (s : State) : (encSymStep i s).sat s.Encoding s.Encoding := by
  rcases encSymStep_cases i s with ⟨-, h⟩ | ⟨p, -, -, h⟩ | ⟨p, -, hfit, h⟩
  · exact h ▸ Run.sat_raised (.refl s)
  · exact h ▸ Run.sat_raised (.refl s)
  · refine h ▸ Run.sat_ok ⟨packBits_frame p s, fun hc hw => ?_⟩
    have := hc.payloadBits_le
    exact packBits_within p s _ (by omega) hfit hw

theorem encodeLoop_sat (s : State) (n : Nat) :
    (forRange encSymStep n { s with bitlen := 0#32 }).sat s.Encoding s.Encoding :=
  forRange_sat (P := fun _ => s.Encoding) (State.Encoding.begin s) fun i u _ hu =>
    (encSymStep_sat i u).imp (fun _ => hu.trans) (fun _ => hu.trans)

/-! ### The work of DECODE -/

/-- `u` is a state that the work of a DECODE begun in `s` can leave after at most `b` bits: OUTLEN, OUTBUF and CURSOR
are written and nothing else (R79), at most one symbol per bit has been emitted (R192 b), no more than OUT_CAP (R189),
and all of them stand in OUTBUF, within its capacity (R30). -/
structure State.Decoding (s : State) (b : Nat) (u : State) : Prop where
  frame : u = { s with outlen := u.outlen, outbuf := u.outbuf, cursor := u.cursor }
  outlen_le_bits : u.outlen.toNat ≤ b
  outlen_le_cap : u.outlen.toNat ≤ s.caps.outCap
  written : ∀ i, i < u.outlen.toNat → (Memory.find? u.outbuf i).isSome
  within : Memory.within s.outbuf s.caps.outCap → Memory.within u.outbuf s.caps.outCap

namespace State.Decoding

variable {s u : State} {b : Nat}

theorem begin (s : State) : s.Decoding 0 { s with outlen := 0#32 } :=
  ⟨rfl, Nat.le_refl 0, Nat.zero_le _, fun _ hi => absurd hi (Nat.not_lt_zero _), fun h => h⟩

theorem mono (h : s.Decoding b u) {c : Nat} (hbc : b ≤ c) : s.Decoding c u :=
  { h with outlen_le_bits := Nat.le_trans h.outlen_le_bits hbc }

theorem setCursor (h : s.Decoding b u) (j : NodeIx) : s.Decoding b { u with cursor := j } := by
  refine ⟨?_, h.outlen_le_bits, h.outlen_le_cap, h.written, h.within⟩
  rw [h.frame]

theorem caps_eq (h : s.Decoding b u) : u.caps = s.caps := by rw [h.frame]

/-- One more symbol is emitted (R189). -/
theorem emitted {w : Walker} (h : s.Decoding b w.st) (t : Byte) (hfull : w.st.outlen.toNat ≠ w.st.caps.outCap) :
    s.Decoding (b + 1) (w.emitted t).st := by
  rw [h.caps_eq] at hfull
  have hcap := h.outlen_le_cap
  have hbits := h.outlen_le_bits
  have hlen : (w.emitted t).st.outlen.toNat ≤ w.st.outlen.toNat + 1 := by
    simp only [Walker.emitted, BitVec.toNat_add]
    exact Nat.mod_le _ _
  refine ⟨?_, by omega, by omega, fun i hi => ?_, fun hw => Memory.put_within _ t (by omega) (h.within hw)⟩
  · simp only [Walker.emitted]
    rw [h.frame]
  · show (Memory.find? (Memory.put w.st.outbuf w.st.outlen.toNat t) i).isSome
    rw [Memory.find?_put]
    split
    · rfl
    · exact h.written i (by omega)

end State.Decoding

theorem decBitStep_sat {s : State} {b : Nat} {w : Walker} (h : s.Decoding b w.st) :
    (decBitStep b w).sat (fun v => s.Decoding (b + 1) v.st) (s.Decoding (b + 1)) := by
  have hstay := h.mono (Nat.le_succ b)
  rcases decBitStep_cases b w with ⟨_, l, r, _, _, _, -, -, e⟩ | ⟨_, l, r, _, _, -, -, -, e⟩ |
    ⟨_, _, _, t, _, -, -, hfull, e⟩ | ⟨_, _, -, -, e⟩ | ⟨_, _, -, -, -, e⟩ | ⟨t, _, -, -, hfull, e⟩
  · exact e ▸ Run.sat_ok hstay
  · exact e ▸ Run.sat_raised (hstay.setCursor _)
  · exact e ▸ Run.sat_ok (h.emitted t hfull)
  · exact e ▸ Run.sat_raised (hstay.setCursor _)
  · exact e ▸ Run.sat_raised (hstay.setCursor _)
  · exact e ▸ Run.sat_ok (h.emitted t hfull)

theorem decodeBody_sat (s : State) :
    (decodeBody s).sat (s.Decoding s.bitlen.toNat) (s.Decoding s.bitlen.toNat) := by
  refine Run.sat.andThen (P := fun w : Walker => s.Decoding s.bitlen.toNat w.st) ?_ fun w hw => ?_
  · exact forRange_sat (P := fun b (w : Walker) => s.Decoding b w.st) (.begin s) fun b w hb hw =>
      (decBitStep_sat hw).imp (fun _ h => h) (fun _ h => h.mono hb)
  · rcases w.finish_cases with ⟨-, e⟩ | ⟨-, e⟩
    · exact e ▸ Run.sat_ok (hw.setCursor w.cur)
    · exact e ▸ Run.sat_raised (hw.setCursor w.cur)

/-! ### The seven commands -/

/-- `u` is a state that the work of the command `i` begun in `s` can leave, before RESULT, ERRINFO and ESTICKY are
written. -/
def State.workLeaves (s : State) (i : Instr) (u : State) : Prop :=
  match i with
  | .nop => u = s
  | .clear => u = s.cleared
  | .count => u = { s with freq := u.freq }
  | .build =>
    (s.present = [] ∧ u = s.withoutTree) ∨
      (s.present ≠ [] ∧ u = s.withoutTree.withTree s.present.length (buildForest s.freq s.node))
  | .gencode => u = { s with code := if s.tv then Machine.codesOf s.node s.root else CodeTable.empty }
  | .encode => s.Encoding u
  | .decode => u = s ∨ s.Decoding s.bitlen.toNat u

/-- Everything a command can do: its work, then one of the two ends (R79, R120, R211). -/
theorem exec_workLeaves {i : Instr} {s t : State} (h : exec i s = .next t) : ∃ u, s.workLeaves i u ∧ u.endsAs t := by
  cases i with
  | nop => exact Run.sat.settle (Run.sat_ok (σ := State) rfl) h
  | clear => exact Run.sat.settle (Run.sat_ok (σ := State) rfl) h
  | gencode => exact Run.sat.settle (Run.sat_ok (σ := State) rfl) h
  | count =>
    refine Run.sat.settle ?_ h
    split
    · exact Run.sat_raised rfl
    · exact Run.sat_ok rfl
  | build =>
    refine Run.sat.settle ?_ h
    rw [(leafInit_spec s).1]
    split
    · next h0 => exact Run.sat_raised (.inl ⟨List.eq_nil_of_length_eq_zero h0, rfl⟩)
    · next h0 => exact Run.sat_ok (.inr ⟨fun e => h0 (by rw [e]; rfl), rfl⟩)
  | encode =>
    refine Run.sat.settle ?_ h
    split
    · exact Run.sat_raised (.refl s)
    · exact encodeLoop_sat s s.symlen.toNat
  | decode =>
    refine Run.sat.settle ?_ h
    split
    · split
      · exact Run.sat_raised (.inl rfl)
      · exact (decodeBody_sat s).imp (fun _ => .inr) (fun _ => .inr)
    · exact Run.sat_raised (.inl rfl)

end Sys2Proof.Machine
end

section
/-! PROOFS. What each command and each step leaves as it was: the capacities, the transactions yet to come, the tree,
the code table, the decoded output and the bits of ESTICKY. -/

namespace Sys2Proof.Machine

/-- The registers of the tree, the arena and the queue are as before. -/
def State.sameTree (s t : State) : Prop :=
  t.tv = s.tv ∧ t.nsym = s.nsym ∧ t.nodecnt = s.nodecnt ∧ t.root = s.root ∧ t.node = s.node ∧ t.inq = s.inq

theorem State.sameTree.refl (s : State) : s.sameTree s := ⟨rfl, rfl, rfl, rfl, rfl, rfl⟩

theorem State.sameTree.trans {s t u : State} (h : s.sameTree t) (h' : t.sameTree u) : s.sameTree u := by
  obtain ⟨htv, hnsym, hcnt, hroot, hnode, hinq⟩ := h
  obtain ⟨htv', hnsym', hcnt', hroot', hnode', hinq'⟩ := h'
  exact ⟨htv'.trans htv, hnsym'.trans hnsym, hcnt'.trans hcnt, hroot'.trans hroot, hnode'.trans hnode, hinq'.trans hinq⟩

/-- What the work of the command `i` leaves as it was: the table of R79, read as which commands may write each piece. -/
structure State.WorkFrame (s : State) (i : Instr) (u : State) : Prop where
  caps : u.caps = s.caps
  host : u.host = s.host
  symbuf : u.symbuf = s.symbuf
  esticky : i ≠ .clear → u.esticky = s.esticky
  tree : i ≠ .build → i ≠ .clear → s.sameTree u
  code : i ≠ .gencode → i ≠ .clear → u.code = s.code
  bitbuf : i ≠ .encode → u.bitbuf = s.bitbuf
  outbuf : i ≠ .decode → u.outbuf = s.outbuf
  outlen : i ≠ .decode → i ≠ .clear → u.outlen = s.outlen

/-- A work that leaves all those pieces alone. -/
theorem State.WorkFrame.refl (s : State) (i : Instr) : s.WorkFrame i s :=
  ⟨rfl, rfl, rfl, fun _ => rfl, fun _ _ => .refl s, fun _ _ => rfl, fun _ => rfl, fun _ => rfl, fun _ _ => rfl⟩

theorem State.workLeaves_frame {s u : State} {i : Instr} (h : s.workLeaves i u) : s.WorkFrame i u := by
  cases i with
  | nop => rw [show u = _ from h]; exact .refl s _
  | count => rw [show u = _ from h]; exact { State.WorkFrame.refl s .count with }
  | gencode =>
    rw [show u = _ from h]
    exact { State.WorkFrame.refl s .gencode with code := fun hg => absurd rfl hg }
  | clear =>
    rw [show u = _ from h]
    exact { State.WorkFrame.refl s .clear with
      esticky := fun hc => absurd rfl hc, tree := fun _ hc => absurd rfl hc, code := fun _ hc => absurd rfl hc,
      outlen := fun _ hc => absurd rfl hc }
  | build =>
    rcases h with ⟨-, rfl⟩ | ⟨-, rfl⟩
    all_goals exact { State.WorkFrame.refl s .build with tree := fun hb => absurd rfl hb }
  | encode =>
    rw [State.Encoding.frame h]
    exact { State.WorkFrame.refl s .encode with bitbuf := fun he => absurd rfl he }
  | decode =>
    rcases h with rfl | h
    · exact .refl u _
    · rw [h.frame]
      exact { State.WorkFrame.refl s .decode with
        outbuf := fun hd => absurd rfl hd, outlen := fun hd => absurd rfl hd }

/-! ### The capacities and the transactions yet to come -/

theorem State.endsAs.caps_host {u t : State} (h : u.endsAs t) : t.caps = u.caps ∧ t.host = u.host := by
  rcases h with rfl | ⟨e, info, rfl⟩ <;> exact ⟨rfl, rfl⟩

theorem exec_caps_host {i : Instr} {s t : State} (h : exec i s = .next t) : t.caps = s.caps ∧ t.host = s.host := by
  obtain ⟨u, hu, ht⟩ := exec_workLeaves h
  have hframe := State.workLeaves_frame hu
  obtain ⟨hcaps, hhost⟩ := ht.caps_host
  exact ⟨hcaps.trans hframe.caps, hhost.trans hframe.host⟩

/-- A step keeps the capacities (R21, R35) and consumes one transaction, if there is one. -/
theorem step_caps_host {s t : State} (h : step s = .next t) : t.caps = s.caps ∧ t.host = s.host.tail := by
  rcases step_cases h with ⟨hx, rfl⟩ | ⟨x, rest, r, hx, -, rfl⟩ | ⟨rest, hx, rfl⟩ | ⟨v, rest, hx, -, rfl⟩ |
    ⟨v, rest, i, hx, -, hexec⟩ | ⟨v, rest, hx, rfl⟩ | ⟨v, rest, hx, rfl⟩ | ⟨v, rest, hx, rfl⟩ |
    ⟨ix, v, rest, hx, -, rfl⟩ | ⟨ix, v, rest, hx, -, rfl⟩ | ⟨ix, v, rest, hx, -, rfl⟩
  all_goals rw [hx]
  case inr.inr.inr.inr.inl => exact exec_caps_host hexec
  all_goals exact ⟨rfl, rfl⟩

/-! ### The steps that touch neither the tree, nor the code table, nor the output -/

/-- `t` differs from `s` at most in what a host write, a read or an illegal word can change: the registers ESTICKY,
SYMLEN, BITLEN, RESULT and ERRINFO, the buffers SYMBUF and BITBUF, FREQ, and the port (R72, R205). -/
def State.portOnly (s t : State) : Prop :=
  t = { s with result := t.result, esticky := t.esticky, errinfo := t.errinfo, symlen := t.symlen, bitlen := t.bitlen,
               freq := t.freq, symbuf := t.symbuf, bitbuf := t.bitbuf, host := t.host, port := t.port }

/-- A step is the reset event, or a command, or it is none of the two and touches no tree, no code and no output. -/
theorem step_kinds {s t : State} (h : step s = .next t) :
    (s.resetNext ∧ ∃ rest, t = State.resetWith s.caps (s.resets + 1) rest) ∨
    (∃ rest i, s.commandNext i ∧ exec i (s.accepted rest) = .next t) ∨ s.portOnly t := by
  rcases step_cases h with ⟨-, rfl⟩ | ⟨x, rest, r, hx, -, rfl⟩ | ⟨rest, hx, ht⟩ | ⟨v, rest, hx, -, rfl⟩ |
    ⟨v, rest, i, hx, hd, hexec⟩ | ⟨v, rest, hx, rfl⟩ | ⟨v, rest, hx, rfl⟩ | ⟨v, rest, hx, rfl⟩ |
    ⟨ix, v, rest, hx, -, rfl⟩ | ⟨ix, v, rest, hx, -, rfl⟩ | ⟨ix, v, rest, hx, -, rfl⟩
  case inr.inr.inl => exact .inl ⟨⟨rest, hx⟩, rest, ht⟩
  case inr.inr.inr.inr.inl => exact .inr (.inl ⟨rest, i, ⟨v, rest, hx, hd⟩, hexec⟩)
  all_goals exact .inr (.inr rfl)

/-! ### The tree -/

theorem State.portOnly.sameTree {s t : State} (h : s.portOnly t) : s.sameTree t := by
  rw [h]; exact .refl s

theorem State.sameTree.treeOk {s t : State} (h : s.sameTree t) (hs : s.treeOk) : t.treeOk := by
  obtain ⟨htv, hnsym, hcnt, hroot, hnode, hinq⟩ := h
  unfold State.treeOk
  rw [htv, hnsym, hcnt, hroot, hnode, hinq]
  exact hs

theorem State.endsAs.sameTree {u t : State} (h : u.endsAs t) : u.sameTree t := by
  rcases h with rfl | ⟨e, info, rfl⟩ <;> exact .refl u

theorem State.accepted_sameTree (s : State) (rest : List Txn) : s.sameTree (s.accepted rest) := .refl s

/-- Only BUILD and CLEAR touch the tree (R79). -/
theorem exec_sameTree {i : Instr} {s t : State} (h : exec i s = .next t) (hb : i ≠ .build) (hc : i ≠ .clear) :
    s.sameTree t := by
  obtain ⟨u, hu, ht⟩ := exec_workLeaves h
  exact ((State.workLeaves_frame hu).tree hb hc).trans ht.sameTree

/-- Settles O54: a step is the reset event, a command, or touches no tree, and only two commands touch one. -/
theorem treeChangesOnlyByBuildClearReset : Obligations.TreeChangesOnlyByBuildClearReset := by
  intro s t h hbuild hclear hreset
  have hsame : s.sameTree t := by
    rcases step_kinds h with ⟨hr, -⟩ | ⟨rest, i, hi, hexec⟩ | hport
    · exact absurd hr hreset
    · exact (State.accepted_sameTree s rest).trans
        (exec_sameTree hexec (fun e => hbuild (e ▸ hi)) (fun e => hclear (e ▸ hi)))
    · exact hport.sameTree
  obtain ⟨htv, hnsym, hcnt, hroot, hnode, -⟩ := hsame
  exact ⟨htv, hnsym, hcnt, hroot, hnode⟩

/-! ### The bits of ESTICKY -/

/-- ESTICKY after a command: as before, with one error's bit added, or 0 after a CLEAR (R26, R120, R211). -/
theorem exec_esticky {i : Instr} {s t : State} (h : exec i s = .next t) :
    t.esticky = s.esticky ∨ (∃ e : ErrorKind, t.esticky = s.esticky ||| e.stickyBit) ∨
      (i = .clear ∧ t.esticky = 0#8) := by
  by_cases hi : i = .clear
  · subst hi
    injection h with h
    exact .inr (.inr ⟨rfl, h ▸ rfl⟩)
  · obtain ⟨u, hu, ht⟩ := exec_workLeaves h
    rw [← (State.workLeaves_frame hu).esticky hi]
    rcases ht with rfl | ⟨e, info, rfl⟩
    · exact .inl rfl
    · exact .inr (.inl ⟨e, rfl⟩)

/-- ESTICKY after a step: as before, with one error's bit added, 0 after a CLEAR or a reset, or written one-to-clear
(R26). -/
theorem step_esticky {s t : State} (h : step s = .next t) :
    t.esticky = s.esticky ∨ (∃ e : ErrorKind, t.esticky = s.esticky ||| e.stickyBit) ∨
    ((s.commandNext .clear ∨ s.resetNext) ∧ t.esticky = 0#8) ∨
    ∃ v rest, s.host = .write 0#4 3#28 v :: rest ∧ t.esticky = stickyCleared s.esticky (v.setWidth 32) := by
  rcases step_cases h with ⟨-, rfl⟩ | ⟨x, rest, r, hx, -, rfl⟩ | ⟨rest, hx, rfl⟩ | ⟨v, rest, hx, -, rfl⟩ |
    ⟨v, rest, i, hx, hd, hexec⟩ | ⟨v, rest, hx, rfl⟩ | ⟨v, rest, hx, rfl⟩ | ⟨v, rest, hx, rfl⟩ |
    ⟨ix, v, rest, hx, -, rfl⟩ | ⟨ix, v, rest, hx, -, rfl⟩ | ⟨ix, v, rest, hx, -, rfl⟩
  case inr.inr.inl => exact .inr (.inr (.inl ⟨.inr ⟨rest, hx⟩, rfl⟩))
  case inr.inr.inr.inl => exact .inr (.inl ⟨.illegalCommand, rfl⟩)
  case inr.inr.inr.inr.inl =>
    rcases exec_esticky hexec with e | ⟨k, e⟩ | ⟨rfl, e⟩
    · exact .inl e
    · exact .inr (.inl ⟨k, e⟩)
    · exact .inr (.inr (.inl ⟨.inl ⟨v, rest, hx, hd⟩, e⟩))
  case inr.inr.inr.inr.inr.inl => exact .inr (.inr (.inr ⟨v, rest, hx, rfl⟩))
  all_goals exact .inl rfl

/-- A write to ESTICKY clears exactly the bits written with one (R26). -/
theorem stickyCleared_getLsbD (e : BitVec 8) (w : Word) (n : Nat) :
    (stickyCleared e w).getLsbD n = (e.getLsbD n && !w.getLsbD n) := by
  unfold stickyCleared
  by_cases hn : n < 8
  · simp [hn]
  · simp [BitVec.getLsbD_of_ge e n (by omega)]

/-- Settles O55: of the four things a step can do to ESTICKY, only two turn a bit off. -/
theorem stickyBitsStayUntilCleared : Obligations.StickyBitsStayUntilCleared := by
  intro s t n h hset hoff
  rcases step_esticky h with e | ⟨k, e⟩ | ⟨hclear | hreset, -⟩ | ⟨v, rest, hx, e⟩
  · rw [e, hset] at hoff
    cases hoff
  · rw [e, BitVec.getLsbD_or, hset] at hoff
    cases hoff
  · exact .inl hclear
  · exact .inr (.inl hreset)
  · refine .inr (.inr ⟨v, rest, hx, ?_⟩)
    rw [e, stickyCleared_getLsbD, hset, Bool.true_and, Bool.not_eq_false', BitVec.getLsbD_setWidth] at hoff
    exact (Bool.and_eq_true_iff.mp hoff).2

/-! ### The code table -/

/-- Only CLEAR and GENCODE touch the code table (R79). -/
theorem exec_code {i : Instr} {s t : State} (h : exec i s = .next t) :
    t.code = s.code ∨ t.code = CodeTable.empty ∨ (s.tv = true ∧ t.code = codesOf s.node s.root) := by
  obtain ⟨u, hu, ht⟩ := exec_workLeaves h
  have htu : t.code = u.code := by rcases ht with rfl | ⟨e, info, rfl⟩ <;> rfl
  rw [htu]
  by_cases hc : i = .clear
  · subst hc
    rw [show u = _ from hu]
    exact .inr (.inl rfl)
  · by_cases hg : i = .gencode
    · subst hg
      rw [show u = _ from hu]
      cases htv : s.tv with
      | true => exact .inr (.inr ⟨rfl, rfl⟩)
      | false => exact .inr (.inl rfl)
    · exact .inl ((State.workLeaves_frame hu).code hg hc)

/-! ### Completion -/

/-- Every write to CMD is answered with a next state (R120). -/
theorem runCommand_next (w : Word) (s : State) : ∃ t, runCommand w s = .next t := by
  rcases runCommand_cases w s with ⟨-, h⟩ | ⟨i, -, h⟩
  · exact ⟨_, h⟩
  · exact h ▸ exec_next i s

theorem hostWrite_next {s : State} {sp : BitVec 4} {ix : BitVec 28} {v : PortWord}
    {o : Host.Outcome State Fault Refusal} (h : hostWrite s sp ix v = some o) : ∃ t, o = .next t := by
  rcases hostWrite_cases h with ⟨-, -, e⟩ | ⟨-, -, e⟩ | ⟨-, -, e⟩ | ⟨-, -, e⟩ | ⟨-, -, e⟩ | ⟨-, -, e⟩ | ⟨-, -, e⟩
  · exact e ▸ runCommand_next _ s
  all_goals exact ⟨_, e⟩

/-- Every transaction is accepted and completes (R54). -/
theorem serve_next (x : Txn) (s : State) : ∃ t, serve x s = .next t := by
  cases x with
  | reset => exact ⟨_, rfl⟩
  | read sp ix =>
    simp only [serve, serveRead]
    split <;> exact ⟨_, rfl⟩
  | write sp ix v =>
    simp only [serve, serveWrite]
    split
    · next o ho => exact hostWrite_next ho
    · exact ⟨_, rfl⟩

theorem step_next (s : State) : ∃ t, step s = .next t := by
  unfold step serveNext
  split
  · exact ⟨s, rfl⟩
  · next x rest _ => exact serve_next x _

/-- Settles O6: every step answers a next state, and step_caps_host says what it keeps. -/
theorem stepAlwaysCompletes : Obligations.StepAlwaysCompletes := by
  intro s
  obtain ⟨t, ht⟩ := step_next s
  exact ⟨t, ht, step_caps_host ht⟩

/-- Settles O5: a write to index 1 of REG is a write to CMD, and its word decodes to `i`. -/
theorem stepRunsDecodedCommand : Obligations.StepRunsDecodedCommand := by
  intro s v rest i hd
  show runCommand (v.setWidth 32) _ = _
  simp only [runCommand, hd]
  rfl

end Sys2Proof.Machine
end

section
/-! PROOFS. BUILD makes a tree and the codes of a tree are sound, so every step keeps the invariants of R42 and R43. -/

namespace Sys2Proof.Machine

/-! ### The tree of BUILD -/

namespace ForestInv

variable {k total : Nat} {f : Forest}

/-- With one element left in the queue the arena holds 2k - 1 nodes (R145, R148 a). -/
theorem next_of_single (h : ForestInv k total f) (h1 : f.inq.length = 1) : f.next = 2 * k - 1 := by
  have := h.count
  omega

/-- A child has a smaller index than its parent (R148 b). -/
theorem child_lt (h : ForestInv k total f) {i : Nat} {j : NodeIx} (hi : k ≤ i) (hin : i < f.next)
    (hc : (f.node.nth i).hasChild j = true) : j.val < i := by
  obtain ⟨g, l, r, hnode, hl, hr, -⟩ := h.internals i hi hin
  rw [hnode, Node.hasChild_internal] at hc
  rcases hc with rfl | rfl
  · exact hl
  · exact hr

/-- The last node made is a child of none, so it is the one element of the queue (R145). -/
theorem inq_of_single (h : ForestInv k total f) (h1 : f.inq.length = 1) :
    f.inq = [NodeIx.ofNumber (2 * k - 2)] := by
  have hnext := h.next_of_single h1
  have hk := h.one_le
  have hk' := h.le_256
  have hval : (NodeIx.ofNumber (2 * k - 2)).val = 2 * k - 2 := NodeIx.ofNumber_val (by omega)
  have hroot : NodeIx.ofNumber (2 * k - 2) ∈ f.inq := by
    refine (h.roots _ (by omega)).mpr fun m hm hmn => ?_
    rw [← Bool.not_eq_true]
    intro hc
    have := h.child_lt hm hmn hc
    omega
  obtain ⟨x, hx⟩ := List.length_eq_one_iff.mp h1
  rw [hx, List.mem_singleton] at hroot
  rw [hx, hroot]

/-- With one element left in the queue the arena is a tree of `k` leaves (R42, R148). -/
theorem treeShape (h : ForestInv k total f) (h1 : f.inq.length = 1) : TreeShape f.node k := by
  have hnext := h.next_of_single h1
  have hinq := h.inq_of_single h1
  have hk := h.one_le
  have hk' := h.le_256
  refine { size := ⟨hk, hk'⟩, leaves := h.leaves, ascending := h.ascending, internals := ?_, oneParent := ?_,
           rootFree := ?_, sums := ?_ }
  · exact fun i hi hin => h.internals i hi (by omega)
  · intro j hj
    have hnot : j ∉ f.inq := by
      rw [hinq, List.mem_singleton]
      intro e
      rw [e, NodeIx.ofNumber_val (by omega)] at hj
      omega
    rw [h.roots j (by omega)] at hnot
    push Not at hnot
    obtain ⟨i, hi, hin, hc⟩ := hnot
    rw [ne_eq, Bool.not_eq_false] at hc
    exact ⟨i, hi, by omega, hc, fun m hm hmn hmc => h.parent j m i hm (by omega) hi hin hmc hc⟩
  · intro i j hi hin hc
    have := h.child_lt hi (by omega) hc
    omega
  · exact fun i hi => h.sums i (by omega)

end ForestInv

/-- BUILD on a table that is not empty leaves a tree (R145). -/
theorem State.withTree_treeOk (s : State) (hne : s.present ≠ []) :
    (s.withoutTree.withTree s.present.length (buildForest s.freq s.node)).treeOk := by
  obtain ⟨hinv, h1, -⟩ := buildForest_spec s hne (P := fun _ => True) trivial fun _ _ _ _ => trivial
  have hk := hinv.one_le
  have hk' := hinv.le_256
  have hnsym : (BitVec.ofNat 9 s.present.length).toNat = s.present.length := Nat.mod_eq_of_lt (by omega)
  unfold State.treeOk
  rw [State.withTree_tv, if_pos rfl, State.withTree_nodecnt, State.withTree_nsym, State.withTree_root,
    State.withTree_node, State.withTree_inq, hnsym, hinv.next_of_single h1, hinv.inq_of_single h1]
  refine ⟨Nat.mod_eq_of_lt (by omega), NodeIx.ofNumber_val (by omega), hinv.treeShape h1, rfl⟩

/-- BUILD and CLEAR meet the tree invariants from any state, and the other commands keep them. -/
theorem exec_treeOk {i : Instr} {s t : State} (h : exec i s = .next t) (hs : s.treeOk) : t.treeOk := by
  obtain ⟨u, hu, ht⟩ := exec_workLeaves h
  refine ht.sameTree.treeOk ?_
  by_cases hb : i = .build
  · subst hb
    rcases hu with ⟨-, rfl⟩ | ⟨hne, rfl⟩
    · exact State.treeOk_of_tv_false rfl ⟨rfl, rfl, rfl, rfl⟩
    · exact s.withTree_treeOk hne
  · by_cases hc : i = .clear
    · subst hc
      rw [show u = _ from hu]
      exact State.treeOk_of_tv_false rfl ⟨rfl, rfl, rfl, rfl⟩
    · exact ((State.workLeaves_frame hu).tree hb hc).treeOk hs

/-- Settles O59: the reset event leaves no tree, a command keeps the invariants, and nothing else touches the tree. -/
theorem stepKeepsTree : Obligations.StepKeepsTree := by
  intro s t hs h
  rcases step_kinds h with ⟨-, rest, rfl⟩ | ⟨rest, i, -, hexec⟩ | hport
  · exact State.resetWith_treeOk s.caps _ rest
  · exact exec_treeOk hexec ((s.accepted_sameTree rest).treeOk hs)
  · exact hport.sameTree.treeOk hs

/-! ### The codes of GENCODE -/

/-- What treeOk gives while TV = 1. -/
theorem State.treeOk.shape {s : State} (h : s.treeOk) (htv : s.tv = true) :
    TreeShape s.node s.nsym.toNat ∧ s.root.val = 2 * s.nsym.toNat - 2 := by
  rw [State.treeOk, if_pos htv] at h
  obtain ⟨-, hroot, hshape, -⟩ := h
  exact ⟨hshape, hroot⟩

namespace TreeShape

variable {a : Arena} {k : Nat} {root : NodeIx}

/-- The table that GENCODE leaves holds exactly the codewords of the tree (R160 to R162). -/
theorem codesOf_at (h : TreeShape a k) (hroot : root.val = 2 * k - 2) (c : Byte) (p : BitString) :
    (codesOf a root).at c = some p ↔ codeword a root c p := by
  have hk := h.size
  unfold codesOf codeword
  cases hr : a.at root with
  | leaf d f =>
    by_cases hcd : c = d
    · subst hcd
      simp [eq_comm]
    · simp [CodeTable.at_put_other _ _ _ _ hcd, Ne.symm hcd]
  | internal f l r =>
    have := walk_at h.downward c root.val root rfl (by omega) 511 [] CodeTable.empty root.isLt
      (fun _ _ => h.leaf_path_unique hroot) p
    simpa using this

/-- A path from an internal root to a leaf passes through internal nodes up to its last bit, so it is not empty and has
at most k - 1 bits (R164 b). -/
theorem leadsToLeaf_length (h : TreeShape a k) (hroot : root.val = 2 * k - 2) (hi : internalRoot a root) {c : Byte}
    {p : BitString} (hp : leadsToLeaf a root p c) : 1 ≤ p.length ∧ p.length ≤ k - 1 := by
  have hk := h.size
  obtain ⟨j, f, hd, hj⟩ := hp
  obtain ⟨q, v, m, fr, l, r, rfl, hq, hm, -⟩ := descend_leaf_split hi hd hj
  have hle := descend_le h.downward (by omega) hq
  obtain ⟨hmk, -⟩ := h.children_ne (i := m) (by omega) hm
  rw [List.length_append, List.length_singleton]
  omega

/-- Every codeword has 1 to 255 bits (R43, R164 b). -/
theorem codeword_length (h : TreeShape a k) (hroot : root.val = 2 * k - 2) {c : Byte} {p : BitString}
    (hp : codeword a root c p) : 1 ≤ p.length ∧ p.length ≤ 255 := by
  have hk := h.size
  unfold codeword at hp
  cases hr : a.at root with
  | leaf d f =>
    simp only [hr] at hp
    obtain ⟨-, rfl⟩ := hp
    decide
  | internal f l r =>
    simp only [hr] at hp
    obtain ⟨h1, h2⟩ := h.leadsToLeaf_length hroot ⟨f, l, r, hr⟩ hp
    omega

end TreeShape

/-- A path to a leaf goes on to no other node, so the symbol of a path that begins with it is the same. -/
theorem leadsToLeaf_symbol_of_isPrefix {a : Arena} {i : NodeIx} {c d : Byte} {p q : BitString}
    (hp : leadsToLeaf a i p c) (hq : leadsToLeaf a i q d) (hpq : p <+: q) : c = d := by
  obtain ⟨r, rfl⟩ := hpq
  obtain ⟨j, f, hj, hjc⟩ := hp
  obtain ⟨m, g, hm, hmd⟩ := hq
  rw [descend_append, hj] at hm
  obtain ⟨-, rfl⟩ := descend_from_leaf hjc hm
  rw [hjc] at hmd
  injection hmd

/-- No codeword begins with the codeword of another symbol (R164 c). -/
theorem codeword_symbol_of_isPrefix {a : Arena} {root : NodeIx} {c d : Byte} {p q : BitString}
    (hp : codeword a root c p) (hq : codeword a root d q) (hpq : p <+: q) : c = d := by
  unfold codeword at hp hq
  cases hr : a.at root with
  | leaf e f =>
    simp only [hr] at hp hq
    exact hp.1.symm.trans hq.1
  | internal f l r =>
    simp only [hr] at hp hq
    exact leadsToLeaf_symbol_of_isPrefix hp hq hpq

/-- A table that holds the codewords of a tree is sound (R164 b, c). -/
theorem State.codesOk_of_codesOf {s : State} {a : Arena} {k : Nat} {root : NodeIx} (h : TreeShape a k)
    (hroot : root.val = 2 * k - 2) (hcode : s.code = Machine.codesOf a root) : s.codesOk := by
  have hword : ∀ c p, s.code.at c = some p → codeword a root c p := fun c p hp =>
    (h.codesOf_at hroot c p).mp (hcode ▸ hp)
  exact ⟨fun c p hp => h.codeword_length hroot (hword c p hp), fun c d p q hcd hp hq hpq =>
    hcd (codeword_symbol_of_isPrefix (hword c p hp) (hword d q hq) hpq)⟩

theorem State.codesOk_of_code_eq {s t : State} (h : t.code = s.code) (hs : s.codesOk) : t.codesOk := by
  unfold State.codesOk
  rw [h]
  exact hs

/-- Settles O60: the reset event and CLEAR leave an empty table, GENCODE the codewords of the tree, and nothing else
writes the table. -/
theorem stepKeepsCodes : Obligations.StepKeepsCodes := by
  intro s t htree hs h
  rcases step_kinds h with ⟨-, rest, rfl⟩ | ⟨rest, i, -, hexec⟩ | hport
  · exact State.resetWith_codesOk s.caps _ rest
  · rcases exec_code hexec with hcode | hcode | ⟨htv, hcode⟩
    · exact State.codesOk_of_code_eq hcode hs
    · exact State.codesOk_of_code_empty hcode
    · obtain ⟨hshape, hroot⟩ := htree.shape htv
      exact State.codesOk_of_codesOf hshape hroot hcode
  · exact State.codesOk_of_code_eq (by rw [hport]) hs

end Sys2Proof.Machine
end

section
/-! PROOFS. The bounds of the buffers and of the decoded output, kept by every step. -/

namespace Sys2Proof.Machine

/-! ### The length of the decoded output -/

/-- Settles O43: the prechecks pass, and the work of DECODE emits at most one symbol per bit and at most OUT_CAP. -/
theorem decodedLengthIsBounded : Obligations.DecodedLengthIsBounded := by
  intro s _ htv hbits
  have hlong : s.bitTooLong = false := decide_eq_false (Nat.not_lt.mpr hbits)
  have hexec : exec .decode s = (decodeBody s).settle := by
    simp [exec, execDecode, htv, hlong]
  obtain ⟨t, ht⟩ := exec_next .decode s
  obtain ⟨u, hu, hend⟩ := (decodeBody_sat s).settle (hexec ▸ ht)
  refine ⟨t, ht, ?_⟩
  rcases hend with rfl | ⟨e, info, rfl⟩
  all_goals exact ⟨hu.outlen_le_bits, hu.outlen_le_cap⟩

/-! ### The buffers -/

theorem State.workLeaves_buffersOk {s u : State} {i : Instr} (hu : s.workLeaves i u) (hcaps : s.capsOk)
    (hs : s.buffersOk) : u.buffersOk := by
  have hframe := State.workLeaves_frame hu
  obtain ⟨hsym, hbit, hout⟩ := hs
  unfold State.buffersOk
  rw [hframe.caps, hframe.symbuf]
  refine ⟨hsym, ?_, ?_⟩
  · by_cases he : i = .encode
    · subst he
      exact State.Encoding.within hu hcaps hbit
    · exact hframe.bitbuf he ▸ hbit
  · by_cases hd : i = .decode
    · subst hd
      rcases hu with rfl | hu
      · exact hout
      · exact hu.within hout
    · exact hframe.outbuf hd ▸ hout

theorem State.endsAs.buffersOk {u t : State} (h : u.endsAs t) (hu : u.buffersOk) : t.buffersOk := by
  rcases h with rfl | ⟨e, info, rfl⟩ <;> exact hu

theorem exec_buffersOk {i : Instr} {s t : State} (h : exec i s = .next t) (hcaps : s.capsOk) (hs : s.buffersOk) :
    t.buffersOk := by
  obtain ⟨u, hu, ht⟩ := exec_workLeaves h
  exact ht.buffersOk (State.workLeaves_buffersOk hu hcaps hs)

theorem step_capsOk {s t : State} (h : step s = .next t) (hs : s.capsOk) : t.capsOk := by
  rw [State.capsOk, (step_caps_host h).1]
  exact hs

/-- Settles O57: a host write stores one byte below the capacity, ENCODE and DECODE stay below theirs, the reset event
empties the buffers, and nothing else writes one. -/
theorem stepKeepsBuffers : Obligations.StepKeepsBuffers := by
  intro s t hcaps hs h
  refine ⟨step_capsOk h hcaps, ?_⟩
  obtain ⟨hsym, hbit, hout⟩ := id hs
  rcases step_cases h with ⟨-, rfl⟩ | ⟨x, rest, r, -, -, rfl⟩ | ⟨rest, -, rfl⟩ | ⟨v, rest, -, -, rfl⟩ |
    ⟨v, rest, i, -, -, hexec⟩ | ⟨v, rest, -, rfl⟩ | ⟨v, rest, -, rfl⟩ | ⟨v, rest, -, rfl⟩ |
    ⟨ix, v, rest, -, hlt, rfl⟩ | ⟨ix, v, rest, -, hlt, rfl⟩ | ⟨ix, v, rest, -, -, rfl⟩
  · exact hs
  · exact hs
  · exact State.resetWith_buffersOk s.caps _ rest
  · exact hs
  · exact exec_buffersOk (s := s.accepted rest) hexec hcaps hs
  · exact hs
  · exact hs
  · exact hs
  · exact ⟨Memory.put_within _ _ hlt hsym, hbit, hout⟩
  · exact ⟨hsym, Memory.put_within _ _ hlt hbit, hout⟩
  · exact hs

/-! ### ESTICKY and the decoded output -/

/-- Bits 0 and 7 of ESTICKY are 0 (R26). -/
def stickyOk (e : BitVec 8) : Prop := e.getLsbD 0 = false ∧ e.getLsbD 7 = false

/-- No error has code 0 or 7 (R201). -/
theorem ErrorKind.stickyBit_stickyOk (e : ErrorKind) : stickyOk e.stickyBit := by
  cases e <;> exact ⟨rfl, rfl⟩

theorem step_stickyOk {s t : State} (h : step s = .next t) (hs : stickyOk s.esticky) : stickyOk t.esticky := by
  obtain ⟨h0, h7⟩ := id hs
  rcases step_esticky h with e | ⟨k, e⟩ | ⟨-, e⟩ | ⟨v, rest, -, e⟩
  · exact e ▸ hs
  · obtain ⟨k0, k7⟩ := k.stickyBit_stickyOk
    exact ⟨by rw [e, BitVec.getLsbD_or, h0, k0]; rfl, by rw [e, BitVec.getLsbD_or, h7, k7]; rfl⟩
  · exact e ▸ ⟨BitVec.getLsbD_zero, BitVec.getLsbD_zero⟩
  · exact ⟨by rw [e, stickyCleared_getLsbD, h0, Bool.false_and], by rw [e, stickyCleared_getLsbD, h7, Bool.false_and]⟩

/-- OUTLEN is at most OUT_CAP (R30), and every byte below it has been written (R73 e). -/
def State.outputOk (s : State) : Prop :=
  s.outlen.toNat ≤ s.caps.outCap ∧ ∀ i, i < s.outlen.toNat → (Memory.find? s.outbuf i).isSome

theorem State.registersOk_iff {s : State} : s.registersOk ↔ stickyOk s.esticky ∧ s.outputOk := and_assoc.symm

theorem State.outputOk_of_outlen_zero {s : State} (h : s.outlen = 0#32) : s.outputOk := by
  rw [State.outputOk, h]
  exact ⟨Nat.zero_le _, fun i hi => absurd hi (Nat.not_lt_zero i)⟩

theorem State.Decoding.outputOk {s u : State} {b : Nat} (h : s.Decoding b u) : u.outputOk :=
  ⟨h.caps_eq ▸ h.outlen_le_cap, h.written⟩

theorem State.workLeaves_outputOk {s u : State} {i : Instr} (hu : s.workLeaves i u) (hs : s.outputOk) : u.outputOk := by
  by_cases hd : i = .decode
  · subst hd
    rcases hu with rfl | hu
    · exact hs
    · exact hu.outputOk
  · by_cases hc : i = .clear
    · subst hc
      rw [show u = _ from hu]
      exact State.outputOk_of_outlen_zero rfl
    · have hframe := State.workLeaves_frame hu
      unfold State.outputOk
      rw [hframe.outlen hd hc, hframe.outbuf hd, hframe.caps]
      exact hs

theorem exec_outputOk {i : Instr} {s t : State} (h : exec i s = .next t) (hs : s.outputOk) : t.outputOk := by
  obtain ⟨u, hu, ht⟩ := exec_workLeaves h
  have := State.workLeaves_outputOk hu hs
  rcases ht with rfl | ⟨e, info, rfl⟩ <;> exact this

/-- DECODE leaves a written output within OUT_CAP, CLEAR and the reset event an empty one, and nothing else writes it. -/
theorem step_outputOk {s t : State} (h : step s = .next t) (hs : s.outputOk) : t.outputOk := by
  rcases step_kinds h with ⟨-, rest, rfl⟩ | ⟨rest, i, -, hexec⟩ | hport
  · exact State.outputOk_of_outlen_zero rfl
  · exact exec_outputOk (s := s.accepted rest) hexec hs
  · rw [hport]; exact hs

/-- Settles O58: step_stickyOk and step_outputOk are its two halves. -/
theorem stepKeepsRegisters : Obligations.StepKeepsRegisters := by
  intro s t _ hs h
  obtain ⟨hsticky, hout⟩ := State.registersOk_iff.mp hs
  exact State.registersOk_iff.mpr ⟨step_stickyOk h hsticky, step_outputOk h hout⟩

end Sys2Proof.Machine
end

section
/-! PROOFS. What a host reads: each space's word, the registers, the packed words of the tables, and the reads after a
host write and after the reset event. -/

namespace Sys2Proof.Machine

/-! ### The word of each space (R70, R71) -/

theorem hostRead_reg (s : State) (ix : BitVec 28) :
    hostRead s 0#4 ix = (Reg.ofIndex ix).map (fun r => (s.readReg r).setWidth 256) := rfl

theorem hostRead_symbuf (s : State) (ix : BitVec 28) :
    hostRead s 1#4 ix = if ix.toNat < s.caps.symCap then some ((s.symByte ix.toNat).setWidth 256) else none := rfl

theorem hostRead_bitbuf (s : State) (ix : BitVec 28) :
    hostRead s 2#4 ix = if ix.toNat < s.caps.bitCap then some ((s.bitByte ix.toNat).setWidth 256) else none := rfl

theorem hostRead_outbuf (s : State) (ix : BitVec 28) :
    hostRead s 3#4 ix =
      if ix.toNat < s.caps.outCap ∧ ix.toNat < s.outlen.toNat then some ((s.outByte ix.toNat).setWidth 256)
      else none := rfl

theorem symbolOfIndex_of_lt {ix : BitVec 28} (h : ix.toNat < 256) : symbolOfIndex ix = some (ix.setWidth 8) := if_pos h

theorem symbolOfIndex_of_ge {ix : BitVec 28} (h : ¬ ix.toNat < 256) : symbolOfIndex ix = none := if_neg h

theorem hostRead_freq (s : State) {ix : BitVec 28} (h : ix.toNat < 256) :
    hostRead s 4#4 ix = some ((s.freq.at (ix.setWidth 8)).setWidth 256) := by
  show (symbolOfIndex ix).map _ = _
  rw [symbolOfIndex_of_lt h]
  rfl

theorem hostRead_node (s : State) (ix : BitVec 28) :
    hostRead s 5#4 ix =
      if ix.toNat < 511 ∧ ix.toNat < s.nodecnt.toNat then some ((s.node.nth ix.toNat).word.setWidth 256)
      else none := rfl

theorem hostRead_codelen (s : State) {ix : BitVec 28} (h : ix.toNat < 256) :
    hostRead s 6#4 ix = some ((codelenWord (s.code.at (ix.setWidth 8))).setWidth 256) := by
  show (symbolOfIndex ix).map _ = _
  rw [symbolOfIndex_of_lt h]
  rfl

theorem hostRead_codebits (s : State) {ix : BitVec 28} (h : ix.toNat < 256) :
    hostRead s 7#4 ix = some (codebitsWord (s.code.at (ix.setWidth 8))) := by
  show (symbolOfIndex ix).map _ = _
  rw [symbolOfIndex_of_lt h]
  rfl

/-- No entry of NODE can be read while NODECNT is 0 (R73 d). -/
theorem hostRead_node_of_empty {s : State} (h : s.nodecnt = 0#10) (ix : BitVec 28) : hostRead s 5#4 ix = none := by
  rw [hostRead_node, h]
  exact if_neg fun hlt => Nat.not_lt_zero _ hlt.2

/-- No byte of OUTBUF can be read while OUTLEN is 0 (R73 e). -/
theorem hostRead_outbuf_of_empty {s : State} (h : s.outlen = 0#32) (ix : BitVec 28) : hostRead s 3#4 ix = none := by
  rw [hostRead_outbuf, h]
  exact if_neg fun hlt => Nat.not_lt_zero _ hlt.2

/-! ### The registers (R22) -/

/-- Register `r` is read at its index, zero-extended. -/
theorem hostRead_of_register {s : State} {ix : BitVec 28} {r : Reg} (h : Reg.ofIndex ix = some r) :
    hostRead s 0#4 ix = some ((s.readReg r).setWidth 256) := by
  rw [hostRead_reg, h]
  rfl

/-- A value that fits a register is the same number at every width of the port. -/
theorem setWidth_ofNat_of_lt {n : Nat} (h : n < 2 ^ 32) :
    (BitVec.ofNat 32 n).setWidth 256 = BitVec.ofNat 256 n := by
  apply BitVec.eq_of_toNat_eq
  rw [BitVec.toNat_setWidth_of_le (by decide), BitVec.toNat_ofNat, BitVec.toNat_ofNat, Nat.mod_eq_of_lt h,
    Nat.mod_eq_of_lt (by omega)]

theorem setWidth_toBits (i : NodeIx) : ((NodeIx.toBits i).setWidth 32).setWidth 256 = BitVec.ofNat 256 i.val := by
  have := i.isLt
  apply BitVec.eq_of_toNat_eq
  rw [BitVec.toNat_setWidth_of_le (by decide), BitVec.toNat_setWidth_of_le (by decide), NodeIx.toBits_toNat,
    BitVec.toNat_ofNat, Nat.mod_eq_of_lt (by omega)]

/-- Legal capacities fit a register (R6). -/
theorem State.capsOk.lt {s : State} (h : s.capsOk) :
    s.caps.symCap < 2 ^ 32 ∧ s.caps.bitCap < 2 ^ 32 ∧ s.caps.outCap < 2 ^ 32 := by
  simp only [State.capsOk, Caps.wf, Caps.symWf, Caps.bitWf, Caps.outWf, Bool.and_eq_true, decide_eq_true_eq] at h
  omega

/-- Settles O50: each index of REG names its register, and every register is at most 32 bits wide. -/
theorem registersReadAsListed : Obligations.RegistersReadAsListed := by
  intro s hcaps
  obtain ⟨hsym, hbit, hout⟩ := hcaps.lt
  have hread : ∀ {ix : BitVec 28} {r : Reg} {v : PortWord}, Reg.ofIndex ix = some r → (s.readReg r).setWidth 256 = v →
      hostRead s 0#4 ix = some v := fun h hv => hv ▸ hostRead_of_register h
  exact ⟨hread (r := .id) rfl rfl, hread (r := .cmd) rfl rfl, hread (r := .status) rfl rfl,
    hread (r := .esticky) rfl (BitVec.setWidth_setWidth (by decide)), hread (r := .errinfo) rfl rfl,
    hread (r := .symlen) rfl rfl, hread (r := .bitlen) rfl rfl, hread (r := .outlen) rfl rfl,
    hread (r := .nsym) rfl (BitVec.setWidth_setWidth (by decide)),
    hread (r := .nodecnt) rfl (BitVec.setWidth_setWidth (by decide)),
    hread (r := .root) rfl (setWidth_toBits s.root), hread (r := .cursor) rfl (setWidth_toBits s.cursor),
    hread (r := .symcap) rfl (setWidth_ofNat_of_lt hsym), hread (r := .bitcap) rfl (setWidth_ofNat_of_lt hbit),
    hread (r := .outcap) rfl (setWidth_ofNat_of_lt hout)⟩

/-! ### STATUS and err_o (R25, R209) -/

/-- The three fields of STATUS and its reserved bits (R25). -/
theorem State.status_fields (s : State) :
    s.status.extractLsb 3 0 = resultCode s.result ∧ s.status.getLsbD 4 = s.tv ∧ s.status.getLsbD 5 = s.leafRoot ∧
      s.status.extractLsb 31 6 = 0#26 := by
  unfold State.status
  generalize resultCode s.result = c
  generalize s.tv = v
  generalize s.leafRoot = l
  revert c v l
  decide

/-- RESULT codes are 0 to 6 (R201). -/
theorem resultCode_le (r : Option ErrorKind) : (resultCode r).toNat ≤ 6 := by
  cases r with
  | none => decide
  | some e => cases e <;> decide

/-- LEAFROOT: there is a tree and it has one node (R25, R147). -/
theorem State.leafRoot_iff (s : State) : s.leafRoot = true ↔ s.tv = true ∧ s.nodecnt = 1#10 := by
  simp [State.leafRoot]

theorem State.errO_iff (s : State) : s.errO = true ↔ s.esticky ≠ 0#8 := by simp [State.errO]

/-- Settles O51: the fields of STATUS, with resultCode evaluated at each error. -/
theorem statusAndErrorOutput : Obligations.StatusAndErrorOutput := by
  intro s
  obtain ⟨hcode, htv, hleaf, hzero⟩ := s.status_fields
  have hresult : ∀ {r c}, resultCode r = c → s.result = r → s.status.extractLsb 3 0 = c := fun hc hr => by
    rw [hcode, hr, hc]
  exact ⟨hresult rfl, hresult rfl, hresult rfl, hresult rfl, hresult rfl, hresult rfl, hresult rfl, hcode,
    resultCode_le s.result, htv, hleaf ▸ s.leafRoot_iff, hzero, s.errO_iff⟩

/-! ### The packed words of the tables (R41, R44, R45) -/

/-- Widening a word to the port keeps its fields. -/
theorem extractLsb'_setWidth_of_le {n m : Nat} (x : BitVec n) (start len : Nat) (h : n ≤ m) :
    (x.setWidth m).extractLsb' start len = x.extractLsb' start len := by
  ext i hi
  simp only [BitVec.getElem_extractLsb', BitVec.getLsbD_setWidth]
  by_cases hlt : start + i < m
  · simp [hlt]
  · simp [hlt, BitVec.getLsbD_of_ge x (start + i) (by omega)]

/-- The fields of a leaf's packed word (R41). -/
theorem Node.word_leaf_fields (c : Byte) (f : NodeFreq) :
    (Node.leaf c f).word.extractLsb' 48 208 = 0#208 ∧ (Node.leaf c f).word.extractLsb' 40 8 = c ∧
      (Node.leaf c f).word.extractLsb' 0 40 = f := by
  refine ⟨?_, ?_, BitVec.extractLsb'_append_eq_right (a := 0#16 ++ c)⟩
  · refine (BitVec.extractLsb'_append_eq_of_le (xhi := 0#16 ++ c) (by decide)).trans ?_
    exact (BitVec.extractLsb'_append_eq_of_le (xhi := 0#16) (by decide)).trans (by decide)
  · refine (BitVec.extractLsb'_append_eq_of_le (xhi := 0#16 ++ c) (by decide)).trans ?_
    exact BitVec.extractLsb'_append_eq_right
/-- The fields of an internal node's packed word (R41). -/
theorem Node.word_internal_fields (f : NodeFreq) (l r : NodeIx) :
    (Node.internal f l r).word.extractLsb' 64 192 = 0#192 ∧ (Node.internal f l r).word.extractLsb' 63 1 = 1#1 ∧
      (Node.internal f l r).word.extractLsb' 58 5 = 0#5 ∧
      (Node.internal f l r).word.extractLsb' 49 9 = NodeIx.toBits r ∧
      (Node.internal f l r).word.extractLsb' 40 9 = NodeIx.toBits l ∧
      (Node.internal f l r).word.extractLsb' 0 40 = f := by
  generalize hr : NodeIx.toBits r = r'
  generalize hl : NodeIx.toBits l = l'
  simp only [Node.word, hl, hr]
  have hright : ∀ {start len : Nat}, 49 ≤ start →
      (1#1 ++ 0#5 ++ r' ++ l' ++ f).extractLsb' start len =
        (1#1 ++ 0#5 ++ r').extractLsb' (start - 40 - 9) len := fun h =>
    (BitVec.extractLsb'_append_eq_of_le (by omega)).trans (BitVec.extractLsb'_append_eq_of_le (by omega))
  have htop : ∀ {start len : Nat}, 58 ≤ start →
      (1#1 ++ 0#5 ++ r' ++ l' ++ f).extractLsb' start len =
        (1#1 ++ 0#5 : BitVec 6).extractLsb' (start - 40 - 9 - 9) len := fun h =>
    (hright (by omega)).trans (BitVec.extractLsb'_append_eq_of_le (by omega))
  refine ⟨(htop (by decide)).trans (by decide), (htop (by decide)).trans (by decide),
    (htop (by decide)).trans (by decide), (hright (by decide)).trans BitVec.extractLsb'_append_eq_right, ?_,
    BitVec.extractLsb'_append_eq_right (a := 1#1 ++ 0#5 ++ r' ++ l')⟩
  refine (BitVec.extractLsb'_append_eq_of_le (xhi := 1#1 ++ 0#5 ++ r' ++ l') (by decide)).trans ?_
  exact BitVec.extractLsb'_append_eq_right

/-- The bits of a code stand from bit `255 - k` down, and every bit below them is 0 (R45). -/
theorem alignedBits_getLsbD (p : BitString) (k j : Nat) (hk : k + p.length ≤ 256) (hj : j < 256) :
    (alignedBits k p).getLsbD (255 - j) = (decide (k ≤ j) && p.getD (j - k) false) := by
  induction p generalizing k with
  | nil => simp [alignedBits]
  | cons b p ih =>
    rw [List.length_cons] at hk
    have hhead : (if b then BitVec.twoPow 256 (255 - k) else 0#256).getLsbD (255 - j) = (b && decide (k = j)) := by
      cases b with
      | false => simp
      | true =>
        rw [if_pos rfl, BitVec.getLsbD_twoPow, Bool.true_and, ← Bool.decide_and]
        exact decide_eq_decide.mpr (by omega)
    rw [alignedBits, BitVec.getLsbD_or, hhead, ih (k + 1) (by omega)]
    rcases Nat.lt_trichotomy j k with hlt | rfl | hgt
    · have h1 : ¬ k ≤ j := by omega
      have h2 : ¬ k = j := by omega
      have h3 : ¬ k + 1 ≤ j := by omega
      simp [h1, h2, h3]
    · simp
    · have h1 : k ≤ j := by omega
      have h2 : ¬ k = j := by omega
      have h3 : k + 1 ≤ j := by omega
      have h4 : j - k = j - (k + 1) + 1 := by omega
      simp [h1, h2, h3, h4]

/-- A code that is valid has bit 15 of its CODELEN word set, and its length in bits 8:0 (R44). -/
theorem codelenWord_some_toNat {p : BitString} (h : p.length < 2 ^ 9) :
    (codelenWord (some p)).toNat = 2 ^ 15 + p.length := by
  show (1#1 ++ 0#6 ++ BitVec.ofNat 9 p.length).toNat = _
  rw [BitVec.toNat_append, BitVec.toNat_ofNat, Nat.mod_eq_of_lt h, ← Nat.shiftLeft_add_eq_or_of_lt h]
  rfl

/-- A readable entry of NODE reads as its packed word. -/
theorem hostRead_node_of_lt {s : State} {ix : BitVec 28} {n : Node} (hcnt : ix.toNat < s.nodecnt.toNat)
    (hlt : ix.toNat < 511) (hn : s.node.nth ix.toNat = n) : hostRead s 5#4 ix = some (n.word.setWidth 256) := by
  rw [hostRead_node, if_pos ⟨hlt, hcnt⟩, hn]

/-- Settles O52: each entry's word, field by field. -/
theorem tableWordsArePacked : Obligations.TableWordsArePacked := by
  intro s index
  have hwide : ∀ (n : Node) (start len : Nat), (n.word.setWidth 256).extractLsb' start len =
      n.word.extractLsb' start len := fun n start len =>
    extractLsb'_setWidth_of_le n.word start len (by decide)
  refine ⟨fun c f hcnt hlt hn => ?_, fun f l r hcnt hlt hn => ?_, fun hlt hnone => ?_, fun p hlt hcode hlen => ?_⟩
  · obtain ⟨hzero, hsym, hfreq⟩ := Node.word_leaf_fields c f
    exact ⟨_, hostRead_node_of_lt hcnt hlt hn, (hwide _ 48 208).trans hzero, (hwide _ 40 8).trans hsym,
      (hwide _ 0 40).trans hfreq⟩
  · obtain ⟨hzero, hkind, hzero', hr, hl, hfreq⟩ := Node.word_internal_fields f l r
    have hbit : ((Node.internal f l r).word.setWidth 256).getLsbD 63 = true := by
      have := congrArg (BitVec.getLsbD · 0) ((hwide _ 63 1).trans hkind)
      simpa using this
    exact ⟨_, hostRead_node_of_lt hcnt hlt hn, (hwide _ 64 192).trans hzero, hbit, (hwide _ 58 5).trans hzero',
      (congrArg BitVec.toNat ((hwide _ 49 9).trans hr)).trans (NodeIx.toBits_toNat r),
      (congrArg BitVec.toNat ((hwide _ 40 9).trans hl)).trans (NodeIx.toBits_toNat l), (hwide _ 0 40).trans hfreq⟩
  · rw [hostRead_codelen s hlt, hostRead_codebits s hlt, hnone]
    exact ⟨rfl, rfl⟩
  · rw [hostRead_codelen s hlt, hostRead_codebits s hlt, hcode]
    refine ⟨congrArg some (BitVec.eq_of_toNat_eq ?_), _, rfl, fun j hj => ?_⟩
    · rw [BitVec.toNat_setWidth_of_le (by decide), codelenWord_some_toNat (by omega), BitVec.toNat_ofNat,
        Nat.mod_eq_of_lt (by omega)]
    · exact (alignedBits_getLsbD p 0 j (by omega) hj).trans (by simp)

/-! ### Reads after a host write (R72, R80) -/

/-- An accepted write ends in what it does to the state in which the port has answered Ok. -/
theorem step_write_of_hostWrite {s : State} {sp : BitVec 4} {ix : BitVec 28} {v : PortWord} {rest : List Txn}
    {o : Host.Outcome State Fault Refusal} (h : hostWrite (s.accepted rest) sp ix v = some o) :
    step { s with host := .write sp ix v :: rest } = o := by
  show serveWrite { s with host := rest } sp ix v = o
  unfold serveWrite
  rw [show hostWrite (State.answer { s with host := rest } .ok) sp ix v = some o from h]

theorem step_write_symbuf {s : State} {ix : BitVec 28} (v : PortWord) (rest : List Txn)
    (h : ix.toNat < s.caps.symCap) :
    step { s with host := .write 1#4 ix v :: rest } =
      .next { s.accepted rest with symbuf := Memory.put s.symbuf ix.toNat (v.setWidth 8) } :=
  step_write_of_hostWrite (if_pos h)

theorem step_write_bitbuf {s : State} {ix : BitVec 28} (v : PortWord) (rest : List Txn)
    (h : ix.toNat < s.caps.bitCap) :
    step { s with host := .write 2#4 ix v :: rest } =
      .next { s.accepted rest with bitbuf := Memory.put s.bitbuf ix.toNat (v.setWidth 8) } :=
  step_write_of_hostWrite (if_pos h)

theorem step_write_freq {s : State} {ix : BitVec 28} (v : PortWord) (rest : List Txn) (h : ix.toNat < 256) :
    step { s with host := .write 4#4 ix v :: rest } =
      .next { s.accepted rest with freq := s.freq.put (ix.setWidth 8) (v.setWidth 32) } := by
  refine step_write_of_hostWrite ?_
  show (symbolOfIndex ix).map _ = _
  rw [symbolOfIndex_of_lt h]
  rfl

/-- Where two states differ in SYMBUF, BITBUF, FREQ and the port alone, a read tells them apart only in those three
spaces. -/
theorem hostRead_congr {s t : State} {n : BitVec 4} {ix : BitVec 28}
    (ht : t = { s with symbuf := t.symbuf, bitbuf := t.bitbuf, freq := t.freq, host := t.host, port := t.port })
    (hsym : n = 1#4 → hostRead t 1#4 ix = hostRead s 1#4 ix) (hbit : n = 2#4 → hostRead t 2#4 ix = hostRead s 2#4 ix)
    (hfreq : n = 4#4 → hostRead t 4#4 ix = hostRead s 4#4 ix) : hostRead t n ix = hostRead s n ix := by
  by_cases h1 : n = 1#4
  · exact h1 ▸ hsym h1
  by_cases h2 : n = 2#4
  · exact h2 ▸ hbit h2
  by_cases h4 : n = 4#4
  · exact h4 ▸ hfreq h4
  have hspace : Space.ofNumber n ≠ some .symbuf ∧ Space.ofNumber n ≠ some .bitbuf ∧
      Space.ofNumber n ≠ some .freq := by
    clear ht hsym hbit hfreq
    revert n
    decide
  obtain ⟨hs1, hs2, hs4⟩ := hspace
  rw [ht]
  unfold hostRead
  cases hsp : Space.ofNumber n with
  | none => rfl
  | some sp =>
    cases sp with
    | symbuf => exact absurd hsp hs1
    | bitbuf => exact absurd hsp hs2
    | freq => exact absurd hsp hs4
    | reg => rfl
    | outbuf => rfl
    | node => rfl
    | codelen => rfl
    | codebits => rfl

/-- A read of a byte buffer after a byte was put below its capacity: that byte at its index, and elsewhere what was
there. -/
theorem Memory.read_put (m : Memory) (resets : Nat) (buf : Buffer) {cap : Nat} {index : BitVec 28} (b : Byte)
    (h : index.toNat < cap) (ix : BitVec 28) :
    (if ix.toNat < cap then some ((Memory.byteAt (Memory.put m index.toNat b) resets buf ix.toNat).setWidth 256)
      else none) =
      if ix = index then some (b.setWidth 256)
      else if ix.toNat < cap then some ((Memory.byteAt m resets buf ix.toNat).setWidth 256) else none := by
  by_cases hix : ix = index
  · subst hix
    rw [if_pos h, if_pos rfl, Memory.byteAt_put_self]
  · have hne : ix.toNat ≠ index.toNat := fun e => hix (BitVec.eq_of_toNat_eq e)
    rw [if_neg hix, Memory.byteAt_put_other _ _ _ _ _ _ hne]

theorem hostRead_put_symbuf (s : State) (rest : List Txn) {index : BitVec 28} (b : Byte)
    (h : index.toNat < s.caps.symCap) (ix : BitVec 28) :
    hostRead { s.accepted rest with symbuf := Memory.put s.symbuf index.toNat b } 1#4 ix =
      if ix = index then some (b.setWidth 256) else hostRead s 1#4 ix :=
  Memory.read_put s.symbuf s.resets .symbuf b h ix

theorem hostRead_put_bitbuf (s : State) (rest : List Txn) {index : BitVec 28} (b : Byte)
    (h : index.toNat < s.caps.bitCap) (ix : BitVec 28) :
    hostRead { s.accepted rest with bitbuf := Memory.put s.bitbuf index.toNat b } 2#4 ix =
      if ix = index then some (b.setWidth 256) else hostRead s 2#4 ix :=
  Memory.read_put s.bitbuf s.resets .bitbuf b h ix

/-- Two indices of a table of 256 words name different symbols when they differ. -/
theorem setWidth_ne_of_lt {i j : BitVec 28} (hi : i.toNat < 256) (hj : j.toNat < 256) (h : i ≠ j) :
    (i.setWidth 8 : Byte) ≠ j.setWidth 8 := by
  intro e
  have hval := congrArg BitVec.toNat e
  rw [BitVec.toNat_setWidth, BitVec.toNat_setWidth, Nat.mod_eq_of_lt hi, Nat.mod_eq_of_lt hj] at hval
  exact h (BitVec.eq_of_toNat_eq hval)

theorem hostRead_freq_of_ge (s : State) {ix : BitVec 28} (h : ¬ ix.toNat < 256) : hostRead s 4#4 ix = none := by
  show (symbolOfIndex ix).map _ = _
  rw [symbolOfIndex_of_ge h]
  rfl

theorem hostRead_put_freq (s : State) (rest : List Txn) {index : BitVec 28} (w : Word) (h : index.toNat < 256)
    (ix : BitVec 28) :
    hostRead { s.accepted rest with freq := s.freq.put (index.setWidth 8) w } 4#4 ix =
      if ix = index then some (w.setWidth 256) else hostRead s 4#4 ix := by
  by_cases hix : ix = index
  · subst hix
    rw [hostRead_freq _ h, FreqTable.at_put_self, if_pos rfl]
  · rw [if_neg hix]
    by_cases hlt : ix.toNat < 256
    · rw [hostRead_freq _ hlt, hostRead_freq _ hlt, FreqTable.at_put_other _ _ _ _ (setWidth_ne_of_lt hlt h hix)]
    · rw [hostRead_freq_of_ge _ hlt, hostRead_freq_of_ge _ hlt]

/-- A write that shows at its index, and nowhere else in its space or in another, reads back (R72, R80). -/
theorem reads_back {s t : State} {space : BitVec 4} {index : BitVec 28} {w : PortWord}
    (hself : ∀ ix, hostRead t space ix = if ix = index then some w else hostRead s space ix)
    (hother : ∀ n ix, n ≠ space → hostRead t n ix = hostRead s n ix) :
    hostRead t space index = some w ∧ ∀ n ix, n ≠ space ∨ ix ≠ index → hostRead t n ix = hostRead s n ix := by
  refine ⟨(hself index).trans (if_pos rfl), fun n ix hne => ?_⟩
  by_cases hn : n = space
  · subst hn
    exact (hself ix).trans (if_neg (hne.resolve_left (not_not_intro rfl)))
  · exact hother n ix hn

/-- Settles O49: the reads are the words of the four spaces; a write shows in its own space at its own index, and
hostRead_congr carries every other space over. -/
theorem bufferReadsAfterWrite : Obligations.BufferReadsAfterWrite := by
  intro s index
  refine ⟨fun h => if_pos h, fun h => if_pos h, fun h h' => if_pos ⟨h, h'⟩, hostRead_freq s, ?_⟩
  intro t space v rest htarget hstep
  rcases htarget with ⟨rfl, h⟩ | ⟨rfl, h⟩ | ⟨rfl, h⟩
  · obtain rfl := Host.Outcome.next.inj (hstep.symm.trans (step_write_symbuf v rest h))
    exact reads_back (hostRead_put_symbuf s rest _ h) fun n ix hn =>
      hostRead_congr rfl (fun e => absurd e hn) (fun _ => rfl) (fun _ => rfl)
  · obtain rfl := Host.Outcome.next.inj (hstep.symm.trans (step_write_bitbuf v rest h))
    exact reads_back (hostRead_put_bitbuf s rest _ h) fun n ix hn =>
      hostRead_congr rfl (fun _ => rfl) (fun e => absurd e hn) (fun _ => rfl)
  · obtain rfl := Host.Outcome.next.inj (hstep.symm.trans (step_write_freq v rest h))
    exact reads_back (hostRead_put_freq s rest _ h) fun n ix hn =>
      hostRead_congr rfl (fun _ => rfl) (fun _ => rfl) (fun e => absurd e hn)

/-! ### The reset event -/

/-- Settles O53: the state after a reset is the table of R52 with the capacities of before. -/
theorem resetEventGivesResetTable : Obligations.ResetEventGivesResetTable := by
  intro s rest
  have hstatus : (State.resetWith s.caps (s.resets + 1) rest).status = 0#32 := by
    show 0#26 ++ BitVec.ofBool false ++ BitVec.ofBool false ++ 0#4 = 0#32
    decide
  refine ⟨State.resetWith s.caps (s.resets + 1) rest, rfl, hstatus, rfl, rfl, rfl, rfl, rfl, rfl, rfl, rfl, rfl, rfl,
    rfl, fun c => ⟨FreqTable.empty_at c, CodeTable.empty_at c⟩, rfl, rfl, rfl, rfl, fun ix => ⟨?_, ?_⟩⟩
  · exact hostRead_node_of_empty rfl ix
  · exact hostRead_outbuf_of_empty rfl ix

end Sys2Proof.Machine
end

section
/-! PROOFS. The rows of R79: what each command may write, CLEAR's reset values, and the payload of ENCODE. -/

namespace Sys2Proof.Machine

/-! ### The end of a command -/

/-- The end of a command writes RESULT, ERRINFO and ESTICKY and nothing else (R120, R211). -/
theorem State.endsAs.frame {u t : State} (h : u.endsAs t) :
    t = { u with result := t.result, errinfo := t.errinfo, esticky := t.esticky } := by
  rcases h with rfl | ⟨e, info, rfl⟩ <;> rfl

/-- What the end of a command does not write it leaves as the work left it. -/
theorem State.endsAs.buffers {u t : State} (h : u.endsAs t) :
    t.bitlen = u.bitlen ∧ t.outlen = u.outlen ∧ t.bitByte = u.bitByte ∧ t.outByte = u.outByte := by
  rcases h with rfl | ⟨e, info, rfl⟩ <;> exact ⟨rfl, rfl, rfl, rfl⟩

/-! ### ENCODE: the bytes above the payload -/

/-- A round of ENCODE packs one code more or raises with the state as it was (R171). -/
theorem encSymStep_hasPacked {s w : State} {cs : List Byte} (hcaps : s.capsOk) (h : s.hasPacked w cs) (i : Nat) :
    (encSymStep i w).sat (fun u => ∃ ds, s.hasPacked u ds) (fun u => ∃ ds, s.hasPacked u ds) := by
  rcases encSymStep_cases i w with ⟨-, e⟩ | ⟨p, -, -, e⟩ | ⟨p, hcode, hfit, e⟩
  · exact e ▸ Run.sat_raised ⟨cs, h⟩
  · exact e ▸ Run.sat_raised ⟨cs, h⟩
  · have ⟨hframe, hlen, _⟩ := h
    rw [hlen, show w.caps = s.caps by rw [hframe]] at hfit
    have hbound := hcaps.payloadBits_le
    exact e ▸ Run.sat_ok ⟨_, State.hasPacked_snoc h (by rwa [hframe] at hcode) (by omega)⟩

/-- However the work of ENCODE ends, the codes of some symbols have been packed (R173). -/
theorem encodeLoop_hasPacked {s : State} (hcaps : s.capsOk) (n : Nat) :
    (forRange encSymStep n { s with bitlen := 0#32 }).sat (fun u => ∃ cs, s.hasPacked u cs)
      (fun u => ∃ cs, s.hasPacked u cs) :=
  forRange_sat (P := fun _ u => ∃ cs, s.hasPacked u cs) ⟨[], s.hasPacked_nil⟩
    fun i _ _ ⟨_, h⟩ => encSymStep_hasPacked hcaps h i

/-- ENCODE leaves the bytes of BITBUF at and above `ceil(BITLEN / 8)` (R79, R173). -/
theorem exec_encode_bitByte {s t : State} (hcaps : s.capsOk) (h : exec .encode s = .next t) {a : Nat}
    (ha : bytesFor t.bitlen.toNat ≤ a) : t.bitByte a = s.bitByte a := by
  have hwork : ∃ u, (u = s ∨ ∃ cs, s.hasPacked u cs) ∧ u.endsAs t := by
    refine Run.sat.settle ?_ h
    split
    · exact Run.sat_raised (.inl rfl)
    · exact (encodeLoop_hasPacked hcaps s.symlen.toNat).imp (fun _ => .inr) (fun _ => .inr)
  obtain ⟨u, hu, ht⟩ := hwork
  obtain ⟨hlen, -, hbytes, -⟩ := ht.buffers
  rw [hlen] at ha
  rw [hbytes]
  rcases hu with rfl | ⟨cs, -, -, -, -, habove⟩
  · rfl
  · exact habove a ha

/-! ### DECODE: the bytes above the output -/

/-- Up to CURSOR, `u` is a state in which DECODE has emitted some symbols, no more than OUT_CAP (R189, R191). -/
def State.hasEmitted (s u : State) : Prop :=
  ∃ cs, cs.length ≤ s.caps.outCap ∧ s.hasDecoded { u with cursor := s.cursor } cs

theorem State.hasEmitted_begin (s : State) : s.hasEmitted { s with outlen := 0#32 } :=
  ⟨[], Nat.zero_le _, s.hasDecoded_nil⟩

theorem State.hasEmitted.setCursor {s u : State} (h : s.hasEmitted u) (j : NodeIx) :
    s.hasEmitted { u with cursor := j } := h

theorem State.hasEmitted.emitted {s : State} {w : Walker} (hcaps : s.capsOk) (h : s.hasEmitted w.st) (t : Byte)
    (hroom : w.st.outlen.toNat ≠ w.st.caps.outCap) : s.hasEmitted (w.emitted t).st := by
  obtain ⟨cs, hcap, hd⟩ := h
  have ⟨hframe, hlen, _⟩ := hd
  have hwcaps : w.st.caps = s.caps := (congrArg State.caps hframe :)
  rw [hwcaps, show w.st.outlen.toNat = cs.length from hlen] at hroom
  obtain ⟨-, -, hout⟩ := hcaps.lt
  refine ⟨cs ++ [t], by rw [List.length_append, List.length_singleton]; omega, ?_⟩
  exact State.hasDecoded_snoc (w := { w with st := { w.st with cursor := s.cursor } }) t hd (by omega)

theorem decBitStep_hasEmitted {s : State} {w : Walker} (hcaps : s.capsOk) (h : s.hasEmitted w.st) (b : Nat) :
    (decBitStep b w).sat (fun v => s.hasEmitted v.st) s.hasEmitted := by
  rcases decBitStep_cases b w with ⟨_, _, _, _, _, _, -, -, e⟩ | ⟨_, _, _, _, _, -, -, -, e⟩ |
    ⟨_, _, _, t, _, -, -, hroom, e⟩ | ⟨_, _, -, -, e⟩ | ⟨_, _, -, -, -, e⟩ | ⟨t, _, -, -, hroom, e⟩
  · exact e ▸ Run.sat_ok h
  · exact e ▸ Run.sat_raised (h.setCursor _)
  · exact e ▸ Run.sat_ok (h.emitted hcaps t hroom)
  · exact e ▸ Run.sat_raised (h.setCursor _)
  · exact e ▸ Run.sat_raised (h.setCursor _)
  · exact e ▸ Run.sat_ok (h.emitted hcaps t hroom)

theorem decodeBody_hasEmitted {s : State} (hcaps : s.capsOk) : (decodeBody s).sat s.hasEmitted s.hasEmitted := by
  refine Run.sat.andThen (P := fun w : Walker => s.hasEmitted w.st) ?_ fun w hw => ?_
  · exact forRange_sat (P := fun _ (w : Walker) => s.hasEmitted w.st) s.hasEmitted_begin fun b w _ hw =>
      decBitStep_hasEmitted hcaps hw b
  · rcases w.finish_cases with ⟨-, e⟩ | ⟨-, e⟩
    · exact e ▸ Run.sat_ok (hw.setCursor w.cur)
    · exact e ▸ Run.sat_raised (hw.setCursor w.cur)

/-- DECODE leaves the bytes of OUTBUF at and above OUTLEN (R79, R191). -/
theorem exec_decode_outByte {s t : State} (hcaps : s.capsOk) (h : exec .decode s = .next t) {a : Nat}
    (ha : t.outlen.toNat ≤ a) : t.outByte a = s.outByte a := by
  have hwork : ∃ u, (u = s ∨ s.hasEmitted u) ∧ u.endsAs t := by
    refine Run.sat.settle ?_ h
    split
    · split
      · exact Run.sat_raised (.inl rfl)
      · exact (decodeBody_hasEmitted hcaps).imp (fun _ => .inr) (fun _ => .inr)
    · exact Run.sat_raised (.inl rfl)
  obtain ⟨u, hu, ht⟩ := hwork
  obtain ⟨-, hlen, -, hbytes⟩ := ht.buffers
  rw [hlen] at ha
  rw [hbytes]
  rcases hu with rfl | ⟨cs, -, -, hcs, -, habove⟩
  · rfl
  · exact habove a (hcs ▸ ha)

/-! ### The seven rows of R79 -/

theorem exec_nop (s : State) : exec .nop s = .next s.succeed := rfl

theorem exec_clear (s : State) : exec .clear s = .next s.cleared.succeed := rfl

theorem exec_count_frame {s t : State} (h : exec .count s = .next t) :
    t = { s with freq := t.freq, result := t.result, errinfo := t.errinfo, esticky := t.esticky } := by
  obtain ⟨u, hu, ht⟩ := exec_workLeaves h
  rw [ht.frame, show u = _ from hu]

theorem exec_build_frame {s t : State} (h : exec .build s = .next t) :
    t = { s with node := t.node, nsym := t.nsym, nodecnt := t.nodecnt, root := t.root, tv := t.tv, inq := t.inq,
                 result := t.result, errinfo := t.errinfo, esticky := t.esticky } := by
  obtain ⟨u, hu, ht⟩ := exec_workLeaves h
  rw [ht.frame]
  rcases hu with ⟨-, rfl⟩ | ⟨-, rfl⟩ <;> rfl

theorem exec_gencode_frame {s t : State} (h : exec .gencode s = .next t) :
    t = { s with code := t.code, result := t.result, errinfo := t.errinfo, esticky := t.esticky } := by
  obtain ⟨u, hu, ht⟩ := exec_workLeaves h
  rw [ht.frame, show u = _ from hu]

theorem exec_encode_frame {s t : State} (h : exec .encode s = .next t) :
    t = { s with bitlen := t.bitlen, bitbuf := t.bitbuf, result := t.result, errinfo := t.errinfo,
                 esticky := t.esticky } := by
  obtain ⟨u, hu, ht⟩ := exec_workLeaves h
  rw [ht.frame, State.Encoding.frame hu]

theorem exec_decode_frame {s t : State} (h : exec .decode s = .next t) :
    t = { s with outlen := t.outlen, outbuf := t.outbuf, cursor := t.cursor, result := t.result,
                 errinfo := t.errinfo, esticky := t.esticky } := by
  obtain ⟨u, hu, ht⟩ := exec_workLeaves h
  rw [ht.frame]
  rcases hu with rfl | hu
  · rfl
  · rw [hu.frame]

/-- Settles O10: the seven frames, and the bytes that ENCODE and DECODE do not reach. -/
theorem commandsTouchOnlyTheirRow : Obligations.CommandsTouchOnlyTheirRow := by
  intro i s t hcaps h
  refine ⟨?_, ?_, ?_, ?_, ?_, ?_, ?_⟩ <;> rintro rfl
  · exact Host.Outcome.next.inj (h.symm.trans (exec_nop s))
  · obtain rfl := Host.Outcome.next.inj (h.symm.trans (exec_clear s))
    exact ⟨rfl, rfl, rfl, rfl, rfl, rfl, rfl, rfl⟩
  · exact exec_count_frame h
  · exact exec_build_frame h
  · exact exec_gencode_frame h
  · exact ⟨exec_encode_frame h, fun a => exec_encode_bitByte hcaps h⟩
  · exact ⟨exec_decode_frame h, fun a => exec_decode_outByte hcaps h⟩

/-! ### CLEAR -/

/-- Settles O12: the state is State.cleared, whose NODECNT and OUTLEN of 0 leave nothing to read, and exec_esticky says
which command clears ESTICKY. -/
theorem clearResetsTables : Obligations.ClearResetsTables := by
  refine ⟨rfl, fun s => ?_, fun i s t n hi h hn => ?_⟩
  · exact ⟨_, exec_clear s, rfl, fun c => ⟨FreqTable.empty_at c, CodeTable.empty_at c⟩, fun ix =>
      ⟨hostRead_node_of_empty rfl ix, hostRead_outbuf_of_empty rfl ix⟩⟩
  · rcases exec_esticky h with e | ⟨k, e⟩ | ⟨hclear, -⟩
    · rw [e, hn]
    · rw [e, BitVec.getLsbD_or, hn, Bool.true_or]
    · exact absurd hclear hi

/-! ### The payload of ENCODE -/

/-- With SYMLEN within its capacity ENCODE is its loop (R170). -/
theorem exec_encode_of_le {s : State} (h : s.symlen.toNat ≤ s.caps.symCap) :
    exec .encode s = (forRange encSymStep s.symlen.toNat { s with bitlen := 0#32 }).settle := by
  have hprecheck : s.symTooLong = false := decide_eq_false (Nat.not_lt.mpr h)
  show execEncode s = _
  rw [execEncode, hprecheck]
  rfl

theorem State.symByte_mem_input {s : State} {j : Nat} (h : j < s.symlen.toNat) : s.symByte j ∈ s.input :=
  List.mem_map_of_mem (List.mem_range.mpr h)

theorem State.input_take_symlen (s : State) : s.input.take s.symlen.toNat = s.input :=
  List.take_of_length_le (by simp [State.input])

/-- Settles O31: the loop packs the codes of the whole input and ends without error. -/
theorem encodeConcatenatesCodes : Obligations.EncodeConcatenatesCodes := by
  intro s hcaps hsym hcodes hfit
  have hbits : 8 * s.caps.bitCap ≤ 2 ^ 31 := hcaps.payloadBits_le
  obtain ⟨w, hw, hpacked⟩ := forRange_encSymStep s s.symlen.toNat (Nat.le_refl _)
    (fun j hj => hcodes _ (State.symByte_mem_input hj)) (by rwa [State.input_take_symlen]) hbits
  rw [State.input_take_symlen] at hpacked
  obtain ⟨hframe, hlen, hpayload, hpad, habove⟩ := hpacked
  refine ⟨w.succeed, by rw [exec_encode_of_le hsym, hw, Run.settle_ok], hlen, hpayload, hpad, habove, ?_⟩
  rw [hframe]
  rfl

end Sys2Proof.Machine
end

section
/-! PROOFS. The host port: what a read and a write leave, and which of them R73 refuses. -/

namespace Sys2Proof.Machine

/-! ### Reads (R71) -/

/-- A read puts its word, or AccessError, on the port and writes nothing else. -/
theorem step_read (s : State) (sp : BitVec 4) (ix : BitVec 28) (rest : List Txn) :
    step { s with host := .read sp ix :: rest } =
      .next { s with host := rest, port := some ((hostRead s sp ix).elim .accessError .data) } := by
  show serveRead { s with host := rest } sp ix = _
  unfold serveRead
  rw [show hostRead { s with host := rest } sp ix = hostRead s sp ix from rfl]
  cases hostRead s sp ix <;> rfl

/-- Settles O46: the word of hostRead, or AccessError where it gives none, is what step_read puts on the port. -/
theorem readChangesNoState : Obligations.ReadChangesNoState := by
  intro s sp ix rest
  refine ⟨fun v h => ?_, fun h => ?_⟩ <;> rw [step_read, h] <;> rfl

/-! ### The transactions that R73 refuses -/

/-- A space number is one of the eight of R70, or above them. -/
theorem spaceNumber_cases (sp : BitVec 4) :
    8 ≤ sp.toNat ∨ sp = 0#4 ∨ sp = 1#4 ∨ sp = 2#4 ∨ sp = 3#4 ∨ sp = 4#4 ∨ sp = 5#4 ∨ sp = 6#4 ∨ sp = 7#4 := by
  revert sp
  decide

theorem Space.ofNumber_eq_none {sp : BitVec 4} (h : 8 ≤ sp.toNat) : Space.ofNumber sp = none := by
  revert sp
  decide

theorem Reg.ofIndex_eq_none_iff (ix : BitVec 28) : Reg.ofIndex ix = none ↔ 15 ≤ ix.toNat := by
  unfold Reg.ofIndex
  split
  case h_16 =>
    simp only [imp_false] at *
    exact iff_of_true trivial (by omega)
  all_goals next h => simp [h]

theorem symbolOfIndex_eq_none_iff (ix : BitVec 28) : symbolOfIndex ix = none ↔ 256 ≤ ix.toNat := by
  simp [symbolOfIndex]

/-- A read finds no word exactly in the cases (a), (b), (d) and (e) of R73. -/
theorem hostRead_eq_none_iff (s : State) (sp : BitVec 4) (ix : BitVec 28) :
    hostRead s sp ix = none ↔ s.readRefused sp ix := by
  rcases spaceNumber_cases sp with h | rfl | rfl | rfl | rfl | rfl | rfl | rfl | rfl
  · simp [hostRead, Space.ofNumber_eq_none h, State.readRefused, h]
  · simp [hostRead_reg, Reg.ofIndex_eq_none_iff, State.readRefused, State.spaceWords]
  · simp [hostRead_symbuf, State.readRefused, State.spaceWords]
  · simp [hostRead_bitbuf, State.readRefused, State.spaceWords]
  · simp [hostRead_outbuf, State.readRefused, State.spaceWords, or_iff_not_imp_left]
  · simp [hostRead, Space.ofNumber, symbolOfIndex_eq_none_iff, State.readRefused, State.spaceWords]
  · simp [hostRead_node, State.readRefused, State.spaceWords, or_iff_not_imp_left]
  · simp [hostRead, Space.ofNumber, symbolOfIndex_eq_none_iff, State.readRefused, State.spaceWords]
  · simp [hostRead, Space.ofNumber, symbolOfIndex_eq_none_iff, State.readRefused, State.spaceWords]

/-- Four registers accept a write (R22, R73 c). -/
theorem writeReg_ofIndex_eq_none_iff (s : State) (ix : BitVec 28) (w : Word) :
    (Reg.ofIndex ix).bind (fun r => writeReg r w s) = none ↔
      15 ≤ ix.toNat ∨ (ix.toNat ≠ 1 ∧ ix.toNat ≠ 3 ∧ ix.toNat ≠ 5 ∧ ix.toNat ≠ 6) := by
  unfold Reg.ofIndex
  split
  case h_16 =>
    simp only [imp_false] at *
    exact iff_of_true rfl (.inl (by omega))
  all_goals next h => simp [h, writeReg]

/-- A write has no target exactly in the cases (a), (b) and (c) of R73. -/
theorem hostWrite_eq_none_iff (s : State) (sp : BitVec 4) (ix : BitVec 28) (v : PortWord) :
    hostWrite s sp ix v = none ↔ s.writeRefused sp ix := by
  rcases spaceNumber_cases sp with h | rfl | rfl | rfl | rfl | rfl | rfl | rfl | rfl
  · simp [hostWrite, Space.ofNumber_eq_none h, State.writeRefused, h]
  · refine (writeReg_ofIndex_eq_none_iff s ix (v.setWidth 32)).trans ?_
    simp [State.writeRefused, State.spaceWords]
  · simp [hostWrite, Space.ofNumber, State.writeRefused, State.spaceWords]
  · simp [hostWrite, Space.ofNumber, State.writeRefused, State.spaceWords]
  · simp [hostWrite, Space.ofNumber, State.writeRefused]
  · simp [hostWrite, Space.ofNumber, symbolOfIndex_eq_none_iff, State.writeRefused, State.spaceWords]
  · simp [hostWrite, Space.ofNumber, State.writeRefused]
  · simp [hostWrite, Space.ofNumber, State.writeRefused]
  · simp [hostWrite, Space.ofNumber, State.writeRefused]

/-! ### Writes (R72) -/

theorem step_write_of_refused {s : State} {sp : BitVec 4} {ix : BitVec 28} (v : PortWord) (rest : List Txn)
    (h : s.writeRefused sp ix) :
    step { s with host := .write sp ix v :: rest } = .next { s with host := rest, port := some .accessError } := by
  show serveWrite { s with host := rest } sp ix v = _
  unfold serveWrite
  rw [show hostWrite (State.answer { s with host := rest } .ok) sp ix v = none from
    (hostWrite_eq_none_iff (s.accepted rest) sp ix v).mpr h]
  rfl

/-- No command touches the port's answer (R79). -/
theorem exec_port {i : Instr} {s t : State} (h : exec i s = .next t) : t.port = s.port := by
  cases i with
  | nop => rw [← Host.Outcome.next.inj h, State.succeed_port]
  | clear => rw [← Host.Outcome.next.inj h, State.succeed_port, State.cleared_port]
  | count => rw [exec_count_frame h]
  | build => rw [exec_build_frame h]
  | gencode => rw [exec_gencode_frame h]
  | encode => rw [exec_encode_frame h]
  | decode => rw [exec_decode_frame h]

theorem runCommand_port {w : Word} {s t : State} (h : runCommand w s = .next t) : t.port = s.port := by
  rcases runCommand_cases w s with ⟨-, e⟩ | ⟨i, -, e⟩
  · obtain rfl := Host.Outcome.next.inj (h.symm.trans e)
    rfl
  · exact exec_port (e.symm.trans h)

/-- An accepted write leaves the answer Ok that stands on the port, whatever the result of a command. -/
theorem hostWrite_port {s t : State} {sp : BitVec 4} {ix : BitVec 28} {v : PortWord}
    (h : hostWrite s sp ix v = some (.next t)) : t.port = s.port := by
  rcases hostWrite_cases h with ⟨-, -, e⟩ | ⟨-, -, e⟩ | ⟨-, -, e⟩ | ⟨-, -, e⟩ | ⟨-, -, e⟩ | ⟨-, -, e⟩ | ⟨-, -, e⟩
  case inl => exact runCommand_port e.symm
  all_goals
    obtain rfl := Host.Outcome.next.inj e
    rfl

/-- A write that R73 does not refuse is answered Ok. -/
theorem step_write_of_not_refused {s : State} {sp : BitVec 4} {ix : BitVec 28} (v : PortWord) (rest : List Txn)
    (h : ¬ s.writeRefused sp ix) :
    ∃ t, step { s with host := .write sp ix v :: rest } = .next t ∧ t.port = some .ok := by
  obtain ⟨o, ho⟩ := Option.ne_none_iff_exists'.mp (mt (hostWrite_eq_none_iff (s.accepted rest) sp ix v).mp h)
  obtain ⟨t, rfl⟩ := hostWrite_next ho
  exact ⟨t, step_write_of_hostWrite ho, hostWrite_port ho⟩

/-- Settles O47: a read is refused where hostRead gives no word, a write where hostWrite gives no effect. -/
theorem accessErrorsExactly : Obligations.AccessErrorsExactly := by
  intro s sp ix v rest
  constructor
  · refine ⟨_, step_read s sp ix rest, ?_⟩
    rw [← hostRead_eq_none_iff]
    cases hostRead s sp ix <;> simp
  · by_cases h : s.writeRefused sp ix
    · exact ⟨_, step_write_of_refused v rest h, iff_of_true rfl h, fun _ => rfl⟩
    · obtain ⟨t, ht, hport⟩ := step_write_of_not_refused v rest h
      exact ⟨t, ht, by simp [hport, h], by simp [hport]⟩

/-- Settles O48: each accepted target is one branch of hostWrite. -/
theorem hostWriteEffects : Obligations.HostWriteEffects := by
  intro s ix v rest
  have hcmd : step { s with host := .write 0#4 1#28 v :: rest } = runCommand (v.setWidth 32) (s.accepted rest) :=
    step_write_of_hostWrite rfl
  refine ⟨fun sp => step_write_of_refused v rest, step_write_symbuf v rest, step_write_bitbuf v rest,
    step_write_freq v rest, step_write_of_hostWrite rfl, step_write_of_hostWrite rfl, ?_, hcmd, ?_⟩
  · refine (step_write_of_hostWrite rfl).trans ?_
    rw [stickyCleared, BitVec.setWidth_setWidth_of_le v (by decide)]
    rfl
  · obtain ⟨t, ht⟩ := runCommand_next (v.setWidth 32) (s.accepted rest)
    exact ⟨t, hcmd.trans ht, runCommand_port ht⟩

end Sys2Proof.Machine
end

section
/-! PROOFS. The command words: decoding inverts encoding, and the words of the seven commands are exactly the words of
format C with an opcode at most 6. -/

namespace Sys2Proof

/-! ### From a command to its word -/

theorem wordRoundTrip (i : Instr) : Laws.WordRoundTrip.Statement i := by
  cases i with
  | nop => exact Laws.WordRoundTrip.nop
  | clear => exact Laws.WordRoundTrip.clear
  | count => exact Laws.WordRoundTrip.count
  | build => exact Laws.WordRoundTrip.build
  | gencode => exact Laws.WordRoundTrip.gencode
  | encode => exact Laws.WordRoundTrip.encode
  | decode => exact Laws.WordRoundTrip.decode

@[simp] theorem decodeCommand_encode (i : Instr) : decodeCommand (encode i) = .ok i := by
  obtain ⟨-, -, hdecode, -⟩ := wordRoundTrip i
  exact hdecode

@[simp] theorem wordWf_encode (i : Instr) : wordWf (encode i) = true := by
  obtain ⟨-, hword, -⟩ := wordRoundTrip i
  exact hword

/-! ### From a word to its command -/

/-- The match value of each row is the word of format C of its command (R100, R101). -/
theorem opcodeTable_value : ∀ r ∈ opcodeTable, r.value = encode r.instr := by decide

/-- The one word that decodes to a command is its encoding: a match is a row's value, since every mask is all ones. -/
theorem decodeCommand_eq_ok_iff (w : Word) (i : Instr) : decodeCommand w = .ok i ↔ w = encode i := by
  constructor
  · intro h
    obtain ⟨r, hr, rfl, rfl⟩ := decodeCommand_ok h
    exact opcodeTable_value r hr
  · rintro rfl
    exact decodeCommand_encode i

/-- Settles O4: the encoding of a command is the one word that decodes to it. -/
theorem decodeEncodeAgree : Obligations.DecodeEncodeAgree := fun i _ w => decodeCommand_eq_ok_iff w i

/-- Settles O2: the match values of R101 are the seven encodings. -/
theorem wordSelectsCommandExactly : Obligations.WordSelectsCommandExactly := fun w =>
  ⟨decodeCommand_eq_ok_iff w .nop, decodeCommand_eq_ok_iff w .clear, decodeCommand_eq_ok_iff w .count,
    decodeCommand_eq_ok_iff w .build, decodeCommand_eq_ok_iff w .gencode, decodeCommand_eq_ok_iff w .encode,
    decodeCommand_eq_ok_iff w .decode⟩

/-! ### Legal and illegal words -/

theorem wordWf_iff (w : Word) : wordWf w = true ↔ w.extractLsb 31 8 = 0#24 ∧ (w.extractLsb 7 0).toNat ≤ 6 := by
  simp [wordWf, zeroFieldWf, opFieldWf]

/-- A word of format C is its zero field followed by its opcode (R100). -/
theorem eq_formatC_of_zeroField {w : Word} (h : w.extractLsb 31 8 = 0#24) : w = formatC (w.extractLsb 7 0) := by
  rw [formatC, ← h]
  exact (BitVec.extractLsb'_append_extractLsb' (w := 24) (len := 8)).symm

/-- Each of the opcodes 0 to 6 is a command's (R101). -/
theorem exists_opcodeOf_eq {op : Byte} (h : op.toNat ≤ 6) : ∃ i, opcodeOf i = op := by
  rw [← BitVec.setWidth_eq op, ← BitVec.ofNat_toNat]
  generalize op.toNat = n at h
  interval_cases n
  exacts [⟨.nop, rfl⟩, ⟨.clear, rfl⟩, ⟨.count, rfl⟩, ⟨.build, rfl⟩, ⟨.gencode, rfl⟩, ⟨.encode, rfl⟩, ⟨.decode, rfl⟩]

/-- The well-formed words are the encodings of the commands (R103). -/
theorem wordWf_iff_exists_encode (w : Word) : wordWf w = true ↔ ∃ i, w = encode i := by
  constructor
  · intro h
    obtain ⟨hzero, hop⟩ := (wordWf_iff w).mp h
    obtain ⟨i, hi⟩ := exists_opcodeOf_eq hop
    exact ⟨i, by rw [encode, hi]; exact eq_formatC_of_zeroField hzero⟩
  · rintro ⟨i, rfl⟩
    exact wordWf_encode i

/-- A word that is not well-formed is rejected, and the rejection names it (R103, R110). -/
theorem decodeCommand_of_not_wordWf {w : Word} (h : wordWf w = false) :
    decodeCommand w = .error (.illegalCommand w) := by
  cases hd : decodeCommand w with
  | ok i =>
    rw [(decodeCommand_eq_ok_iff w i).mp hd, wordWf_encode] at h
    cases h
  | error e => rw [(decodeCommand_error hd).1]

/-- Settles O1: the seven words are the encodings, and the other three are not of format C with an opcode at most 6. -/
theorem commandWordsDecode : Obligations.CommandWordsDecode :=
  ⟨decodeCommand_encode .nop, decodeCommand_encode .clear, decodeCommand_encode .count, decodeCommand_encode .build,
    decodeCommand_encode .gencode, decodeCommand_encode .encode, decodeCommand_encode .decode,
    decodeCommand_of_not_wordWf rfl, decodeCommand_of_not_wordWf rfl, decodeCommand_of_not_wordWf rfl⟩

/-- Settles O3: a well-formed word is an encoding, and every other word is rejected. -/
theorem decodingIsTotal : Obligations.DecodingIsTotal := by
  intro w
  rw [← and_assoc, ← wordWf_iff]
  by_cases h : wordWf w = true
  · obtain ⟨i, rfl⟩ := (wordWf_iff_exists_encode w).mp h
    exact .inl ⟨h, i, decodeCommand_encode i⟩
  · exact .inr ⟨h, decodeCommand_of_not_wordWf (by simpa using h)⟩

end Sys2Proof
end

section
/-! PROOFS. GENCODE on a tree: the next state, and the table of codewords it holds. -/

namespace Sys2Proof.Machine

theorem exec_gencode (s : State) :
    exec .gencode s =
      .next { s with code := if s.tv then codesOf s.node s.root else CodeTable.empty }.succeed := rfl

/-- GENCODE on a tree completes and leaves exactly the tree's codewords, whatever the form of the root (R160 to R162). -/
theorem exec_gencode_codewords {s : State} (htv : s.tv = true) (htree : s.treeOk) :
    ∃ t, exec .gencode s = .next t ∧ t = { s with code := t.code, result := none, errinfo := 0#32 } ∧
      ∀ c p, t.code.at c = some p ↔ codeword s.node s.root c p := by
  obtain ⟨hshape, hroot⟩ := htree.shape htv
  refine ⟨_, exec_gencode s, rfl, fun c p => ?_⟩
  rw [State.succeed_code, if_pos htv]
  exact hshape.codesOf_at hroot c p

/-- With an internal root the codewords are the paths to the leaves (R161). -/
theorem codeword_iff_leadsToLeaf {a : Arena} {root : NodeIx} (h : internalRoot a root) (c : Byte) (p : BitString) :
    codeword a root c p ↔ leadsToLeaf a root p c := by
  obtain ⟨f, l, r, hr⟩ := h
  rw [codeword, hr]

/-- Settles O26: the table holds the codewords, which are the paths since the root is internal. -/
theorem gencodeRecordsPaths : Obligations.GencodeRecordsPaths := by
  intro s htv htree hroot
  obtain ⟨t, ht, hframe, hcode⟩ := exec_gencode_codewords htv htree
  exact ⟨t, ht, hframe, fun c p => (hcode c p).trans (codeword_iff_leadsToLeaf hroot c p)⟩

end Sys2Proof.Machine
end

section
/-! PROOFS. The command envelope: what RESULT, ERRINFO and ESTICKY are after every command. -/

namespace Sys2Proof.Machine

/-! ### The sticky bit of an error -/

/-- The code of an error is at most 6, so it numbers a bit of ESTICKY (R201, R26). -/
theorem ErrorKind.code_lt (e : ErrorKind) : e.code.toNat < 8 := by
  cases e <;> decide

/-- The sticky bit of an error is the bit numbered by its code (R26). -/
theorem ErrorKind.stickyBit_getLsbD (e : ErrorKind) (n : Nat) :
    e.stickyBit.getLsbD n = decide (n = e.code.toNat) := by
  show (BitVec.twoPow 8 e.code.toNat).getLsbD n = _
  rw [BitVec.getLsbD_twoPow, decide_eq_true e.code_lt, Bool.true_and]
  exact decide_eq_decide.mpr eq_comm

/-! ### The envelope -/

/-- Settles O8: CLEAR completes on its cleared state; the work of any other command keeps ESTICKY, and its end either
completes or enters an error, whose sticky bit is added. -/
theorem envelopeWritesResult : Obligations.EnvelopeWritesResult := by
  intro i s
  by_cases hi : i = .clear
  · subst hi
    exact ⟨_, exec_clear s, .inl ⟨rfl, rfl, rfl⟩⟩
  · obtain ⟨t, h⟩ := exec_next i s
    refine ⟨t, h, ?_⟩
    obtain ⟨u, hu, ht⟩ := exec_workLeaves h
    have hkept : u.esticky = s.esticky := (State.workLeaves_frame hu).esticky hi
    rcases ht with rfl | ⟨e, info, rfl⟩
    · exact .inl ⟨rfl, rfl, by rw [if_neg hi, State.succeed_esticky, hkept]⟩
    · refine .inr ⟨e, rfl, fun n _ => ?_⟩
      rw [State.raise_esticky, hkept, BitVec.getLsbD_or, e.stickyBit_getLsbD]
      rfl

/-- Settles O11: the word of NOP is its encoding, and NOP is completion alone. -/
theorem nopWritesOnlyResult : Obligations.NopWritesOnlyResult :=
  ⟨decodeCommand_encode .nop, exec_nop⟩

end Sys2Proof.Machine
end

section
/-! PROOFS. COUNT: the precheck it shares with ENCODE, and what the table it leaves holds. -/

namespace Sys2Proof.Machine

/-! ### The precheck -/

theorem State.symTooLong_iff (s : State) : s.symTooLong = true ↔ s.caps.symCap < s.symlen.toNat := decide_eq_true_iff

/-- With SYMLEN within its capacity COUNT completes with the table of its loop (R130). -/
theorem exec_count_of_le {s : State} (h : s.symlen.toNat ≤ s.caps.symCap) :
    exec .count s = .next { s with freq := countAll s.input }.succeed := by
  show execCount s = _
  rw [execCount, if_neg (mt s.symTooLong_iff.mp (Nat.not_lt.mpr h)), Run.settle_ok]

theorem exec_count_of_lt {s : State} (h : s.caps.symCap < s.symlen.toNat) :
    exec .count s = .next (s.raise .capacity s.symlen) := by
  show execCount s = _
  rw [execCount, if_pos (s.symTooLong_iff.mpr h), Run.settle_raised]

theorem exec_encode_of_lt {s : State} (h : s.caps.symCap < s.symlen.toNat) :
    exec .encode s = .next (s.raise .capacity s.symlen) := by
  show execEncode s = _
  rw [execEncode, if_pos (s.symTooLong_iff.mpr h), Run.settle_raised]

/-- Settles O15: both commands enter CapacityError, whose sticky bit is bit 5, before any work. -/
theorem symlenAboveCapacityFails : Obligations.SymlenAboveCapacityFails := by
  rintro i s (rfl | rfl) h
  · exact exec_count_of_lt h
  · exact exec_encode_of_lt h

/-! ### The counts -/

/-- The occurrences of a symbol in the input are the indices below SYMLEN that hold it (R28). -/
theorem occurrences_input (s : State) (c : Byte) :
    occurrences s.input c = ((List.range s.symlen.toNat).filter (fun i => s.symByte i == c)).length := by
  rw [occurrences, State.input, List.filter_map, List.length_map]
  rfl

/-- SYMLEN is below 2^32, so no count wraps (R132 c). -/
theorem countAll_input_at (s : State) (c : Byte) : ((countAll s.input).at c).toNat = occurrences s.input c :=
  countAll_at s.input c (by rw [s.input_length]; exact s.symlen.isLt)

/-- Settles O13: COUNT leaves the table of its loop, whose entries are the occurrences in the input. -/
theorem countTalliesSymbols : Obligations.CountTalliesSymbols := by
  intro s _ hsym
  refine ⟨_, exec_count_of_le hsym, fun c => ?_, rfl⟩
  rw [State.succeed_freq, countAll_input_at, occurrences_input]

/-! ### Their sum -/

theorem allSymbols_nodup : allSymbols.Nodup := by
  refine List.Nodup.map_on (fun i hi j hj hij => ?_) List.nodup_range
  have hi := List.mem_range.mp hi
  have hj := List.mem_range.mp hj
  have := congrArg BitVec.toNat hij
  rwa [BitVec.toNat_ofNat, BitVec.toNat_ofNat, Nat.mod_eq_of_lt hi, Nat.mod_eq_of_lt hj] at this

theorem occurrences_eq_count (cs : List Byte) (c : Byte) : occurrences cs c = cs.count c :=
  List.countP_eq_length_filter.symm

/-- Every symbol is one of the 256, and each is listed once, so the occurrences of the 256 cover the sequence. -/
theorem sum_occurrences (cs : List Byte) : (allSymbols.map (occurrences cs)).sum = cs.length := by
  calc (allSymbols.map (occurrences cs)).sum
      = ∑ c ∈ allSymbols.toFinset, occurrences cs c := (List.sum_toFinset _ allSymbols_nodup).symm
    _ = ∑ c ∈ allSymbols.toFinset, (cs : Multiset Byte).count c :=
        Finset.sum_congr rfl fun c _ => (occurrences_eq_count cs c).trans (Multiset.coe_count c cs).symm
    _ = (cs : Multiset Byte).card :=
        Multiset.sum_count_eq_card fun c _ => List.mem_toFinset.mpr (mem_allSymbols c)
    _ = cs.length := Multiset.coe_card cs

/-- A table that holds the occurrences in a sequence has its length as total (R132 b). -/
theorem freqTotal_of_occurrences {t : State} {cs : List Byte} (h : ∀ c, (t.freq.at c).toNat = occurrences cs c) :
    t.freqTotal = cs.length := by
  rw [State.freqTotal, funext h, sum_occurrences]

theorem freqTotal_eq_zero {t : State} (h : ∀ c, t.freq.at c = 0#32) : t.freqTotal = 0 := by
  simp [State.freqTotal, h]

/-- Settles O14: each count is at most the length of the input, and the counts sum to that length, so they are all 0 exactly
when it is. -/
theorem countTotalIsSymlen : Obligations.CountTotalIsSymlen := by
  intro s hcaps hsym
  obtain ⟨t, ht, hcount, hframe⟩ := countTalliesSymbols s hcaps hsym
  have hocc : ∀ c, (t.freq.at c).toNat = occurrences s.input c := fun c => by rw [hcount, occurrences_input]
  have htotal : t.freqTotal = s.symlen.toNat := by rw [freqTotal_of_occurrences hocc, s.input_length]
  have hle : ∀ c, (t.freq.at c).toNat ≤ s.symlen.toNat := fun c => by
    rw [hocc, ← s.input_length]
    exact occurrences_le s.input c
  refine ⟨t, ht, by rw [hframe], htotal, hle, fun hzero => ?_, fun hempty c => ?_⟩
  · exact BitVec.eq_of_toNat_eq (htotal.symm.trans (freqTotal_eq_zero hzero))
  · exact BitVec.eq_of_toNat_eq (Nat.le_zero.mp ((hle c).trans_eq (congrArg BitVec.toNat hempty)))

end Sys2Proof.Machine
end

section
/-! PROOFS. The merges of BUILD: what one merge makes of the queue, the frequencies of the nodes made, and that the leaves and
the key order leave no choice. -/

namespace Sys2Proof.Machine

/-- The key order is strict (R142). -/
theorem precedes_asymm {a : Arena} {i j : NodeIx} (h : precedes a i j = true) : ¬ precedes a j i = true := by
  rw [precedes_iff, BitVec.lt_def] at *
  rw [← BitVec.toNat_inj, Fin.lt_def] at *
  omega

/-! ### Arenas with the same first records -/

/-- The two arenas hold the same records below index `n`. -/
def Arena.agreesBelow (a b : Arena) (n : Nat) : Prop := ∀ i, i < n → a.nth i = b.nth i

namespace Arena.agreesBelow

variable {a b : Arena} {n : Nat}

theorem symm (h : a.agreesBelow b n) : b.agreesBelow a n := fun i hi => (h i hi).symm

theorem mono (h : a.agreesBelow b n) {m : Nat} (hmn : m ≤ n) : a.agreesBelow b m :=
  fun i hi => h i (Nat.lt_of_lt_of_le hi hmn)

theorem at_eq (h : a.agreesBelow b n) {j : NodeIx} (hj : j.val < n) : a.at j = b.at j := by
  rw [← a.nth_val, ← b.nth_val, h j.val hj]

theorem precedes_eq (h : a.agreesBelow b n) {i j : NodeIx} (hi : i.val < n) (hj : j.val < n) :
    precedes a i j = precedes b i j := by
  rw [precedes, precedes, h.at_eq hi, h.at_eq hj]

/-- The queue at index `n` is a matter of the records below `n`. -/
theorem queued (h : a.agreesBelow b n) {k : Nat} {j : NodeIx} (hq : a.queued k n j) : b.queued k n j := by
  obtain ⟨hlt, hfree⟩ := hq
  exact ⟨hlt, fun m hm hmn => h m hmn ▸ hfree m hm hmn⟩

end Arena.agreesBelow

/-- A node in the queue at `i + 1` is the node made at `i`, or it was in the queue at `i` and that node did not take it. -/
theorem Arena.queued_succ {a : Arena} {k i : Nat} {j : NodeIx} (hi : k ≤ i) (h : a.queued k (i + 1) j) :
    j.val = i ∨ a.queued k i j ∧ (a.nth i).hasChild j = false := by
  obtain ⟨hlt, hfree⟩ := h
  by_cases hji : j.val = i
  · exact .inl hji
  · exact .inr ⟨⟨by omega, fun m hm hmi => hfree m hm (by omega)⟩, hfree i hi (by omega)⟩

/-! ### The merge that makes a node -/

/-- Node `i` is the merge of `l` and `r`, the two nodes that come first in the queue when it is made (R142 to R144). -/
structure Arena.mergesLowest (a : Arena) (k i : Nat) (l r : NodeIx) : Prop where
  record : a.nth i = .internal ((a.at l).freq + (a.at r).freq) l r
  ne : l ≠ r
  queued_left : a.queued k i l
  queued_right : a.queued k i r
  lowest : ∀ j, a.queued k i j → j ≠ l → precedes a l j = true ∧ (j ≠ r → precedes a r j = true)

namespace Arena.mergesLowest

variable {a b : Arena} {k i : Nat} {l r l' r' : NodeIx}

/-- The merge that makes node `i` is a matter of the records up to `i`. -/
theorem congr (hm : a.mergesLowest k i l r) (h : a.agreesBelow b (i + 1)) : b.mergesLowest k i l r := by
  have hi := h.mono (Nat.le_succ i)
  have hl := hm.queued_left.1
  have hr := hm.queued_right.1
  refine ⟨?_, hm.ne, hi.queued hm.queued_left, hi.queued hm.queued_right, fun j hj hjl => ?_⟩
  · rw [← h i (Nat.lt_succ_self i), ← hi.at_eq hl, ← hi.at_eq hr]
    exact hm.record
  · rw [← hi.precedes_eq hl hj.1, ← hi.precedes_eq hr hj.1]
    exact hm.lowest j (hi.symm.queued hj) hjl

/-- With the same records below `i`, the same node comes first in the queue: the key order is strict. -/
theorem left_unique (hm : a.mergesLowest k i l r) (hm' : b.mergesLowest k i l' r') (h : a.agreesBelow b i) : l = l' := by
  by_contra hne
  have h1 := (hm.lowest l' (h.symm.queued hm'.queued_left) (Ne.symm hne)).1
  have h2 := (hm'.lowest l (h.queued hm.queued_left) hne).1
  rw [← h.precedes_eq hm'.queued_left.1 hm.queued_left.1] at h2
  exact precedes_asymm h1 h2

/-- And the same node comes second. -/
theorem right_unique (hm : a.mergesLowest k i l r) (hm' : b.mergesLowest k i l r') (h : a.agreesBelow b i) : r = r' := by
  by_contra hne
  have h1 := (hm.lowest r' (h.symm.queued hm'.queued_right) hm'.ne.symm).2 (Ne.symm hne)
  have h2 := (hm'.lowest r (h.queued hm.queued_right) hm.ne.symm).2 hne
  rw [← h.precedes_eq hm'.queued_right.1 hm.queued_right.1] at h2
  exact precedes_asymm h1 h2

/-- So the same record is made. -/
theorem record_unique (hm : a.mergesLowest k i l r) (hm' : b.mergesLowest k i l' r') (h : a.agreesBelow b i) :
    a.nth i = b.nth i := by
  obtain rfl := hm.left_unique hm' h
  obtain rfl := hm.right_unique hm' h
  rw [hm.record, hm'.record, h.at_eq hm.queued_left.1, h.at_eq hm.queued_right.1]

end Arena.mergesLowest

/-- Every choice is fixed: two arenas with the same `k` leaves, whose other nodes below `n` are merges of the two lowest, hold
the same records (R150). -/
theorem agreesBelow_of_mergesLowest {a b : Arena} {k n : Nat} (hleaf : a.agreesBelow b k)
    (ha : ∀ i, k ≤ i → i < n → ∃ l r, a.mergesLowest k i l r)
    (hb : ∀ i, k ≤ i → i < n → ∃ l r, b.mergesLowest k i l r) : a.agreesBelow b n := by
  intro i
  induction i using Nat.strong_induction_on with
  | _ i ih =>
    intro hin
    by_cases hi : i < k
    · exact hleaf i hi
    · obtain ⟨l, r, hm⟩ := ha i (by omega) hin
      obtain ⟨l', r', hm'⟩ := hb i (by omega) hin
      exact hm.record_unique hm' fun m hmi => ih m hmi (by omega)

/-! ### The merge loop -/

namespace ForestInv

variable {k total : Nat} {f : Forest}

/-- The queue is what the records below the next free index say it is. -/
theorem queued_next_iff (h : ForestInv k total f) {j : NodeIx} : f.node.queued k f.next j ↔ j ∈ f.inq := by
  constructor
  · rintro ⟨hlt, hfree⟩
    exact (h.roots j hlt).mpr hfree
  · intro hj
    have hlt := h.below j hj
    exact ⟨hlt, (h.roots j hlt).mp hj⟩

/-- One merge keeps every record made before, and makes the merge of the two lowest of the queue (R144). -/
theorem mergeStep_mergesLowest (h : ForestInv k total f) (h2 : 2 ≤ f.inq.length) :
    f.node.agreesBelow (Machine.mergeStep f).node f.next ∧
      ∃ l r, (Machine.mergeStep f).node.mergesLowest k f.next l r := by
  obtain ⟨l, r, hl, hr, hne, hminl, hminr, hstep⟩ := mergeStep_spec f h2 h.nodup
  have hcap : f.next < 511 := by
    have := h.count
    have := h.le_256
    omega
  have hagree : f.node.agreesBelow (Machine.mergeStep f).node f.next := by
    intro i hi
    rw [hstep]
    exact (Forest.insert_nth_other _ _ (by omega) hcap (Nat.ne_of_lt hi)).symm
  refine ⟨hagree, l, r, ?_, hne, hagree.queued (h.queued_next_iff.mpr hl), hagree.queued (h.queued_next_iff.mpr hr),
    fun j hj hjl => ?_⟩
  · rw [← hagree.at_eq (h.below l hl), ← hagree.at_eq (h.below r hr), hstep]
    exact Forest.insert_nth_self _ _
  · have hjq := h.queued_next_iff.mp (hagree.symm.queued hj)
    rw [← hagree.precedes_eq (h.below l hl) hj.1, ← hagree.precedes_eq (h.below r hr) hj.1]
    exact ⟨hminl j hjq hjl, hminr j hjq hjl⟩

/-- The frequency of an internal node is, as a number, the sum of its children's: the addition did not wrap (R148 e). -/
theorem freq_internal (h : ForestInv k total f) {i : Nat} (hin : i < f.next) {g : NodeFreq} {l r : NodeIx}
    (hnode : f.node.nth i = .internal g l r) :
    g.toNat = (f.node.at l).freq.toNat + (f.node.at r).freq.toNat := by
  have hlt := h.next_lt
  have hk := h.le_256
  have hval : (NodeIx.ofNumber i).val = i := NodeIx.ofNumber_val (by omega)
  obtain ⟨hl, hr⟩ := h.downward (NodeIx.ofNumber i) (by omega) g l r hnode
  have hsum : ∀ j : NodeIx, j.val < i → leafSum 510 f.node j = (f.node.at j).freq.toNat := by
    intro j hj
    have hj511 := h.sums j.val (by omega)
    rw [Arena.nth_val, NodeIx.ofNumber_self] at hj511
    rw [hj511]
    exact leafSum_congr h.downward (fun _ _ => rfl) j.val j rfl (by omega) 510 511 (by omega) j.isLt
  have hi511 := h.sums i hin
  rw [hnode, Node.freq_internal, leafSum, show f.node.at (NodeIx.ofNumber i) = _ from hnode] at hi511
  rw [hi511]
  simp only
  rw [hsum l (by omega), hsum r (by omega)]

end ForestInv

/-- Every internal node below the next free index is the merge of the two lowest (R144). -/
def Forest.merged (k : Nat) (f : Forest) : Prop := ∀ i, k ≤ i → i < f.next → ∃ l r, f.node.mergesLowest k i l r

/-- One more merge keeps them so. -/
theorem Forest.merged_mergeStep {k total : Nat} {f : Forest} (h : ForestInv k total f) (h2 : 2 ≤ f.inq.length)
    (hm : f.merged k) : (mergeStep f).merged k := by
  obtain ⟨hagree, hnew⟩ := h.mergeStep_mergesLowest h2
  intro i hi hin
  rw [(h.mergeStep h2).2] at hin
  by_cases he : i = f.next
  · exact he ▸ hnew
  · obtain ⟨l, r, hlow⟩ := hm i hi (by omega)
    exact ⟨l, r, hlow.congr (hagree.mono (by omega))⟩

/-- The frequencies of the internal nodes below the next free index never fall (R148 f): what is in the queue after a merge has
at least the frequency of the second node taken, so the next merge sums two such. -/
theorem ForestInv.freq_mono {k total : Nat} {f : Forest} (h : ForestInv k total f) (hm : f.merged k) {i j : Nat}
    (hi : k ≤ i) (hij : i ≤ j) (hj : j < f.next) : (f.node.nth i).freq.toNat ≤ (f.node.nth j).freq.toNat := by
  have hsum : ∀ {i l r}, i < f.next → f.node.mergesLowest k i l r →
      (f.node.nth i).freq.toNat = (f.node.at l).freq.toNat + (f.node.at r).freq.toNat := by
    intro i l r hin hm
    have := h.freq_internal hin hm.record
    rwa [hm.record, Node.freq_internal]
  induction j, hij using Nat.le_induction with
  | base => exact Nat.le_refl _
  | succ j hij ih =>
    refine (ih (by omega)).trans ?_
    obtain ⟨l, r, hlow⟩ := hm j (by omega) (by omega)
    obtain ⟨l', r', hlow'⟩ := hm (j + 1) (by omega) hj
    have hlr := freq_le_of_precedes (hlow.lowest r hlow.queued_right hlow.ne.symm).1
    have hge : ∀ x, f.node.queued k (j + 1) x → (f.node.at r).freq.toNat ≤ (f.node.at x).freq.toNat := by
      intro x hx
      rcases Arena.queued_succ (by omega) hx with rfl | ⟨hxq, hnot⟩
      · rw [← f.node.nth_val x, hsum (by omega) hlow]
        omega
      · rw [hlow.record, ← Bool.not_eq_true, Node.hasChild_internal, not_or] at hnot
        exact freq_le_of_precedes ((hlow.lowest x hxq (Ne.symm hnot.1)).2 (Ne.symm hnot.2))
    have hl' := hge l' hlow'.queued_left
    have hr' := hge r' hlow'.queued_right
    rw [hsum (by omega) hlow, hsum hj hlow']
    omega

end Sys2Proof.Machine
end

section
/-! PROOFS. BUILD: its next state on the empty table and on a table that is not empty, and the tree it leaves. -/

namespace Sys2Proof.Machine

/-! ### The forest at the end of the loop -/

theorem forestInv_buildForest (s : State) (hne : s.present ≠ []) :
    ForestInv s.present.length s.freqTotal (buildForest s.freq s.node) ∧
      (buildForest s.freq s.node).inq.length = 1 := by
  obtain ⟨hinv, h1, -⟩ := buildForest_spec s hne (P := fun _ => True) trivial fun _ _ _ _ => trivial
  exact ⟨hinv, h1⟩

/-- The leaves of leaf_init are still there at the end (R141). -/
theorem buildForest_leaves (s : State) (hne : s.present ≠ []) :
    (leafInit s.freq s.node).node.agreesBelow (buildForest s.freq s.node).node s.present.length := by
  obtain ⟨-, -, hleaves⟩ := buildForest_spec s hne
    (P := fun f => (leafInit s.freq s.node).node.agreesBelow f.node s.present.length) (fun _ _ => rfl)
    fun f h h2 hP i hi => by
      obtain ⟨hagree, -⟩ := h.mergeStep_mergesLowest h2
      rw [hP i hi, hagree i (Nat.lt_of_lt_of_le hi h.lower)]
  exact hleaves

theorem buildForest_merged (s : State) (hne : s.present ≠ []) : (buildForest s.freq s.node).merged s.present.length := by
  obtain ⟨hnext, -, -⟩ := leafInit_spec s
  obtain ⟨-, -, hmerged⟩ := buildForest_spec s hne (P := Forest.merged s.present.length)
    (fun i hi hin => absurd hi (by omega)) fun _ h h2 hP => Forest.merged_mergeStep h h2 hP
  exact hmerged

/-! ### The next state (R140, R146) -/

theorem present_eq_nil_iff (s : State) : s.present = [] ↔ ∀ c, s.freq.at c = 0#32 := by
  simp [List.eq_nil_iff_forall_not_mem, mem_present]

theorem exec_build_of_empty {s : State} (h : s.present = []) :
    exec .build s = .next (s.withoutTree.raise .emptyInput 0#32) := by
  show execBuild s = _
  rw [execBuild, if_pos (by rw [(leafInit_spec s).1, h]; rfl), Run.settle_raised]

/-- The state that BUILD leaves on a table that is not empty, before RESULT and ERRINFO are written (R140). -/
def State.built (s : State) : State := s.withoutTree.withTree s.present.length (buildForest s.freq s.node)

theorem exec_build_of_ne {s : State} (hne : s.present ≠ []) : exec .build s = .next s.built.succeed := by
  have hk : s.present.length ≠ 0 := mt List.eq_nil_of_length_eq_zero hne
  show execBuild s = _
  rw [execBuild, (leafInit_spec s).1, if_neg hk, Run.settle_ok, State.built]

/-- Settles O16: with no symbol in the table BUILD enters EmptyInputError, whose sticky bit is bit 1, with no tree. -/
theorem buildOnEmptyTableFails : Obligations.BuildOnEmptyTableFails :=
  fun s h => exec_build_of_empty ((present_eq_nil_iff s).mpr h)

/-! ### The tree -/

theorem State.built_nsym (s : State) : s.built.nsym.toNat = s.present.length := by
  have := present_length_le s
  exact Nat.mod_eq_of_lt (by omega)

/-- Settles O17: the state that BUILD leaves meets the tree invariants of a valid tree with k leaves. -/
theorem buildMakesTree : Obligations.BuildMakesTree := by
  intro s hne
  have htree : s.built.treeOk := s.withTree_treeOk hne
  rw [State.treeOk, if_pos (show s.built.tv = true from rfl), s.built_nsym] at htree
  obtain ⟨hcnt, hroot, hshape, hinq⟩ := htree
  exact ⟨_, exec_build_of_ne hne, rfl, s.built_nsym, hcnt, hroot, hinq, hshape, rfl⟩

/-- Settles O18: leaf_init makes the leaves in that order, and no merge touches them. -/
theorem buildLeavesInSymbolOrder : Obligations.BuildLeavesInSymbolOrder := by
  intro s hne
  refine ⟨_, exec_build_of_ne hne, fun i hi => ?_⟩
  obtain ⟨-, -, hleaf⟩ := leafInit_spec s
  exact (buildForest_leaves s hne i hi).symm.trans (hleaf i _ (List.getElem?_eq_getElem hi))

/-- The internal nodes of the tree that BUILD leaves are merges of the two lowest (R144). -/
theorem State.built_mergesLowest {s : State} (hne : s.present ≠ []) {i : Nat} (hi : s.present.length ≤ i)
    (hin : i < 2 * s.present.length - 1) : ∃ l r, s.built.node.mergesLowest s.present.length i l r := by
  obtain ⟨hinv, h1⟩ := forestInv_buildForest s hne
  exact buildForest_merged s hne i hi (by rwa [hinv.next_of_single h1])

/-- Settles O19: each merge takes the two lowest of the queue, and later merges leave its record and the queue it saw. -/
theorem buildMergesTheTwoLowest : Obligations.BuildMergesTheTwoLowest := by
  intro s hne
  refine ⟨_, exec_build_of_ne hne, fun i hi hin => ?_⟩
  obtain ⟨l, r, hm⟩ := State.built_mergesLowest hne hi hin
  exact ⟨l, r, hm.record, hm.ne, hm.queued_left, hm.queued_right, hm.lowest⟩

/-! ### One symbol -/

theorem present_eq_singleton {s : State} {c : Byte} (hc : s.freq.at c ≠ 0#32) (hd : ∀ d, d ≠ c → s.freq.at d = 0#32) :
    s.present = [c] := by
  have hmem : ∀ d, d ∈ s.present ↔ d ∈ [c] := by
    intro d
    rw [mem_present, List.mem_singleton]
    exact ⟨fun h => by_contra fun hdc => h (hd d hdc), fun h => h ▸ hc⟩
  have hnodup : s.present.Nodup := (present_ascending s).imp fun h => BitVec.ne_of_lt h
  exact List.perm_singleton.mp ((List.perm_ext_iff_of_nodup hnodup (List.nodup_singleton c)).mpr hmem)

/-- Settles O20: the tree of one leaf has one node, its root, and the leaf is that of the one symbol. -/
theorem buildOneSymbolIsLoneLeaf : Obligations.BuildOneSymbolIsLoneLeaf := by
  intro s c hc hd
  have hp := present_eq_singleton hc hd
  have hne : s.present ≠ [] := by rw [hp]; exact List.cons_ne_nil c []
  obtain ⟨t, ht, htv, hnsym, hcnt, hroot, -, -, hframe⟩ := buildMakesTree s hne
  obtain ⟨u, hu, hleaf⟩ := buildLeavesInSymbolOrder s hne
  obtain rfl : t = u := by rw [ht] at hu; injection hu
  have hleaf0 := hleaf 0 (by rw [hp]; exact Nat.zero_lt_one)
  simp only [hp, List.getElem_cons_zero] at hleaf0
  rw [hp, List.length_singleton] at hnsym hcnt hroot
  have hcnt1 : t.nodecnt = 1#10 := BitVec.eq_of_toNat_eq hcnt
  refine ⟨t, ht, by rw [hframe], BitVec.eq_of_toNat_eq hnsym, hcnt1, Fin.ext hroot, htv, hleaf0, ?_⟩
  rw [State.leafRoot, htv, hcnt1]
  rfl

/-! ### The frequencies -/

/-- Settles O21: the queue's frequencies sum to the total throughout, and the root is all that is left of the queue. -/
theorem rootFrequencyIsTotal : Obligations.RootFrequencyIsTotal := by
  intro s hne
  refine ⟨_, exec_build_of_ne hne, ?_⟩
  obtain ⟨hinv, h1⟩ := forestInv_buildForest s hne
  obtain ⟨root, hroot⟩ := List.length_eq_one_iff.mp h1
  have htotal := hinv.total_eq
  rw [hroot, List.map_singleton, List.sum_singleton] at htotal
  rw [State.succeed_node, State.succeed_root, State.built, State.withTree_node, State.withTree_root, hroot]
  exact htotal

/-- Settles O22: every merge takes the two lowest, so the sums never fall. -/
theorem internalFrequenciesNondecreasing : Obligations.InternalFrequenciesNondecreasing := by
  intro s hne
  refine ⟨_, exec_build_of_ne hne, fun i j hi hij hj => BitVec.le_def.mpr ?_⟩
  obtain ⟨hinv, h1⟩ := forestInv_buildForest s hne
  have hnext := hinv.next_of_single h1
  exact hinv.freq_mono (buildForest_merged s hne) hi hij (by omega)

/-! ### Determinism -/

theorem present_congr {s u : State} (h : s.freq = u.freq) : s.present = u.present := by
  rw [State.present, State.present, h]

/-- Equal tables give arenas with the same leaves and merges, so the same records (R150). -/
theorem State.built_agreesBelow {s u : State} (h : s.freq = u.freq) (hne : s.present ≠ []) :
    s.built.node.agreesBelow u.built.node (2 * s.present.length - 1) := by
  have hp := present_congr h
  have hne' : u.present ≠ [] := hp ▸ hne
  refine agreesBelow_of_mergesLowest (k := s.present.length) (fun i hi => ?_)
    (fun i hi hin => State.built_mergesLowest hne hi hin)
    (fun i hi hin => hp ▸ State.built_mergesLowest hne' (hp ▸ hi) (hp ▸ hin))
  have hi' : i < u.present.length := hp ▸ hi
  obtain ⟨-, -, hs⟩ := leafInit_spec s
  obtain ⟨-, -, hu⟩ := leafInit_spec u
  have hget : s.present[i]? = some s.present[i] := List.getElem?_eq_getElem hi
  have hget' : u.present[i]? = some s.present[i] := by rw [← hp]; exact hget
  calc s.built.node.nth i = (leafInit s.freq s.node).node.nth i := (buildForest_leaves s hne i hi).symm
    _ = (leafInit u.freq u.node).node.nth i := by rw [hs i _ hget, hu i _ hget', h]
    _ = u.built.node.nth i := buildForest_leaves u hne' i hi'

/-- Settles O23: the leaf count fixes the registers, and the leaves and the key order fix every record. -/
theorem buildDependsOnFreqAlone : Obligations.BuildDependsOnFreqAlone := by
  intro s u h
  have hp := present_congr h
  by_cases hnil : s.present = []
  · refine ⟨_, _, exec_build_of_empty hnil, exec_build_of_empty (hp ▸ hnil), rfl, rfl, rfl, rfl, rfl, rfl, fun i hi => ?_⟩
    exact absurd hi (Nat.not_lt_zero i)
  · have hnil' : u.present ≠ [] := hp ▸ hnil
    obtain ⟨t, ht, htv, hnsym, hcnt, hroot, hinq, -, hframe⟩ := buildMakesTree s hnil
    obtain ⟨v, hv, hvtv, hvnsym, hvcnt, hvroot, hvinq, -, hvframe⟩ := buildMakesTree u hnil'
    rw [← hp] at hvnsym hvcnt hvroot
    have hrootEq : t.root = v.root := Fin.ext (hroot.trans hvroot.symm)
    refine ⟨t, v, ht, hv, by rw [hframe, hvframe], htv.trans hvtv.symm, BitVec.eq_of_toNat_eq (hnsym.trans hvnsym.symm),
      BitVec.eq_of_toNat_eq (hcnt.trans hvcnt.symm), hrootEq, by rw [hinq, hvinq, hrootEq], fun i hi => ?_⟩
    rw [exec_build_of_ne hnil] at ht
    rw [exec_build_of_ne hnil'] at hv
    cases ht
    cases hv
    exact State.built_agreesBelow h hnil i (hcnt ▸ hi)

end Sys2Proof.Machine
end

section
/-! PROOFS. The codes of GENCODE: no tree, the lone leaf, the leaves covered, the Kraft sum, and what the table depends on. -/

namespace Sys2Proof.Machine

/-! ### No tree, and the lone leaf -/

/-- Settles O24: without a tree the table left is the empty one, whose CODELEN words are all 0. -/
theorem gencodeWithoutTreeIsEmpty : Obligations.GencodeWithoutTreeIsEmpty := by
  intro s htv
  have hempty : ∀ c, (if s.tv then codesOf s.node s.root else CodeTable.empty).at c = none := by
    simp [htv]
  refine ⟨_, exec_gencode s, rfl, hempty, fun ix hix => ?_⟩
  rw [hostRead_codelen _ hix, State.succeed_code, hempty]
  rfl

/-- Settles O25: at a leaf root the table is the empty one with the code "0" put at the symbol of the leaf. -/
theorem gencodeLoneLeafIsZero : Obligations.GencodeLoneLeafIsZero := by
  intro s c f htv hleaf
  have hcode : (if s.tv then codesOf s.node s.root else CodeTable.empty) = CodeTable.empty.put c [false] := by
    rw [if_pos htv, codesOf, hleaf]
  refine ⟨_, exec_gencode s, rfl, ?_, fun d hd => ?_⟩
  · rw [State.succeed_code, hcode, CodeTable.at_put_self]
  · rw [State.succeed_code, hcode, CodeTable.at_put_other _ _ _ _ hd, CodeTable.empty_at]

/-! ### The leaves that have codes, and the form of the root -/

/-- From a leaf the empty path leads to its symbol, and nothing else leads to a leaf. -/
theorem leadsToLeaf_leaf {a : Arena} {i : NodeIx} {c d : Byte} {f : NodeFreq} {p : BitString} (hi : a.at i = .leaf d f) :
    leadsToLeaf a i p c ↔ p = [] ∧ c = d := by
  constructor
  · rintro ⟨j, g, hj, hjc⟩
    obtain ⟨rfl, rfl⟩ := descend_from_leaf hi hj
    rw [hi] at hjc
    injection hjc with hdc
    exact ⟨rfl, hdc.symm⟩
  · rintro ⟨rfl, rfl⟩
    exact ⟨i, f, rfl, hi⟩

/-- An internal node is no leaf, so a path from it to a leaf is not empty. -/
theorem not_leadsToLeaf_nil {a : Arena} {i l r : NodeIx} {f : NodeFreq} (hi : a.at i = .internal f l r) {c : Byte} :
    ¬ leadsToLeaf a i [] c := by
  simp [leadsToLeaf_internal hi]

/-- A path from an internal node that begins with the bit `v` is a path from the child on that edge. -/
theorem leadsToLeaf_cons {a : Arena} {i l r : NodeIx} {f : NodeFreq} (hi : a.at i = .internal f l r) (v : Bool)
    (p : BitString) (c : Byte) : leadsToLeaf a i (v :: p) c ↔ leadsToLeaf a (if v then r else l) p c := by
  cases v <;> simp [leadsToLeaf_internal hi]

namespace TreeShape

variable {a : Arena} {k : Nat} {root : NodeIx}

/-- With two leaves or more the root is an internal node (R42 c). -/
theorem internalRoot_of_two_le (h : TreeShape a k) (hroot : root.val = 2 * k - 2) (hk : 2 ≤ k) : internalRoot a root := by
  obtain ⟨f, l, r, hr, -⟩ := h.internals root.val (by omega) (by omega)
  exact ⟨f, l, r, (a.nth_val root).symm.trans hr⟩

/-- With one leaf the root is that leaf (R147). -/
theorem leaf_root_of_one (h : TreeShape a 1) (hroot : root.val = 0) : ∃ c f, a.at root = .leaf c f := by
  obtain ⟨c, f, hc, -⟩ := h.leaves root.val (by omega)
  exact ⟨c, f, (a.nth_val root).symm.trans hc⟩

/-- The symbols that have a codeword are those of the k leaves (R164 a). -/
theorem exists_codeword_iff (h : TreeShape a k) (hroot : root.val = 2 * k - 2) (c : Byte) :
    (∃ p, codeword a root c p) ↔ ∃ i f, i < k ∧ a.nth i = .leaf c f := by
  have hk := h.size
  constructor
  · rintro ⟨p, hp⟩
    have hleaf : ∃ (j : NodeIx) (f : NodeFreq), j.val ≤ root.val ∧ a.at j = .leaf c f := by
      unfold codeword at hp
      cases hr : a.at root with
      | leaf d f =>
        simp only [hr] at hp
        obtain ⟨rfl, -⟩ := hp
        exact ⟨root, f, le_rfl, hr⟩
      | internal f l r =>
        simp only [hr] at hp
        obtain ⟨j, g, hd, hj⟩ := hp
        have := descend_le h.downward (by omega) hd
        exact ⟨j, g, by omega, hj⟩
    obtain ⟨j, f, hle, hj⟩ := hleaf
    exact ⟨j.val, f, h.leaf_lt (by omega) hj, (a.nth_val j).trans hj⟩
  · rintro ⟨i, f, hi, hleaf⟩
    have hval : (NodeIx.ofNumber i).val = i := NodeIx.ofNumber_val (by omega)
    obtain ⟨p, hp⟩ := h.reached hroot _ (NodeIx.ofNumber i) rfl (by omega)
    unfold codeword
    cases hr : a.at root with
    | leaf d g =>
      obtain ⟨-, hj⟩ := descend_from_leaf hr hp
      rw [Arena.nth, hj, hr] at hleaf
      injection hleaf with hdc
      exact ⟨[false], hdc, rfl⟩
    | internal g l r => exact ⟨p, _, f, hp, hleaf⟩

/-- A codeword has at most k - 1 bits with two leaves or more, and is one bit with one leaf (R164 b). -/
theorem codeword_length_le (h : TreeShape a k) (hroot : root.val = 2 * k - 2) {c : Byte} {p : BitString}
    (hp : codeword a root c p) : (2 ≤ k → p.length ≤ k - 1) ∧ (k = 1 → p.length = 1) := by
  constructor
  · intro hk
    have hi := h.internalRoot_of_two_le hroot hk
    obtain ⟨-, hle⟩ := h.leadsToLeaf_length hroot hi ((codeword_iff_leadsToLeaf hi c p).mp hp)
    exact hle
  · rintro rfl
    obtain ⟨d, f, hr⟩ := h.leaf_root_of_one hroot
    rw [codeword, hr] at hp
    obtain ⟨-, rfl⟩ := hp
    rfl

end TreeShape

/-- Settles O27: the table holds the codewords, which are those of the leaves and no longer than their number allows. -/
theorem codesCoverLeavesAndAreShort : Obligations.CodesCoverLeavesAndAreShort := by
  intro s htv htree
  obtain ⟨t, ht, -, hcode⟩ := exec_gencode_codewords htv htree
  obtain ⟨hshape, hroot⟩ := htree.shape htv
  refine ⟨t, ht, fun c => ?_, fun c p hp => ?_⟩
  · simp only [Option.isSome_iff_exists, hcode, hshape.exists_codeword_iff hroot]
  · have hword := (hcode c p).mp hp
    obtain ⟨hpos, -⟩ := hshape.codeword_length hroot hword
    exact ⟨hpos, hshape.codeword_length_le hroot hword⟩

/-- Settles O28: a codeword that begins with another is the codeword of the same symbol. -/
theorem codesArePrefixFree : Obligations.CodesArePrefixFree := by
  intro s htv htree
  obtain ⟨t, ht, -, hcode⟩ := exec_gencode_codewords htv htree
  exact ⟨t, ht, fun c d p q hcd hp hq hpq =>
    hcd (codeword_symbol_of_isPrefix ((hcode c p).mp hp) ((hcode d q).mp hq) hpq)⟩

/-! ### The Kraft sum -/

/-- The weight of a code entry in the Kraft sum scaled by `2 ^ depth`: no code weighs nothing (R164 d). -/
def kraftWeight (depth : Nat) (e : Option BitString) : Nat :=
  match e with
  | none => 0
  | some p => 2 ^ (depth - p.length)

/-- What is left of a code that begins with the bit `v`. -/
def codeAfter (v : Bool) (e : Option BitString) : Option BitString :=
  match e with
  | some (w :: p) => if w = v then some p else none
  | _ => none

theorem codeAfter_eq_some_iff (v : Bool) (e : Option BitString) (p : BitString) :
    codeAfter v e = some p ↔ e = some (v :: p) := by
  rcases e with _ | _ | ⟨w, q⟩
  · simp [codeAfter]
  · simp [codeAfter]
  · by_cases hwv : w = v <;> simp [codeAfter, hwv]

/-- A code that is not empty weighs, a level further down, what is left of it after its first bit. -/
theorem kraftWeight_succ (depth : Nat) {e : Option BitString} (he : e ≠ some []) :
    kraftWeight (depth + 1) e = kraftWeight depth (codeAfter false e) + kraftWeight depth (codeAfter true e) := by
  rcases e with _ | _ | ⟨w, q⟩
  · rfl
  · exact absurd rfl he
  · cases w <;> simp [kraftWeight, codeAfter]

/-- The Kraft sum, scaled by `2 ^ depth`, of the codes that `code` gives to all the symbols (R164 d). -/
def kraftSum (depth : Nat) (code : Byte → Option BitString) : Nat :=
  (allSymbols.map fun c => kraftWeight depth (code c)).sum

/-- When one symbol alone has a code, and that code is empty, the sum is its full weight. -/
theorem kraftSum_of_single (depth : Nat) {code : Byte → Option BitString} {d : Byte}
    (h : ∀ c p, code c = some p ↔ p = [] ∧ c = d) : kraftSum depth code = 2 ^ depth := by
  have hother : ∀ c, c ≠ d → c ∈ allSymbols → kraftWeight depth (code c) = 0 := by
    intro c hcd _
    have hnone : code c = none := Option.eq_none_iff_forall_ne_some.mpr fun p hp => hcd ((h c p).mp hp).2
    rw [hnone]
    rfl
  have hself : code d = some [] := (h d []).mpr ⟨rfl, rfl⟩
  rw [kraftSum, List.sum_map_eq_nsmul_single d _ hother,
    List.count_eq_one_of_mem allSymbols_nodup (mem_allSymbols d), one_smul, hself]
  rfl

/-- When no code is empty the sum splits by the first bit of the codes. -/
theorem kraftSum_succ (depth : Nat) {code : Byte → Option BitString} (h : ∀ c, code c ≠ some []) :
    kraftSum (depth + 1) code =
      kraftSum depth (fun c => codeAfter false (code c)) + kraftSum depth (fun c => codeAfter true (code c)) := by
  simp only [kraftSum, ← List.sum_map_add, kraftWeight_succ depth (h _)]

/-- The Kraft sum of the paths from node `i` to the leaves below it is 1, scaled by 2 to a power that the number of
internal nodes up to `i` does not exceed: each child of `i` has half of it (R164 d). -/
theorem TreeShape.kraftSum_eq {a : Arena} {k : Nat} (h : TreeShape a k) {depth : Nat} {i : NodeIx}
    {code : Byte → Option BitString} (hi : i.val < 2 * k - 1) (hdepth : i.val < k + depth)
    (hcode : ∀ c p, code c = some p ↔ leadsToLeaf a i p c) : kraftSum depth code = 2 ^ depth := by
  induction depth generalizing i code with
  | zero =>
    obtain ⟨d, f, hleaf, -⟩ := h.leaves i.val hdepth
    rw [Arena.nth_val] at hleaf
    exact kraftSum_of_single 0 fun c p => (hcode c p).trans (leadsToLeaf_leaf hleaf)
  | succ depth ih =>
    cases hr : a.at i with
    | leaf d f => exact kraftSum_of_single _ fun c p => (hcode c p).trans (leadsToLeaf_leaf hr)
    | internal f l r =>
      obtain ⟨hl, hr'⟩ := h.downward i hi f l r hr
      have hne : ∀ c, code c ≠ some [] := fun c hc => not_leadsToLeaf_nil hr ((hcode c []).mp hc)
      have hhalf : ∀ v, kraftSum depth (fun c => codeAfter v (code c)) = 2 ^ depth := by
        intro v
        have hchild : (if v then r else l).val < i.val := by cases v <;> assumption
        exact ih (by omega) (by omega) fun c p =>
          (codeAfter_eq_some_iff v (code c) p).trans ((hcode c _).trans (leadsToLeaf_cons hr v p c))
      rw [kraftSum_succ depth hne, hhalf false, hhalf true, pow_succ, mul_two]

/-- Settles O29: the table holds the paths from the root, whose Kraft sum is 1. -/
theorem kraftSumIsOne : Obligations.KraftSumIsOne := by
  intro s htv htree hk
  obtain ⟨hshape, hroot⟩ := htree.shape htv
  obtain ⟨t, ht, -, hcode⟩ := gencodeRecordsPaths s htv htree (hshape.internalRoot_of_two_le hroot hk)
  obtain ⟨-, hk'⟩ := hshape.size
  exact ⟨t, ht, hshape.kraftSum_eq (depth := 255) (code := t.code.at) (by omega) (by omega) hcode⟩

/-! ### What the table depends on -/

/-- The walk from a node reads records below it only (R161). -/
theorem walk_congr {a b : Arena} {n : Nat} (hd : a.downward n) (hab : a.agreesBelow b n) (fuel : Nat) {i : NodeIx}
    (hi : i.val < n) (p : BitString) (t : CodeTable) : walk fuel a i p t = walk fuel b i p t := by
  induction fuel generalizing i p t with
  | zero => rfl
  | succ fuel ih =>
    rw [walk, walk, ← hab.at_eq hi]
    cases hr : a.at i with
    | leaf c f => rfl
    | internal f l r =>
      obtain ⟨hl, hr'⟩ := hd i hi f l r hr
      simp only [ih (i := l) (by omega), ih (i := r) (by omega)]

theorem codesOf_congr {a b : Arena} {n : Nat} {root : NodeIx} (hd : a.downward n) (hab : a.agreesBelow b n)
    (hroot : root.val < n) : codesOf a root = codesOf b root := by
  rw [codesOf, codesOf, ← hab.at_eq hroot]
  cases a.at root with
  | leaf c f => rfl
  | internal f l r => exact walk_congr hd hab 511 hroot [] CodeTable.empty

/-- What treeOk says of NODECNT while TV = 1 (R32). -/
theorem State.treeOk.nodecnt {s : State} (h : s.treeOk) (htv : s.tv = true) : s.nodecnt.toNat = 2 * s.nsym.toNat - 1 := by
  rw [State.treeOk, if_pos htv] at h
  obtain ⟨hcnt, -⟩ := h
  exact hcnt

/-- Settles O30: the walk reads nothing but the records of the tree, and with no tree the table is empty. -/
theorem gencodeDependsOnTreeAlone : Obligations.GencodeDependsOnTreeAlone := by
  intro s u htree _ htv hroot hcnt hnode
  refine ⟨_, _, exec_gencode s, exec_gencode u, ?_⟩
  rw [State.succeed_code, State.succeed_code]
  show (if s.tv then codesOf s.node s.root else _) = if u.tv then codesOf u.node u.root else _
  rw [← htv, ← hroot]
  by_cases hs : s.tv = true
  · obtain ⟨hshape, hrootVal⟩ := htree.shape hs
    obtain ⟨hk, -⟩ := hshape.size
    rw [htree.nodecnt hs] at hnode
    rw [codesOf_congr hshape.downward hnode (by omega)]
  · rw [if_neg hs, if_neg hs]

end Sys2Proof.Machine
end

section
/-! PROOFS. Two runs side by side: when pieces of work, loops and commands of two states end the same way. -/

namespace Sys2Proof.Machine

/-- Two pieces of work end the same way: both go on, in states that `R` relates, or both raise the same error with the
same ERRINFO, in states that `Q` relates. -/
inductive Run.agree {σ : Type} (R : σ → σ → Prop) (Q : State → State → Prop) : Run σ → Run σ → Prop
  | ok {s u : σ} (h : R s u) : Run.agree R Q (.ok s) (.ok u)
  | raised {s u : State} (h : Q s u) (e : ErrorKind) (info : Word) : Run.agree R Q (.raised s e info) (.raised u e info)

theorem Run.agree.andThen {σ τ : Type} {R : σ → σ → Prop} {R' : τ → τ → Prop} {Q : State → State → Prop}
    {r r' : Run σ} {f f' : σ → Run τ} (h : r.agree R Q r') (hf : ∀ s u, R s u → (f s).agree R' Q (f' u)) :
    (r.andThen f).agree R' Q (r'.andThen f') := by
  cases h with
  | ok h => exact hf _ _ h
  | raised h e info => exact .raised h e info

/-- The rule of two loops: what every round keeps between them, the loops keep. -/
theorem forRange_agree {σ : Type} {body : Nat → σ → Run σ} {R : Nat → σ → σ → Prop} {Q : State → State → Prop} {n : Nat}
    {s u : σ} (h0 : R 0 s u) (hbody : ∀ i w x, i < n → R i w x → (body i w).agree (R (i + 1)) Q (body i x)) :
    (forRange body n s).agree (R n) Q (forRange body n u) := by
  induction n with
  | zero => exact .ok h0
  | succ n ih =>
    exact (ih fun i w x hi => hbody i w x (Nat.lt_succ_of_lt hi)).andThen fun w x => hbody n w x (Nat.lt_succ_self n)

/-- Commands whose work agrees leave equal RESULT and ERRINFO, each on the state its work left (R120, R211). -/
theorem Run.agree.settle {Q : State → State → Prop} {r r' : Run State} (h : r.agree Q Q r') :
    ∃ t v w x, r.settle = .next t ∧ r'.settle = .next v ∧ t.result = v.result ∧ t.errinfo = v.errinfo ∧
      Q w x ∧ w.endsAs t ∧ x.endsAs v := by
  cases h with
  | ok h => exact ⟨_, _, _, _, rfl, rfl, rfl, rfl, h, .inl rfl, .inl rfl⟩
  | raised h e info => exact ⟨_, _, _, _, rfl, rfl, rfl, rfl, h, .inr ⟨e, info, rfl⟩, .inr ⟨e, info, rfl⟩⟩

end Sys2Proof.Machine
end

section
/-! PROOFS. ENCODE: the errors that end it, the empty input, and what the payload depends on. -/

namespace Sys2Proof.Machine

/-! ### A round, once the codes of the symbols before have been packed (R171) -/

/-- Packing keeps the input and the code table, so a round looks up what the command began with. -/
theorem State.hasPacked.code_at {s w : State} {cs : List Byte} (h : s.hasPacked w cs) (i : Nat) :
    w.code.at (w.symByte i) = s.code.at (s.symByte i) := by
  have ⟨hframe, _⟩ := h
  rw [hframe]
  rfl

theorem State.hasPacked.caps {s w : State} {cs : List Byte} (h : s.hasPacked w cs) : w.caps = s.caps := by
  have ⟨hframe, _⟩ := h
  rw [hframe]

theorem State.codesOf_snoc {s : State} {c : Byte} {p : BitString} (hc : s.code.at c = some p) (cs : List Byte) :
    s.codesOf (cs ++ [c]) = s.codesOf cs ++ p := by
  simp [State.codesOf, State.codeBits, hc]

/-- A symbol without a code raises MissingCodeError (R171, R203). -/
theorem encSymStep_of_none {s w : State} {cs : List Byte} {i : Nat} (h : s.hasPacked w cs)
    (hc : s.code.at (s.symByte i) = none) : encSymStep i w = .raised w .missingCode (BitVec.ofNat 32 i) := by
  rw [encSymStep, h.code_at, hc]

/-- A code that passes the capacity raises CapacityError, with no bit of it packed (R171, R206). -/
theorem encSymStep_of_full {s w : State} {cs : List Byte} {i : Nat} {p : BitString} (h : s.hasPacked w cs)
    (hc : s.code.at (s.symByte i) = some p) (hfull : s.caps.payloadBits < (s.codesOf cs).length + p.length) :
    encSymStep i w = .raised w .capacity (BitVec.ofNat 32 i) := by
  have ⟨_, hlen, _⟩ := h
  simp only [encSymStep, h.code_at, hc, h.caps, hlen, if_pos hfull]

/-- A code that fits is packed (R171, R172). -/
theorem encSymStep_of_fits {s w : State} {cs : List Byte} {i : Nat} {p : BitString} (h : s.hasPacked w cs)
    (hc : s.code.at (s.symByte i) = some p) (hfit : ¬ s.caps.payloadBits < (s.codesOf cs).length + p.length) :
    encSymStep i w = .ok (p.foldl packBit w) := by
  have ⟨_, hlen, _⟩ := h
  simp only [encSymStep, h.code_at, hc, h.caps, hlen, if_neg hfit]

/-! ### The errors that end the loop (R203, R206) -/

/-- An ENCODE whose first `i` symbols fit and whose round `i` raises: the codes packed so far stay, and the error is
entered (R173, R211). -/
theorem exec_encode_stops {s : State} {i : Nat} {e : ErrorKind} (hcaps : s.capsOk)
    (hsym : s.symlen.toNat ≤ s.caps.symCap) (hi : i < s.symlen.toNat)
    (hcodes : ∀ j, j < i → (s.code.at (s.symByte j)).isSome = true)
    (hfit : (s.codesOf (s.input.take i)).length ≤ 8 * s.caps.bitCap)
    (hraise : ∀ w, s.hasPacked w (s.input.take i) → encSymStep i w = .raised w e (BitVec.ofNat 32 i)) :
    ∃ t, exec .encode s = .next t ∧ t.payload = s.codesOf (s.input.take i) ∧
      t = { s with bitlen := BitVec.ofNat 32 (s.codesOf (s.input.take i)).length, bitbuf := t.bitbuf,
                   result := some e, esticky := s.esticky ||| e.stickyBit, errinfo := BitVec.ofNat 32 i } ∧
      ∀ a, bytesFor t.bitlen.toNat ≤ a → t.bitByte a = s.bitByte a := by
  obtain ⟨w, hw, hpacked⟩ := forRange_encSymStep s i (Nat.le_of_lt hi) hcodes hfit hcaps.payloadBits_le
  have hround : forRange encSymStep (i + 1) { s with bitlen := 0#32 } = .raised w e (BitVec.ofNat 32 i) := by
    rw [forRange_succ, hw, Run.andThen_ok, hraise w hpacked]
  obtain ⟨hframe, hlen, hpayload, -, habove⟩ := hpacked
  refine ⟨w.raise e (BitVec.ofNat 32 i), ?_, hpayload, ?_, habove⟩
  · rw [exec_encode_of_le hsym, forRange_raised_mono hround hi, Run.settle_raised]
  · rw [← hlen, BitVec.ofNat_toNat, BitVec.setWidth_eq, hframe]
    rfl

/-- Settles O32: round `i` finds no code and raises before it packs a bit. -/
theorem encodeStopsAtMissingCode : Obligations.EncodeStopsAtMissingCode := fun _ _ hcaps hsym hi hcodes hnone hfit =>
  exec_encode_stops hcaps hsym hi hcodes hfit fun _ hw => encSymStep_of_none hw hnone

/-- Settles O33: the code of symbol `i` would pass the capacity, so round `i` raises before it packs a bit. -/
theorem encodeStopsAtFullBuffer : Obligations.EncodeStopsAtFullBuffer := by
  intro s i hcaps hsym hi hcodes hfit hfull
  obtain ⟨p, hcode⟩ := Option.isSome_iff_exists.mp (hcodes i (Nat.le_refl i))
  rw [s.input_take_succ hi, State.codesOf_snoc hcode, List.length_append] at hfull
  exact exec_encode_stops hcaps hsym hi (fun j hj => hcodes j (Nat.le_of_lt hj)) hfit
    fun _ hw => encSymStep_of_full hw hcode hfull

/-! ### The empty input (R174) -/

/-- Settles O34: the loop has no round, so BITLEN is all that the work writes. -/
theorem encodeOfEmptyInput : Obligations.EncodeOfEmptyInput := by
  intro s h
  have hzero : s.symlen.toNat = 0 := by rw [h]; rfl
  rw [exec_encode_of_le (by omega), hzero, forRange_zero, Run.settle_ok]
  rfl

/-! ### What the payload depends on (R176) -/

theorem State.codesOf_congr {s u : State} (h : s.code = u.code) (cs : List Byte) : s.codesOf cs = u.codesOf cs := by
  have hbits : s.codeBits = u.codeBits := funext fun c => by rw [State.codeBits, State.codeBits, h]
  rw [State.codesOf, State.codesOf, hbits]

/-- `w` and `x` are states in which an ENCODE begun in `s` and one begun in `u` have packed the same symbols. -/
def State.packedAlike (s u w x : State) : Prop := ∃ cs, s.hasPacked w cs ∧ u.hasPacked x cs

/-- A round of two such runs ends the same way: the code of the symbol and the bits packed so far decide it (R171). -/
theorem encSymStep_agree {s u w x : State} {i : Nat} (hcaps : s.capsOk) (hcap : s.caps = u.caps) (hcode : s.code = u.code)
    (hbyte : s.symByte i = u.symByte i) (h : s.packedAlike u w x) :
    (encSymStep i w).agree (s.packedAlike u) (s.packedAlike u) (encSymStep i x) := by
  have ⟨cs, hw, hx⟩ := h
  have hat : u.code.at (u.symByte i) = s.code.at (s.symByte i) := by rw [hcode, hbyte]
  have hlen : u.codesOf cs = s.codesOf cs := (State.codesOf_congr hcode cs).symm
  cases hc : s.code.at (s.symByte i) with
  | none =>
    rw [encSymStep_of_none hw hc, encSymStep_of_none hx (hat.trans hc)]
    exact .raised h _ _
  | some p =>
    by_cases hfull : s.caps.payloadBits < (s.codesOf cs).length + p.length
    · rw [encSymStep_of_full hw hc hfull, encSymStep_of_full hx (hat.trans hc) (by rwa [← hcap, hlen])]
      exact .raised h _ _
    · rw [encSymStep_of_fits hw hc hfull, encSymStep_of_fits hx (hat.trans hc) (by rwa [← hcap, hlen])]
      have hbound := hcaps.payloadBits_le
      have hlt : (s.codesOf cs).length + p.length < 2 ^ 32 := by omega
      exact .ok ⟨cs ++ [s.symByte i], State.hasPacked_snoc hw hc hlt,
        State.hasPacked_snoc hx (by rw [← hcode, hc]) (by rwa [hlen])⟩

/-- Equal payloads with zero padding are equal bytes (R75). -/
theorem bitByte_eq_of_payload_eq {w x : State} (hpayload : w.payload = x.payload) (hw : w.padded) (hx : x.padded) {a : Nat}
    (ha : a < bytesFor w.bitlen.toNat) : w.bitByte a = x.bitByte a := by
  have hlen : w.bitlen.toNat = x.bitlen.toNat := by rw [← w.payload_length, hpayload, x.payload_length]
  have hbit : ∀ n, n < 8 * bytesFor w.bitlen.toNat → w.getBit n = x.getBit n := by
    intro n hn
    by_cases hin : n < w.bitlen.toNat
    · have hget : w.payload[n]? = x.payload[n]? := by rw [hpayload]
      simpa [State.payload, hin, ← hlen] using hget
    · rw [hw n (by omega) hn, hx n (by omega) (by rwa [← hlen])]
  refine BitVec.eq_of_getLsbD_eq fun k hk => ?_
  have := hbit (8 * a + (7 - k)) (by omega)
  simpa only [State.getBit, payloadByte, payloadBit, show (8 * a + (7 - k)) / 8 = a by omega,
    show 7 - (8 * a + (7 - k)) % 8 = k by omega] using this

/-- States that have packed the same symbols with the same codes hold the same payload bytes. -/
theorem State.packedAlike.payload_eq {s u w x : State} (hcode : s.code = u.code) (h : s.packedAlike u w x) :
    w.bitlen = x.bitlen ∧ ∀ a, a < bytesFor w.bitlen.toNat → w.bitByte a = x.bitByte a := by
  obtain ⟨cs, ⟨-, hwlen, hwbits, hwpad, -⟩, ⟨-, hxlen, hxbits, hxpad, -⟩⟩ := h
  rw [← State.codesOf_congr hcode] at hxlen hxbits
  exact ⟨BitVec.eq_of_toNat_eq (hwlen.trans hxlen.symm),
    fun _ => bitByte_eq_of_payload_eq (hwbits.trans hxbits.symm) hwpad hxpad⟩

/-- Settles O35: the two loops keep step, so they end the same way with the same symbols packed. -/
theorem encodeDependsOnInputAndCode : Obligations.EncodeDependsOnInputAndCode := by
  intro s u hcaps hcap hsymlen hsym hcode hbytes
  have hloops : (forRange encSymStep s.symlen.toNat { s with bitlen := 0#32 }).agree (s.packedAlike u)
      (s.packedAlike u) (forRange encSymStep s.symlen.toNat { u with bitlen := 0#32 }) :=
    forRange_agree (R := fun _ => s.packedAlike u) ⟨[], s.hasPacked_nil, u.hasPacked_nil⟩
      fun i _ _ hi h => encSymStep_agree hcaps hcap hcode (hbytes i hi) h
  obtain ⟨t, v, w, x, ht, hv, hresult, herrinfo, hwx, hwt, hxv⟩ := hloops.settle
  obtain ⟨hbitlen, hbits⟩ := hwx.payload_eq hcode
  obtain ⟨htlen, -, htbyte, -⟩ := hwt.buffers
  obtain ⟨hvlen, -, hvbyte, -⟩ := hxv.buffers
  refine ⟨t, v, by rw [exec_encode_of_le hsym, ht], ?_, hresult, herrinfo, by rw [htlen, hbitlen, hvlen], ?_⟩
  · rw [hsymlen] at hv
    rw [exec_encode_of_le (by rwa [← hsymlen, ← hcap]), hv]
  · rwa [htlen, htbyte, hvbyte]

end Sys2Proof.Machine
end

section
/-! PROOFS. DECODE from its start to its end: the prechecks, the loop over a payload that spells symbols, and each way it
ends. -/

namespace Sys2Proof.Machine

/-! ### The prechecks (R185) -/

theorem State.bitTooLong_iff (s : State) : s.bitTooLong = true ↔ 8 * s.caps.bitCap < s.bitlen.toNat := decide_eq_true_iff

/-- With a tree and BITLEN within its capacity DECODE is its body (R185). -/
theorem exec_decode_of_le {s : State} (htv : s.tv = true) (hbit : s.bitlen.toNat ≤ 8 * s.caps.bitCap) :
    exec .decode s = (decodeBody s).settle := by
  show execDecode s = _
  rw [execDecode, if_pos htv, if_neg (mt s.bitTooLong_iff.mp (Nat.not_lt.mpr hbit))]

/-- Settles O37: the second precheck enters CapacityError, whose sticky bit is bit 5, before any work. -/
theorem bitlenAboveCapacityFails : Obligations.BitlenAboveCapacityFails := by
  intro s htv hbit
  show execDecode s = _
  rw [execDecode, if_pos htv, if_pos (s.bitTooLong_iff.mpr hbit), Run.settle_raised]
  rfl

/-! ### What the loop leaves alone (R191) -/

namespace State.hasDecoded

variable {s w : State} {cs : List Byte}

theorem node_eq (h : s.hasDecoded w cs) : w.node = s.node := by
  have ⟨hframe, _⟩ := h
  rw [hframe]

theorem root_eq (h : s.hasDecoded w cs) : w.root = s.root := by
  have ⟨hframe, _⟩ := h
  rw [hframe]

theorem caps_eq (h : s.hasDecoded w cs) : w.caps = s.caps := by
  have ⟨hframe, _⟩ := h
  rw [hframe]

theorem bitlen_eq (h : s.hasDecoded w cs) : w.bitlen = s.bitlen := by
  have ⟨hframe, _⟩ := h
  rw [hframe]

theorem getBit_eq (h : s.hasDecoded w cs) (b : Nat) : w.getBit b = s.getBit b := by
  have ⟨hframe, _⟩ := h
  rw [hframe]
  rfl

theorem outlen_eq (h : s.hasDecoded w cs) : w.outlen.toNat = cs.length := by
  have ⟨_, hlen, _⟩ := h
  exact hlen

theorem output_eq (h : s.hasDecoded w cs) : w.output = cs := by
  have ⟨_, _, hout, _⟩ := h
  exact hout

theorem bitsAt (h : s.hasDecoded w cs) {b : Nat} {p : BitString} (hp : s.bitsAt b p) : w.bitsAt b p :=
  fun n v hv => (h.getBit_eq _).trans (hp n v hv)

/-- OUTLEN counts the symbols emitted. -/
theorem frame (h : s.hasDecoded w cs) :
    w = { s with outlen := BitVec.ofNat 32 cs.length, outbuf := w.outbuf } := by
  have ⟨hframe, hlen, _⟩ := h
  rw [← hlen, BitVec.ofNat_toNat, BitVec.setWidth_eq]
  exact hframe

end State.hasDecoded

/-! ### A round, once the symbols before have been decoded (R187 to R189) -/

section
variable {s : State} {w : Walker} {cs : List Byte} {b : Nat}

theorem decBitStep_to_internal (h : s.hasDecoded w.st cs) {f f' : NodeFreq} {l r l' r' : NodeIx}
    (hc : s.node.at w.cur = .internal f l r) (hn : s.node.at (if s.getBit b then r else l) = .internal f' l' r') :
    decBitStep b w = .ok { w with cur := if s.getBit b then r else l } := by
  simp [decBitStep, h.node_eq, h.getBit_eq, hc, hn]

theorem decBitStep_to_leaf (h : s.hasDecoded w.st cs) {f f' : NodeFreq} {l r : NodeIx} {t : Byte}
    (hc : s.node.at w.cur = .internal f l r) (hn : s.node.at (if s.getBit b then r else l) = .leaf t f') :
    decBitStep b w =
      (Walker.emit { w with cur := if s.getBit b then r else l } t b).andThen (fun v => .ok v.toRoot) := by
  simp [decBitStep, h.node_eq, h.getBit_eq, hc, hn]

theorem decBitStep_at_leaf (h : s.hasDecoded w.st cs) {f : NodeFreq} {t : Byte} (hc : s.node.at w.cur = .leaf t f) :
    decBitStep b w =
      if s.getBit b then w.stop .malformedStream (BitVec.ofNat 32 b) else w.emit t b := by
  simp [decBitStep, h.node_eq, h.getBit_eq, hc]

end

/-! ### The ends of DECODE -/

/-- The walker at the start of the loop (R185). -/
def State.walker (s : State) : Walker := { cur := s.root, st := { s with outlen := 0#32 } }

theorem decodeBody_eq (s : State) :
    decodeBody s = (forRange decBitStep s.bitlen.toNat s.walker).andThen Walker.finish := rfl

/-- A DECODE whose body completes with the cursor at `j`, the symbols `cs` emitted (R120, R191). -/
theorem exec_decode_completes {s w : State} {cs : List Byte} {j : NodeIx} (htv : s.tv = true)
    (hbit : s.bitlen.toNat ≤ 8 * s.caps.bitCap) (hw : s.hasDecoded w cs)
    (hbody : decodeBody s = .ok { w with cursor := j }) :
    ∃ t, exec .decode s = .next t ∧ t.output = cs ∧
      t = { s with outlen := BitVec.ofNat 32 cs.length, outbuf := t.outbuf, cursor := j, result := none,
                   errinfo := 0#32 } ∧
      ∀ a, cs.length ≤ a → t.outByte a = s.outByte a := by
  have ⟨_, _, hout, habove⟩ := hw
  refine ⟨({ w with cursor := j } : State).succeed, ?_, hout, ?_, habove⟩
  · rw [exec_decode_of_le htv hbit, hbody, Run.settle_ok]
  · rw [hw.frame]
    rfl

/-- A DECODE whose body raises with the cursor at `j`, the symbols `cs` emitted (R185, R191, R211). -/
theorem exec_decode_raises {s w : State} {cs : List Byte} {j : NodeIx} {e : ErrorKind} {info : Word} (htv : s.tv = true)
    (hbit : s.bitlen.toNat ≤ 8 * s.caps.bitCap) (hw : s.hasDecoded w cs)
    (hbody : decodeBody s = .raised { w with cursor := j } e info) :
    ∃ t, exec .decode s = .next t ∧ t.output = cs ∧
      t = { s with outlen := BitVec.ofNat 32 cs.length, outbuf := t.outbuf, cursor := j, result := some e,
                   esticky := s.esticky ||| e.stickyBit, errinfo := info } ∧
      ∀ a, cs.length ≤ a → t.outByte a = s.outByte a := by
  have ⟨_, _, hout, habove⟩ := hw
  refine ⟨({ w with cursor := j } : State).raise e info, ?_, hout, ?_, habove⟩
  · rw [exec_decode_of_le htv hbit, hbody, Run.settle_raised]
  · rw [hw.frame]
    rfl

/-- An error raised within the payload ends the body (R11). -/
theorem decodeBody_of_raised {s t : State} {n : Nat} {e : ErrorKind} {info : Word}
    (h : forRange decBitStep n s.walker = .raised t e info) (hn : n ≤ s.bitlen.toNat) :
    decodeBody s = .raised t e info := by
  rw [decodeBody_eq, forRange_raised_mono h hn, Run.andThen_raised]

/-- The loop over the first bits of the payload, when they are the codes of `cs`: those symbols are emitted, the cursor is at
the root, and the other bits are still to come (R187, R188). -/
theorem decodeLoop_spelled {s : State} {cs : List Byte} {p q : BitString} (hcaps : s.capsOk) (hpayload : s.payload = p ++ q)
    (hsp : spells s.node s.root cs p) (hroom : cs.length ≤ s.caps.outCap) :
    ∃ w, forRange decBitStep p.length s.walker = .ok w ∧ s.hasDecoded w.st cs ∧ w.cur = s.root ∧
      s.bitsAt p.length q := by
  obtain ⟨-, -, hout⟩ := hcaps.lt
  obtain ⟨hp, hq⟩ := State.bitsAt_append.mp (State.bitsAt_payload hpayload)
  obtain ⟨w, hw, hdec, hcur⟩ := forRange_decBitStep_spells (b := 0) (w0 := s.walker) rfl s.hasDecoded_nil rfl hp hsp
    (by rwa [List.length_nil, Nat.zero_add]) (by omega)
  rw [Nat.zero_add] at hw hq
  exact ⟨w, hw, hdec, hcur, hq⟩

/-! ### A payload of whole codes -/

/-- Settles O38: the loop emits the symbols and returns to the root, where the body completes. -/
theorem decodeEmitsSpelledSymbols : Obligations.DecodeEmitsSpelledSymbols := by
  intro s cs hcaps htv _ hbit hsp hroom
  obtain ⟨w, hw, hdec, hcur, -⟩ := decodeLoop_spelled hcaps (s.payload.append_nil).symm hsp hroom
  rw [s.payload_length] at hw
  refine exec_decode_completes htv hbit hdec ?_
  rw [decodeBody_eq, hw, Run.andThen_ok, Walker.finish, if_pos (hcur.trans hdec.root_eq.symm), hcur]

/-! ### A payload that ends inside a code -/

/-- A path from the root of a tree back to the root is empty (R42 c). -/
theorem TreeShape.path_to_root {a : Arena} {k : Nat} (h : TreeShape a k) {root : NodeIx} (hroot : root.val = 2 * k - 2)
    {q : BitString} (hq : descend a root q = some root) : q = [] :=
  h.path_unique hroot q [] root hq rfl

/-- Settles O40: after the codes of `cs` the walk ends at an internal node below the root, which the body refuses. -/
theorem decodeEndingMidCodeFails : Obligations.DecodeEndingMidCodeFails := by
  intro s cs p q j hcaps htv htree hbit _ hroom hpayload hsp hq hj hji
  obtain ⟨hshape, hroot⟩ := htree.shape htv
  obtain ⟨w, hw, hdec, hcur, hbits⟩ := decodeLoop_spelled hcaps hpayload hsp hroom
  have hwalk := forRange_decBitStep_descend hw (hdec.bitsAt hbits) (by rwa [hdec.node_eq, hcur]) (by rwa [hdec.node_eq])
  rw [← List.length_append, ← hpayload, s.payload_length] at hwalk
  have hne : j ≠ w.st.root := by
    rw [hdec.root_eq]
    rintro rfl
    exact hq (hshape.path_to_root hroot hj)
  refine exec_decode_raises htv hbit hdec ?_
  rw [decodeBody_eq, hwalk, Run.andThen_ok, Walker.finish, if_neg hne]
  exact congrArg (Run.raised _ _) hdec.bitlen_eq

/-! ### A 1 at a lone leaf -/

/-- At a lone leaf every 0 is the code of its symbol (R162, R188). -/
theorem spells_replicate {a : Arena} {root : NodeIx} {c : Byte} {f : NodeFreq} (h : a.at root = .leaf c f) (n : Nat) :
    spells a root (List.replicate n c) (List.replicate n false) := by
  induction n with
  | zero => rfl
  | succ n ih => exact ⟨[false], List.replicate n false, rfl, by rw [codeword, h]; exact ⟨rfl, rfl⟩, ih⟩

/-- The payload is its first `n` bits, bit `n`, and the others (R75). -/
theorem State.payload_split (s : State) {n : Nat} (h : n < s.bitlen.toNat) :
    s.payload = (List.range n).map s.getBit ++ s.getBit n :: s.payload.drop (n + 1) := by
  have hn : n < s.payload.length := by rwa [s.payload_length]
  have htake : s.payload.take n = (List.range n).map s.getBit := by
    rw [State.payload, ← List.map_take, List.take_range, Nat.min_eq_left (Nat.le_of_lt h)]
  have hget : s.payload[n] = s.getBit n := by simp [State.payload]
  rw [← htake, ← hget, ← List.drop_eq_getElem_cons hn, List.take_append_drop]

/-- Settles O41: the zeros are the codes of the lone symbol, and round `b` refuses the 1 at the leaf. -/
theorem decodeLoneLeafRejectsOne : Obligations.DecodeLoneLeafRejectsOne := by
  intro s c f b hcaps htv hbit hleaf hb hroom hzeros hone
  have hmap : (List.range b).map s.getBit = List.replicate b false :=
    List.eq_replicate_iff.mpr ⟨by simp, by simpa using hzeros⟩
  have hpayload := s.payload_split hb
  rw [hmap] at hpayload
  obtain ⟨w, hw, hdec, hcur, -⟩ :=
    decodeLoop_spelled hcaps hpayload (spells_replicate hleaf b) (by rwa [List.length_replicate])
  rw [List.length_replicate] at hw
  have hround : forRange decBitStep (b + 1) s.walker =
      .raised { w.st with cursor := s.root } .malformedStream (BitVec.ofNat 32 b) := by
    rw [forRange_succ, hw, Run.andThen_ok, decBitStep_at_leaf hdec (hcur ▸ hleaf), if_pos hone, Walker.stop, hcur]
  have h := exec_decode_raises htv hbit hdec (decodeBody_of_raised hround hb)
  rwa [List.length_replicate] at h

/-! ### The output full -/

/-- One code more with the output full: CapacityError at its last bit, with the cursor at its leaf, or at the root for a lone
leaf (R189). -/
theorem forRange_decBitStep_codeword_full {s : State} {w0 w : Walker} {b : Nat} {cs : List Byte} {c : Byte} {q : BitString}
    (hw : forRange decBitStep b w0 = .ok w) (hdec : s.hasDecoded w.st cs) (hcur : w.cur = s.root) (hbits : s.bitsAt b q)
    (hc : codeword s.node s.root c q) (hfull : cs.length = s.caps.outCap) :
    ∃ j, (internalRoot s.node s.root → descend s.node s.root q = some j) ∧ (¬ internalRoot s.node s.root → j = s.root) ∧
      forRange decBitStep (b + q.length) w0 =
        .raised { w.st with cursor := j } .capacity (BitVec.ofNat 32 (b + q.length - 1)) := by
  have hout : w.st.outlen.toNat = w.st.caps.outCap := by rw [hdec.outlen_eq, hdec.caps_eq, hfull]
  cases hr : s.node.at s.root with
  | leaf d f =>
    have hnot : ¬ internalRoot s.node s.root := by
      rintro ⟨_, _, _, hi⟩
      rw [hr] at hi
      cases hi
    simp only [codeword, hr] at hc
    obtain ⟨-, rfl⟩ := hc
    have hzero : s.getBit b = false := (State.bitsAt_cons.mp hbits).1
    refine ⟨s.root, fun hi => absurd hi hnot, fun _ => rfl, ?_⟩
    rw [List.length_singleton, forRange_succ, hw, Run.andThen_ok, decBitStep_at_leaf hdec (hcur ▸ hr), hzero,
      if_neg Bool.false_ne_true, Walker.emit, if_pos hout, Walker.stop, hcur]
    rfl
  | internal f l r =>
    have hi : internalRoot s.node s.root := ⟨f, l, r, hr⟩
    obtain ⟨j, g, hj, hleaf⟩ := (codeword_iff_leadsToLeaf hi c q).mp hc
    refine ⟨j, fun _ => hj, fun hn => absurd hi hn, ?_⟩
    exact forRange_decBitStep_full hw (hdec.bitsAt hbits) (by rwa [hdec.node_eq, hcur]) (by rwa [hdec.node_eq, hcur])
      (by rwa [hdec.node_eq]) hout

/-- Settles O42: OUT_CAP symbols are emitted, and the code of one more finds the output full. -/
theorem decodeStopsAtFullOutput : Obligations.DecodeStopsAtFullOutput := by
  intro s cs c p q r hcaps htv _ hbit hfull hpayload hsp hc
  rw [List.append_assoc] at hpayload
  obtain ⟨w, hw, hdec, hcur, hbits⟩ := decodeLoop_spelled hcaps hpayload hsp (Nat.le_of_eq hfull)
  obtain ⟨hbits, -⟩ := State.bitsAt_append.mp hbits
  obtain ⟨j, hinternal, hlone, hraised⟩ := forRange_decBitStep_codeword_full hw hdec hcur hbits hc hfull
  have hlen : p.length + q.length ≤ s.bitlen.toNat := by
    rw [← s.payload_length, hpayload, List.length_append, List.length_append]
    omega
  obtain ⟨t, ht, hout, hframe, habove⟩ := exec_decode_raises htv hbit hdec (decodeBody_of_raised hraised hlen)
  rw [hfull] at hframe
  exact ⟨t, j, ht, hout, hinternal, hlone, hframe, habove⟩

end Sys2Proof.Machine
end

section
/-! PROOFS. DECODE read backwards: at every bit the payload read so far is the codes of the symbols emitted and a path to the
cursor, so a DECODE that succeeds decoded whole codes. -/

namespace Sys2Proof.Machine

/-- One symbol more is spelled by its code. -/
theorem spells_snoc {a : Arena} {root : NodeIx} {cs : List Byte} {c : Byte} {p q : BitString} (hp : spells a root cs p)
    (hq : codeword a root c q) : spells a root (cs ++ [c]) (p ++ q) := by
  induction cs generalizing p with
  | nil =>
    obtain rfl : p = [] := hp
    exact ⟨q, [], (List.append_nil q).symm, hq, rfl⟩
  | cons d cs ih =>
    obtain ⟨r, p, rfl, hr, hp⟩ := hp
    exact ⟨r, p ++ q, List.append_assoc r p q, hr, ih hp⟩

/-- `w` has read `b` bits of the payload of `s`: first `p`, the codes of the symbols `cs` it emitted, then `q`, a path from the
root to its cursor, which is inside the tree (R187). -/
structure State.Reading (s : State) (b : Nat) (w : Walker) (cs : List Byte) (p q : BitString) : Prop where
  bits : s.payload.take b = p ++ q
  spelled : spells s.node s.root cs p
  decoded : s.hasDecoded w.st cs
  room : cs.length ≤ s.caps.outCap
  path : descend s.node s.root q = some w.cur
  inside : q = [] ∨ internalRoot s.node w.cur

/-- `w` has read `b` bits of the payload of `s`, whatever they are. -/
def State.hasRead (s : State) (b : Nat) (w : Walker) : Prop := ∃ cs p q, s.Reading b w cs p q

theorem State.hasRead_walker (s : State) : s.hasRead 0 s.walker :=
  ⟨[], [], [], ⟨rfl, rfl, s.hasDecoded_nil, Nat.zero_le _, rfl, .inl rfl⟩⟩

theorem State.payload_take_succ (s : State) {b : Nat} (h : b < s.bitlen.toNat) :
    s.payload.take (b + 1) = s.payload.take b ++ [s.getBit b] := by
  rw [List.take_succ_eq_append_getElem (by rwa [s.payload_length])]
  simp [State.payload]

namespace State.Reading

variable {s : State} {b : Nat} {w : Walker} {cs : List Byte} {p q : BitString}

theorem take_succ (h : s.Reading b w cs p q) (hb : b < s.bitlen.toNat) :
    s.payload.take (b + 1) = p ++ (q ++ [s.getBit b]) := by
  rw [s.payload_take_succ hb, h.bits, List.append_assoc]

/-- The walk goes on to an internal node. -/
theorem move (h : s.Reading b w cs p q) (hb : b < s.bitlen.toNat) {f : NodeFreq} {l r : NodeIx}
    (hc : s.node.at w.cur = .internal f l r) (hn : internalRoot s.node (if s.getBit b then r else l)) :
    s.hasRead (b + 1) { w with cur := if s.getBit b then r else l } :=
  ⟨cs, p, q ++ [s.getBit b], ⟨h.take_succ hb, h.spelled, h.decoded, h.room, descend_snoc _ h.path hc, .inr hn⟩⟩

/-- A code is complete, and its symbol is emitted with the cursor at the root. -/
theorem emitted (h : s.Reading b w cs p q) (hb : b < s.bitlen.toNat) (hcaps : s.capsOk) {t : Byte}
    (hcode : codeword s.node s.root t (q ++ [s.getBit b])) (hroom : w.st.outlen.toNat ≠ w.st.caps.outCap) :
    s.hasRead (b + 1) { w.emitted t with cur := s.root } := by
  obtain ⟨-, -, hout⟩ := hcaps.lt
  have hcap := h.room
  rw [h.decoded.outlen_eq, h.decoded.caps_eq] at hroom
  refine ⟨cs ++ [t], p ++ (q ++ [s.getBit b]), [], ⟨?_, spells_snoc h.spelled hcode,
    State.hasDecoded_snoc t h.decoded (by omega), ?_, rfl, .inl rfl⟩⟩
  · rw [h.take_succ hb, List.append_nil]
  · rw [List.length_append, List.length_singleton]
    omega

/-- With the cursor at an internal node the root is internal too. -/
theorem internalRoot (h : s.Reading b w cs p q) (hc : internalRoot s.node w.cur) : internalRoot s.node s.root := by
  cases hr : s.node.at s.root with
  | internal f l r => exact ⟨f, l, r, hr⟩
  | leaf c f =>
    obtain ⟨-, hcur⟩ := descend_from_leaf hr h.path
    rwa [hcur] at hc

/-- With the cursor at a leaf the path is empty: the tree is a lone leaf. -/
theorem path_eq_nil (h : s.Reading b w cs p q) {t : Byte} {f : NodeFreq} (hc : s.node.at w.cur = .leaf t f) :
    q = [] ∧ w.cur = s.root := by
  have hq : q = [] := h.inside.resolve_right fun ⟨_, _, _, hi⟩ => by
    rw [hc] at hi
    cases hi
  have hpath := h.path
  rw [hq] at hpath
  injection hpath with hcur
  exact ⟨hq, hcur.symm⟩

end State.Reading

/-- A round of DECODE that goes on has read one bit more (R187, R188). -/
theorem decBitStep_hasRead {s : State} {b : Nat} {w : Walker} (hcaps : s.capsOk) (hb : b < s.bitlen.toNat)
    (h : s.hasRead b w) : (decBitStep b w).sat (s.hasRead (b + 1)) fun _ => True := by
  obtain ⟨cs, p, q, h⟩ := h
  have hcases := decBitStep_cases b w
  rw [h.decoded.node_eq, h.decoded.getBit_eq] at hcases
  rcases hcases with ⟨_, _, _, f, l, r, hc, hn, e⟩ | ⟨_, _, _, _, _, -, -, -, e⟩ |
    ⟨f, l, r, t, g, hc, hn, hroom, e⟩ | ⟨_, _, -, -, e⟩ | ⟨_, _, -, -, -, e⟩ | ⟨t, g, hc, hzero, hroom, e⟩
  · exact e ▸ Run.sat_ok (h.move hb hc ⟨f, l, r, hn⟩)
  · exact e ▸ Run.sat_raised trivial
  · have hcode : codeword s.node s.root t (q ++ [s.getBit b]) :=
      (codeword_iff_leadsToLeaf (h.internalRoot ⟨f, l, r, hc⟩) _ _).mpr ⟨_, g, descend_snoc _ h.path hc, hn⟩
    rw [e, h.decoded.root_eq]
    exact Run.sat_ok (h.emitted hb hcaps hcode hroom)
  · exact e ▸ Run.sat_raised trivial
  · exact e ▸ Run.sat_raised trivial
  · obtain ⟨rfl, hcur⟩ := h.path_eq_nil hc
    have hcode : codeword s.node s.root t ([] ++ [s.getBit b]) := by
      rw [hzero, codeword, ← hcur, hc]
      exact ⟨rfl, rfl⟩
    have hnext := h.emitted hb hcaps hcode hroom
    rw [← hcur] at hnext
    exact e ▸ Run.sat_ok hnext

/-- A body of DECODE that completes has read the whole payload, with the cursor at the root, so nothing of a code is left. -/
theorem decodeBody_spelled {s : State} (hcaps : s.capsOk) (htv : s.tv = true) (htree : s.treeOk) :
    (decodeBody s).sat (fun u => spells s.node s.root u.output s.payload ∧ u.cursor = s.root) fun _ => True := by
  obtain ⟨hshape, hroot⟩ := htree.shape htv
  rw [decodeBody_eq]
  refine (forRange_sat s.hasRead_walker fun b w hb => decBitStep_hasRead hcaps hb).andThen ?_
  rintro w ⟨cs, p, q, h⟩
  rcases w.finish_cases with ⟨hcur, e⟩ | ⟨-, e⟩
  · rw [h.decoded.root_eq] at hcur
    have hq : q = [] := hshape.path_to_root hroot (hcur ▸ h.path)
    have hbits := h.bits
    rw [← s.payload_length, List.take_length, hq, List.append_nil] at hbits
    refine e ▸ Run.sat_ok ⟨?_, hcur⟩
    rw [hbits]
    exact h.decoded.output_eq ▸ h.spelled
  · exact e ▸ Run.sat_raised trivial

/-- Settles O39: RESULT is 0 exactly when the body completes, and then it has read whole codes. -/
theorem decodeSuccessIsSpelled : Obligations.DecodeSuccessIsSpelled := by
  intro s hcaps htv htree hbit
  have hspelled := decodeBody_spelled hcaps htv htree
  rw [exec_decode_of_le htv hbit]
  cases hbody : decodeBody s with
  | ok u =>
    rw [hbody] at hspelled
    exact ⟨_, Run.settle_ok u, fun _ => hspelled⟩
  | raised u e info => exact ⟨_, Run.settle_raised u e info, nofun⟩

end Sys2Proof.Machine
end

section
/-! PROOFS. Two runs of DECODE side by side, on equal trees and equal payloads. -/

namespace Sys2Proof.Machine

/-! ### Two walkers -/

/-- Two states agree on what DECODE writes: CURSOR, OUTLEN and the decoded sequence (R194). -/
def State.sameOutput (s u : State) : Prop := s.cursor = u.cursor ∧ s.outlen = u.outlen ∧ s.output = u.output

theorem State.endsAs.sameOutput {u t : State} (h : u.endsAs t) : u.sameOutput t := by
  rcases h with rfl | ⟨e, info, rfl⟩ <;> exact ⟨rfl, rfl, rfl⟩

/-- `w` and `x` are walkers at the same node below `n` of a DECODE begun in `s` and of one begun in `u`, which have emitted
the same symbols. -/
def State.walkAlike (s u : State) (n : Nat) (w x : Walker) : Prop :=
  w.cur = x.cur ∧ w.cur.val < n ∧ ∃ cs, cs.length ≤ s.caps.outCap ∧ s.hasDecoded w.st cs ∧ u.hasDecoded x.st cs

namespace State.walkAlike

variable {s u : State} {n : Nat} {w x : Walker}

theorem moved (h : s.walkAlike u n w x) {j : NodeIx} (hj : j.val < n) :
    s.walkAlike u n { w with cur := j } { x with cur := j } := by
  obtain ⟨-, -, hdec⟩ := h
  exact ⟨rfl, hj, hdec⟩

/-- What the two leave when the cursor is recorded (R185). -/
theorem sameOutput (h : s.walkAlike u n w x) :
    State.sameOutput { w.st with cursor := w.cur } { x.st with cursor := x.cur } := by
  obtain ⟨hcur, -, cs, -, hw, hx⟩ := h
  exact ⟨hcur, BitVec.eq_of_toNat_eq (hw.outlen_eq.trans hx.outlen_eq.symm), hw.output_eq.trans hx.output_eq.symm⟩

theorem stop (h : s.walkAlike u n w x) (e : ErrorKind) (info : Word) :
    (w.stop e info).agree (s.walkAlike u n) State.sameOutput (x.stop e info) :=
  .raised h.sameOutput e info

/-- Both find the output full, or both emit the symbol (R189). -/
theorem emit (h : s.walkAlike u n w x) (hcaps : s.capsOk) (hcap : s.caps = u.caps) (t : Byte) (b : Nat) :
    (w.emit t b).agree (s.walkAlike u n) State.sameOutput (x.emit t b) := by
  have ⟨hcur, hlt, cs, hroom, hw, hx⟩ := h
  obtain ⟨-, -, hout⟩ := hcaps.lt
  have hwfull : w.st.outlen.toNat = w.st.caps.outCap ↔ cs.length = s.caps.outCap := by rw [hw.outlen_eq, hw.caps_eq]
  have hxfull : x.st.outlen.toNat = x.st.caps.outCap ↔ cs.length = s.caps.outCap := by rw [hx.outlen_eq, hx.caps_eq, hcap]
  by_cases hfull : cs.length = s.caps.outCap
  · rw [Walker.emit, if_pos (hwfull.mpr hfull), Walker.emit, if_pos (hxfull.mpr hfull)]
    exact h.stop _ _
  · rw [Walker.emit, if_neg (mt hwfull.mp hfull), Walker.emit, if_neg (mt hxfull.mp hfull)]
    refine .ok ⟨hcur, hlt, cs ++ [t], ?_, State.hasDecoded_snoc t hw (by omega), State.hasDecoded_snoc t hx (by omega)⟩
    rw [List.length_append, List.length_singleton]
    omega

theorem toRoot (h : s.walkAlike u n w x) (hroot : s.root = u.root) (hlt : s.root.val < n) :
    s.walkAlike u n w.toRoot x.toRoot := by
  have ⟨_, _, cs, _, hw, hx⟩ := h
  rw [Walker.toRoot, Walker.toRoot, hw.root_eq, hx.root_eq, ← hroot]
  exact h.moved hlt

/-- A round of two such walkers ends the same way: the records of the tree and the bit decide it (R187, R188). -/
theorem round (h : s.walkAlike u n w x) (hcaps : s.capsOk) (hcap : s.caps = u.caps) (hroot : s.root = u.root)
    (hlt : s.root.val < n) (hdown : s.node.downward n) (hnode : s.node.agreesBelow u.node n) {b : Nat}
    (hbit : s.getBit b = u.getBit b) :
    (decBitStep b w).agree (s.walkAlike u n) State.sameOutput (decBitStep b x) := by
  have ⟨hcur, hwlt, cs, _, hw, hx⟩ := h
  cases hc : s.node.at w.cur with
  | internal f l r =>
    have hcx : u.node.at x.cur = .internal f l r := by rw [← hcur, ← hnode.at_eq hwlt, hc]
    have hnlt : (if s.getBit b then r else l).val < n := by
      obtain ⟨hl, hr⟩ := hdown w.cur hwlt f l r hc
      split <;> omega
    have hnx : u.node.at (if u.getBit b then r else l) = s.node.at (if s.getBit b then r else l) := by
      rw [← hbit, hnode.at_eq hnlt]
    cases hn : s.node.at (if s.getBit b then r else l) with
    | internal f' l' r' =>
      rw [decBitStep_to_internal hw hc hn, decBitStep_to_internal hx hcx (hnx.trans hn), ← hbit]
      exact .ok (h.moved hnlt)
    | leaf t f' =>
      rw [decBitStep_to_leaf hw hc hn, decBitStep_to_leaf hx hcx (hnx.trans hn), ← hbit]
      exact ((h.moved hnlt).emit hcaps hcap t b).andThen fun _ _ hv => .ok (hv.toRoot hroot hlt)
  | leaf t f =>
    have hcx : u.node.at x.cur = .leaf t f := by rw [← hcur, ← hnode.at_eq hwlt, hc]
    rw [decBitStep_at_leaf hw hc, decBitStep_at_leaf hx hcx, ← hbit]
    split
    · exact h.stop _ _
    · exact h.emit hcaps hcap t b

/-- The two end the body the same way (R190). -/
theorem finish (h : s.walkAlike u n w x) (hroot : s.root = u.root) (hbitlen : s.bitlen = u.bitlen) :
    w.finish.agree State.sameOutput State.sameOutput x.finish := by
  have ⟨hcur, _, cs, _, hw, hx⟩ := h
  rw [Walker.finish, Walker.finish, hw.root_eq, hx.root_eq, hw.bitlen_eq, hx.bitlen_eq, ← hroot, ← hbitlen, hcur]
  have hout := h.sameOutput
  rw [hcur] at hout
  split
  · exact .ok hout
  · exact .raised hout _ _

end State.walkAlike

/-- Equal payloads have equal bits (R75). -/
theorem getBit_eq_of_payload_eq {s u : State} (h : s.payload = u.payload) {b : Nat} (hb : b < s.bitlen.toNat) :
    s.getBit b = u.getBit b := by
  have hu := State.bitsAt_payload h.symm b (s.getBit b) (by simp [State.payload, hb])
  rw [Nat.zero_add] at hu
  exact hu.symm

/-- Settles O44: the two loops keep step, so they end the same way with the same symbols emitted. -/
theorem decodeDependsOnTreeAndPayload : Obligations.DecodeDependsOnTreeAndPayload := by
  intro s u hcaps hcap htv hutv htree _ hroot hcnt hnode hbitlen hbit hpayload
  obtain ⟨hshape, hrootVal⟩ := htree.shape htv
  obtain ⟨hk, -⟩ := hshape.size
  rw [htree.nodecnt htv] at hnode
  have hlt : s.root.val < 2 * s.nsym.toNat - 1 := by omega
  have hloops : (forRange decBitStep s.bitlen.toNat s.walker).agree (s.walkAlike u (2 * s.nsym.toNat - 1))
      State.sameOutput (forRange decBitStep s.bitlen.toNat u.walker) :=
    forRange_agree (R := fun _ => s.walkAlike u (2 * s.nsym.toNat - 1))
      ⟨hroot, hlt, [], Nat.zero_le _, s.hasDecoded_nil, u.hasDecoded_nil⟩ fun _ _ _ hb h =>
        h.round hcaps hcap hroot hlt hshape.downward hnode (getBit_eq_of_payload_eq hpayload hb)
  have hbodies : (decodeBody s).agree State.sameOutput State.sameOutput (decodeBody u) := by
    rw [decodeBody_eq, decodeBody_eq, ← hbitlen]
    exact hloops.andThen fun _ _ h => h.finish hroot hbitlen
  obtain ⟨t, v, w, x, ht, hv, hresult, herrinfo, ⟨hcursor, houtlen, houtput⟩, hwt, hxv⟩ := hbodies.settle
  obtain ⟨htcursor, htlen, htout⟩ := hwt.sameOutput
  obtain ⟨hvcursor, hvlen, hvout⟩ := hxv.sameOutput
  refine ⟨t, v, by rw [exec_decode_of_le htv hbit, ht], ?_, hresult, herrinfo, ?_, ?_, ?_⟩
  · rw [exec_decode_of_le hutv (by rwa [← hbitlen, ← hcap]), hv]
  · rw [← htcursor, hcursor, hvcursor]
  · rw [← htlen, houtlen, hvlen]
  · rw [← htout, houtput, hvout]

end Sys2Proof.Machine
end

section
/-! PROOFS. The round trip (R193): what COUNT, BUILD and GENCODE prepare, the two ways ENCODE then ends, and that DECODE reads
back what it packed. -/

namespace Sys2Proof.Machine

/-! ### ENCODE when every input symbol has a code -/

/-- Codes that do not all fit pass the capacity at a first symbol (R173). -/
theorem exists_first_overflow {s : State} (hover : 8 * s.caps.bitCap < (s.codesOf s.input).length) :
    ∃ i, i < s.symlen.toNat ∧ (s.codesOf (s.input.take i)).length ≤ 8 * s.caps.bitCap ∧
      8 * s.caps.bitCap < (s.codesOf (s.input.take (i + 1))).length := by
  have hex : ∃ n, 8 * s.caps.bitCap < (s.codesOf (s.input.take n)).length :=
    ⟨s.symlen.toNat, by rwa [State.input_take_symlen]⟩
  have hspec := Nat.find_spec hex
  have hle : Nat.find hex ≤ s.symlen.toNat := Nat.find_min' hex (by rwa [State.input_take_symlen])
  have hbefore : ∀ n, n < Nat.find hex → (s.codesOf (s.input.take n)).length ≤ 8 * s.caps.bitCap :=
    fun n hn => Nat.le_of_not_lt (Nat.find_min hex hn)
  cases hfind : Nat.find hex with
  | zero =>
    rw [hfind, List.take_zero] at hspec
    exact absurd hspec (Nat.not_lt_zero _)
  | succ i =>
    rw [hfind] at hspec hle hbefore
    exact ⟨i, hle, hbefore i (Nat.lt_succ_self i), hspec⟩

/-- With a code for every input symbol the only error of ENCODE is CapacityError, for codes that do not fit (R170, R173). -/
theorem exec_encode_capacity {s : State} (hcaps : s.capsOk) (hsym : s.symlen.toNat ≤ s.caps.symCap)
    (hcodes : ∀ c, c ∈ s.input → (s.code.at c).isSome = true)
    (hover : 8 * s.caps.bitCap < (s.codesOf s.input).length) :
    ∃ t, exec .encode s = .next t ∧ t.result = some .capacity := by
  obtain ⟨i, hi, hfit, hfull⟩ := exists_first_overflow hover
  obtain ⟨t, ht, -, hframe, -⟩ := encodeStopsAtFullBuffer s i hcaps hsym hi
    (fun j hj => hcodes _ (State.symByte_mem_input (Nat.lt_of_le_of_lt hj hi))) hfit hfull
  exact ⟨t, ht, by rw [hframe]⟩

/-! ### DECODE of what ENCODE packed -/

/-- The code table holds the codewords of the tree, and every input symbol has one: what ENCODE and DECODE need (R193). -/
structure State.Coded (s : State) : Prop where
  tv : s.tv = true
  tree : s.treeOk
  words : ∀ c p, s.code.at c = some p → codeword s.node s.root c p
  covers : ∀ c, c ∈ s.input → (s.code.at c).isSome = true

/-- The codes of symbols that have one spell those symbols. -/
theorem spells_codesOf {s : State} (hwords : ∀ c p, s.code.at c = some p → codeword s.node s.root c p) {cs : List Byte}
    (hcovers : ∀ c, c ∈ cs → (s.code.at c).isSome = true) : spells s.node s.root cs (s.codesOf cs) := by
  induction cs with
  | nil => rfl
  | cons c cs ih =>
    obtain ⟨p, hp⟩ := Option.isSome_iff_exists.mp (hcovers c List.mem_cons_self)
    refine ⟨p, s.codesOf cs, ?_, hwords c p hp, ih fun d hd => hcovers d (List.mem_cons_of_mem c hd)⟩
    rw [State.codesOf, List.flatMap_cons, State.codeBits, hp]
    rfl

/-- OUTBUF is no smaller than SYMBUF (R6). -/
theorem State.capsOk.symCap_le_outCap {s : State} (h : s.capsOk) : s.caps.symCap ≤ s.caps.outCap := by
  simp only [State.capsOk, Caps.wf, Caps.outWf, Bool.and_eq_true, decide_eq_true_eq] at h
  obtain ⟨-, hle, -⟩ := h
  exact hle

/-- With codes that fit, ENCODE completes and DECODE gives the input back (R193). -/
theorem State.Coded.decode_encode {s : State} (h : s.Coded) (hcaps : s.capsOk) (hsym : s.symlen.toNat ≤ s.caps.symCap)
    (hfit : (s.codesOf s.input).length ≤ 8 * s.caps.bitCap) :
    ∃ t v, exec .encode s = .next t ∧ exec .decode t = .next v ∧ t.result = none ∧ v.result = none ∧
      v.outlen = s.symlen ∧ v.output = s.input := by
  obtain ⟨t, ht, hlen, hpayload, -, -, hframe⟩ := encodeConcatenatesCodes s hcaps hsym h.covers hfit
  obtain ⟨hcap, -⟩ := exec_caps_host ht
  have htree := exec_sameTree ht (by decide) (by decide)
  have ⟨htv, _, _, hroot, hnode, _⟩ := htree
  obtain ⟨v, hv, hout, hvframe, -⟩ := decodeEmitsSpelledSymbols t s.input (by rwa [State.capsOk, hcap])
    (htv.trans h.tv) (htree.treeOk h.tree) (by rwa [hlen, hcap])
    (by rw [hnode, hroot, hpayload]; exact spells_codesOf h.words h.covers)
    (by rw [s.input_length, hcap]; exact hsym.trans hcaps.symCap_le_outCap)
  refine ⟨t, v, ht, hv, by rw [hframe], by rw [hvframe], ?_, hout⟩
  rw [hvframe, s.input_length, BitVec.ofNat_toNat, BitVec.setWidth_eq]

/-! ### COUNT, BUILD and GENCODE -/

/-- COUNT leaves a count that is not 0 for every input symbol (R132 a). -/
theorem mem_present_of_mem_input {s t : State} (hfreq : t.freq = countAll s.input) {c : Byte} (hc : c ∈ s.input) :
    c ∈ t.present := by
  have hpos : 0 < occurrences s.input c := by
    rw [occurrences_eq_count]
    exact List.count_pos_iff.mpr hc
  rw [mem_present, hfreq]
  intro hzero
  rw [← countAll_input_at, hzero] at hpos
  exact absurd hpos (by decide)

/-- Every symbol of the frequency table has a codeword in the tree that BUILD leaves (R141, R164 a). -/
theorem State.built_codeword {s : State} {c : Byte} (hc : c ∈ s.present) :
    ∃ p, codeword s.built.node s.built.root c p := by
  have hne : s.present ≠ [] := List.ne_nil_of_mem hc
  obtain ⟨t, ht, -, -, -, hroot, -, hshape, -⟩ := buildMakesTree s hne
  obtain ⟨u, hu, hleaf⟩ := buildLeavesInSymbolOrder s hne
  obtain ⟨i, hi, rfl⟩ := List.getElem_of_mem hc
  rw [exec_build_of_ne hne] at ht hu
  cases ht
  cases hu
  exact (hshape.exists_codeword_iff hroot _).mpr ⟨i, _, hi, hleaf i hi⟩

/-- GENCODE on a tree that has a codeword for every input symbol. -/
theorem exec_gencode_coded {s : State} (htv : s.tv = true) (htree : s.treeOk)
    (hcovers : ∀ c, c ∈ s.input → ∃ p, codeword s.node s.root c p) :
    ∃ t, exec .gencode s = .next t ∧ t.Coded ∧ t = { s with code := t.code, result := none, errinfo := 0#32 } := by
  obtain ⟨t, ht, hframe, hcode⟩ := exec_gencode_codewords htv htree
  have hsame := exec_sameTree ht (by decide) (by decide)
  have ⟨htv', _, _, hroot, hnode, _⟩ := hsame
  have hinput : t.input = s.input := by rw [hframe]; rfl
  refine ⟨t, ht, ⟨htv'.trans htv, hsame.treeOk htree, fun c p hp => ?_, fun c hc => ?_⟩, hframe⟩
  · rw [hnode, hroot]
    exact (hcode c p).mp hp
  · obtain ⟨p, hp⟩ := hcovers c (hinput ▸ hc)
    exact Option.isSome_iff_exists.mpr ⟨p, (hcode c p).mpr hp⟩

/-- COUNT, BUILD and GENCODE on an input that is not empty all complete, keep the input, and leave its symbols coded. -/
theorem exec_count_build_gencode {s : State} (hone : 1 ≤ s.symlen.toNat) (hsym : s.symlen.toNat ≤ s.caps.symCap) :
    ∃ s1 s2 s3, exec .count s = .next s1 ∧ exec .build s1 = .next s2 ∧ exec .gencode s2 = .next s3 ∧
      s1.result = none ∧ s2.result = none ∧ s3.result = none ∧
      s3.Coded ∧ s3.caps = s.caps ∧ s3.symlen = s.symlen ∧ s3.input = s.input := by
  have hcount := exec_count_of_le hsym
  generalize hs1 : ({ s with freq := countAll s.input } : State).succeed = s1 at hcount
  have hpresent : ∀ c, c ∈ s.input → c ∈ s1.present := fun c => mem_present_of_mem_input (by rw [← hs1]; rfl)
  have hne : s1.present ≠ [] := List.ne_nil_of_mem (hpresent _ (State.symByte_mem_input hone))
  have hinput : s1.built.succeed.input = s.input := by rw [← hs1]; rfl
  obtain ⟨s3, hgen, hcoded, hframe⟩ := exec_gencode_coded (s := s1.built.succeed) rfl (s1.withTree_treeOk hne)
    fun c hc => State.built_codeword (hpresent c (hinput ▸ hc))
  refine ⟨s1, s1.built.succeed, s3, hcount, exec_build_of_ne hne, hgen, by rw [← hs1]; rfl, rfl, by rw [hframe], hcoded,
    ?_, ?_, ?_⟩
  · rw [hframe, ← hs1]
    rfl
  · rw [hframe, ← hs1]
    rfl
  · rw [hframe, ← hinput]
    rfl

/-- Settles O45: the first three commands leave the input coded; codes that fit are packed and read back, and codes that do
not fit end ENCODE in CapacityError. -/
theorem roundTripRecoversInput : Obligations.RoundTripRecoversInput := by
  intro s hcaps hone hsym
  obtain ⟨s1, s2, s3, h1, h2, h3, hr1, hr2, hr3, hcoded, hcap, hsymlen, hinput⟩ := exec_count_build_gencode hone hsym
  have hcaps3 : s3.capsOk := by rwa [State.capsOk, hcap]
  have hsym3 : s3.symlen.toNat ≤ s3.caps.symCap := by rwa [hsymlen, hcap]
  by_cases hfit : (s3.codesOf s3.input).length ≤ 8 * s3.caps.bitCap
  · obtain ⟨s4, s5, h4, h5, hr4, hr5, hlen, hout⟩ := hcoded.decode_encode hcaps3 hsym3 hfit
    exact ⟨s1, s2, s3, s4, s5, h1, h2, h3, h4, h5, hr1, hr2, hr3,
      fun _ => ⟨hr4, hr5, hlen.trans hsymlen, hout.trans hinput⟩, fun _ => hr4⟩
  · obtain ⟨s4, h4, hr4⟩ := exec_encode_capacity hcaps3 hsym3 hcoded.covers (Nat.lt_of_not_le hfit)
    obtain ⟨s5, h5⟩ := exec_next .decode s4
    exact ⟨s1, s2, s3, s4, s5, h1, h2, h3, h4, h5, hr1, hr2, hr3, fun hne => absurd hr4 hne,
      fun hfits => absurd (hcap ▸ hfits) hfit⟩

end Sys2Proof.Machine
end

section
/-! PROOFS. The errors (R201 to R207): which command can raise which, and the two raised before any work: an illegal command
word and a DECODE with no tree. -/

namespace Sys2Proof.Machine

/-! ### The errors a piece of work can raise -/

/-- Every error that `r` raises is one of `E`. -/
def Run.raisesOnly {σ : Type} (r : Run σ) (E : ErrorKind → Prop) : Prop :=
  match r with
  | .ok _ => True
  | .raised _ e _ => E e

section
variable {E : ErrorKind → Prop}

theorem Run.raisesOnly_ok {σ : Type} (s : σ) : (Run.ok s).raisesOnly E := trivial

theorem Run.raisesOnly_raised {σ : Type} {s : State} {e : ErrorKind} {info : Word} (he : E e) :
    (Run.raised s e info : Run σ).raisesOnly E := he

theorem Run.raisesOnly.andThen {σ τ : Type} {r : Run σ} {f : σ → Run τ} (hr : r.raisesOnly E)
    (hf : ∀ s, (f s).raisesOnly E) : (r.andThen f).raisesOnly E := by
  cases r with
  | ok s => exact hf s
  | raised s e info => exact hr

/-- A loop raises only what its rounds raise. -/
theorem forRange_raisesOnly {σ : Type} {body : Nat → σ → Run σ} (hbody : ∀ i s, (body i s).raisesOnly E)
    (n : Nat) (s : σ) : (forRange body n s).raisesOnly E := by
  induction n with
  | zero => exact Run.raisesOnly_ok s
  | succ n ih => exact ih.andThen (hbody n)

/-- An error that RESULT names at the end of a command was raised by its work (R120, R211). -/
theorem Run.raisesOnly.settle {r : Run State} {t : State} {e : ErrorKind} (hr : r.raisesOnly E) (h : r.settle = .next t)
    (he : t.result = some e) : E e := by
  rcases Run.settle_cases h with ⟨s, rfl, rfl⟩ | ⟨s, e', info, rfl, rfl⟩
  · cases he
  · cases he
    exact hr

end

/-! ### The errors of each command -/

/-- The error `e` is one of the command `i` (the table of R201). -/
def ErrorKind.raisedBy (e : ErrorKind) (i : Instr) : Prop :=
  match e with
  | .emptyInput => i = .build
  | .missingCode => i = .encode
  | .malformedStream => i = .decode
  | .illegalCommand => False
  | .capacity => i = .count ∨ i = .encode ∨ i = .decode
  | .noTree => i = .decode

theorem ErrorKind.capacity_raisedBy_count : capacity.raisedBy .count := .inl rfl

theorem ErrorKind.capacity_raisedBy_encode : capacity.raisedBy .encode := .inr (.inl rfl)

theorem ErrorKind.capacity_raisedBy_decode : capacity.raisedBy .decode := .inr (.inr rfl)

theorem encSymStep_raisesOnly (i : Nat) (s : State) : (encSymStep i s).raisesOnly (·.raisedBy .encode) := by
  rcases encSymStep_cases i s with ⟨-, h⟩ | ⟨p, -, -, h⟩ | ⟨p, -, -, h⟩
  · exact h ▸ Run.raisesOnly_raised rfl
  · exact h ▸ Run.raisesOnly_raised ErrorKind.capacity_raisedBy_encode
  · exact h ▸ Run.raisesOnly_ok _

theorem decBitStep_raisesOnly (b : Nat) (w : Walker) : (decBitStep b w).raisesOnly (·.raisedBy .decode) := by
  rcases decBitStep_cases b w with ⟨_, _, _, _, _, _, -, -, h⟩ | ⟨_, _, _, _, _, -, -, -, h⟩ |
    ⟨_, _, _, _, _, -, -, -, h⟩ | ⟨_, _, -, -, h⟩ | ⟨_, _, -, -, -, h⟩ | ⟨_, _, -, -, -, h⟩
  · exact h ▸ Run.raisesOnly_ok _
  · exact h ▸ Run.raisesOnly_raised ErrorKind.capacity_raisedBy_decode
  · exact h ▸ Run.raisesOnly_ok _
  · exact h ▸ Run.raisesOnly_raised rfl
  · exact h ▸ Run.raisesOnly_raised ErrorKind.capacity_raisedBy_decode
  · exact h ▸ Run.raisesOnly_ok _

theorem Walker.finish_raisesOnly (w : Walker) : w.finish.raisesOnly (·.raisedBy .decode) := by
  rcases w.finish_cases with ⟨-, h⟩ | ⟨-, h⟩
  · exact h ▸ Run.raisesOnly_ok _
  · exact h ▸ Run.raisesOnly_raised rfl

theorem decodeBody_raisesOnly (s : State) : (decodeBody s).raisesOnly (·.raisedBy .decode) :=
  (forRange_raisesOnly decBitStep_raisesOnly _ _).andThen Walker.finish_raisesOnly

/-- An error that a command leaves in RESULT is one of its own (R201). -/
theorem exec_raisedBy {i : Instr} {s t : State} {e : ErrorKind} (h : exec i s = .next t) (he : t.result = some e) :
    e.raisedBy i := by
  cases i with
  | nop => exact Run.raisesOnly.settle (E := (·.raisedBy .nop)) (Run.raisesOnly_ok s) h he
  | clear => exact Run.raisesOnly.settle (E := (·.raisedBy .clear)) (Run.raisesOnly_ok s.cleared) h he
  | gencode => exact Run.raisesOnly.settle (E := (·.raisedBy .gencode)) (Run.raisesOnly_ok _) h he
  | count =>
    refine Run.raisesOnly.settle (E := (·.raisedBy .count)) ?_ h he
    split
    · exact Run.raisesOnly_raised ErrorKind.capacity_raisedBy_count
    · exact Run.raisesOnly_ok _
  | build =>
    refine Run.raisesOnly.settle (E := (·.raisedBy .build)) ?_ h he
    split
    · exact Run.raisesOnly_raised rfl
    · exact Run.raisesOnly_ok _
  | encode =>
    refine Run.raisesOnly.settle (E := (·.raisedBy .encode)) ?_ h he
    split
    · exact Run.raisesOnly_raised ErrorKind.capacity_raisedBy_encode
    · exact forRange_raisesOnly encSymStep_raisesOnly _ _
  | decode =>
    refine Run.raisesOnly.settle (E := (·.raisedBy .decode)) ?_ h he
    split
    · split
      · exact Run.raisesOnly_raised ErrorKind.capacity_raisedBy_decode
      · exact decodeBody_raisesOnly s
    · exact Run.raisesOnly_raised rfl

/-- Settles O9: an error left in RESULT is one of the command's own, and the table of R201 says whose each error is. -/
theorem errorsBelongToCommands : Obligations.ErrorsBelongToCommands := fun _ _ _ h =>
  ⟨exec_raisedBy h, exec_raisedBy h, exec_raisedBy h, exec_raisedBy h, exec_raisedBy h, exec_raisedBy h⟩

/-! ### An illegal command word (R205) -/

/-- A word that is not of format C with an opcode at most 6 enters IllegalCommandError(word) in place of a command. -/
theorem runCommand_of_not_wordWf {w : Word} (h : wordWf w = false) (s : State) :
    runCommand w s = .next (s.raise .illegalCommand w) := by
  rcases runCommand_cases w s with ⟨-, hr⟩ | ⟨i, hi, -⟩
  · exact hr
  · rw [decodeCommand_of_not_wordWf h] at hi
    cases hi

/-- Settles O7: a write to index 1 of REG is a write to CMD, and the sticky bit of IllegalCommandError is bit 4. -/
theorem illegalCommandRecordsWord : Obligations.IllegalCommandRecordsWord := fun _ _ _ h =>
  runCommand_of_not_wordWf h _

/-! ### DECODE with no tree (R207) -/

/-- The first precheck of DECODE: with no tree it enters NoTreeError before any work, whatever BITLEN is (R185). -/
theorem exec_decode_of_noTree {s : State} (htv : s.tv = false) : exec .decode s = .next (s.raise .noTree 0#32) := by
  show execDecode s = _
  rw [execDecode, if_neg (by simp [htv]), Run.settle_raised]

/-- Settles O36: DECODE enters NoTreeError, whose sticky bit is bit 6, while GENCODE has no precheck to fail. -/
theorem decodeWithoutTreeFails : Obligations.DecodeWithoutTreeFails := fun s htv =>
  ⟨exec_decode_of_noTree htv, _, exec_gencode s, rfl⟩

end Sys2Proof.Machine
end
